-- ==== Sys2Proof/Word.lean ====
section
/-! DEFINITION. The word types of forward_dct_8x8 (spec/00_scope.md rules R8, R9). -/

namespace Sys2Proof

/-- A byte: one entry of QT, one byte of the output stream. -/
abbrev Byte := BitVec 8

/-- A 32-bit word of the host interface (20_memory.md rule R91); a command word (rule R120). -/
abbrev Word := BitVec 32

/-- An IEEE 754 binary64 value, as its encoding (00_scope.md rule R10). -/
abbrev Binary64 := BitVec 64

/-- Sixty-four like things: an 8x8 block in natural or in zigzag order (00_scope.md rule R12). -/
abbrev Block (α : Type) := Vector α 64

/-- The n things f 0, ..., f (n - 1), in a form that computes in few steps; it is Vector.ofFn (`tabulate_eq_ofFn`). -/
def tabulate {α : Type} {n : Nat} (f : Fin n → α) : Vector α n := ⟨⟨(List.finRange n).map f⟩, by simp⟩

@[simp] theorem tabulate_getElem {α : Type} {n : Nat} (f : Fin n → α) (i : Nat) (h : i < n) :
    (tabulate f)[i] = f ⟨i, h⟩ := by
  simp [tabulate, Vector.getElem_mk]

theorem tabulate_eq_ofFn {α : Type} {n : Nat} (f : Fin n → α) : tabulate f = Vector.ofFn f := by
  apply Vector.ext
  intro i h
  simp

end Sys2Proof
end

