-- ==== Sys2Proof/Syntax.lean ====
section
/-! DEFINITION. The commands: one constructor per row of spec/opcode_table.json (30_encoding.md rule R127). -/

namespace Sys2Proof

/-- The thirteen legal commands. COMP and CLS select the row, so no constructor has an operand
(30_encoding.md rules R121 to R124). -/
inductive Instr where
  /-- NOP (rule R330). -/
  | nop
  /-- INIT (rule R150). -/
  | init
  /-- HEADER (rule R290). -/
  | header
  /-- FDCTQ 0, luma tables (rule R190). -/
  | fdctq0
  /-- FDCTQ 1, chroma tables (rule R190). -/
  | fdctq1
  /-- ZIGZAG (rule R210). -/
  | zigzag
  /-- HUFF Y (rule R230). -/
  | huffY
  /-- HUFF CB (rule R230). -/
  | huffCb
  /-- HUFF CR (rule R230). -/
  | huffCr
  /-- ENCBLK Y (rule R331). -/
  | encblkY
  /-- ENCBLK CB (rule R331). -/
  | encblkCb
  /-- ENCBLK CR (rule R331). -/
  | encblkCr
  /-- FINISH (rule R295). -/
  | finish
  deriving DecidableEq, Repr

end Sys2Proof
end

