-- ==== Sys2Proof/WellFormed.lean ====
section
/-! DEFINITION. What a well-formed command is: on the fields of a command word (30_encoding.md rules R120, R125)
and on the instructions the decoder gives. -/

namespace Sys2Proof

/-- The four fields of a command word (30_encoding.md rule R120). -/
structure CmdFields where
  op : BitVec 4
  comp : BitVec 2
  cls : BitVec 1
  res : BitVec 25
  deriving DecidableEq, Repr

/-- Rule R125(a): OP is not one of the reserved opcodes 0x8 to 0xF. -/
def CmdFields.opDefined (f : CmdFields) : Bool := f.op.toNat < 8

/-- Rule R125(b): the reserved bits are 0. -/
def CmdFields.reservedZero (f : CmdFields) : Bool := f.res == 0

/-- Rule R125(c): COMP is not 3. -/
def CmdFields.compLegal (f : CmdFields) : Bool := f.comp != 3

/-- Rule R125(d): COMP is 0 unless OP is HUFF or ENCBLK. -/
def CmdFields.compUsed (f : CmdFields) : Bool := f.comp == 0 || f.op == 5 || f.op == 6

/-- Rule R125(e): CLS is 0 unless OP is FDCTQ. -/
def CmdFields.clsUsed (f : CmdFields) : Bool := f.cls == 0 || f.op == 3

/-- A command word's fields are legal when none of rule R125's five cases holds. -/
def CmdFields.wellFormed (f : CmdFields) : Bool :=
  f.opDefined && f.reservedZero && f.compLegal && f.compUsed && f.clsUsed

/-- An instruction has no operand to check: its COMP or CLS is part of its name (rules R122 to R124), so each of the
thirteen is well formed. -/
def Instr.wellFormed : Instr → Bool
  | .nop | .init | .header | .fdctq0 | .fdctq1 | .zigzag => true
  | .huffY | .huffCb | .huffCr | .encblkY | .encblkCb | .encblkCr | .finish => true

end Sys2Proof
end

