-- ==== Sys2Proof/Decode.lean ====
section
/-! DEFINITION. The decoder, total on every 32-bit word, and the encoder (30_encoding.md rules R120, R126, R127). -/

namespace Sys2Proof

/-- Why a word is no command: the five cases of 30_encoding.md rule R125, by name. -/
inductive IllegalWord where
  /-- (b) bits [31:7] are not 0 -/
  | reservedBits
  /-- (a) OP is 0x8 to 0xF -/
  | reservedOpcode
  /-- (c) COMP = 3 -/
  | compThree
  /-- (d) COMP is not 0 and OP is not HUFF or ENCBLK -/
  | compUnused
  /-- (e) CLS is 1 and OP is not FDCTQ -/
  | clsUnused
  deriving DecidableEq, Repr

/-- Cuts a command word into its fields (rule R120). -/
def splitWord (w : Word) : CmdFields :=
  { op := w.extractLsb' 0 4, comp := w.extractLsb' 4 2, cls := w.extractLsb' 6 1, res := w.extractLsb' 7 25 }

/-- Puts the fields of a command word together (rule R120). -/
def joinWord (f : CmdFields) : Word :=
  f.res ++ f.cls ++ f.comp ++ f.op

/-- `decode` on the fields, the tests in the order of rule R126. -/
def decodeFields (f : CmdFields) : Except IllegalWord Instr :=
  if f.res ≠ 0 then .error .reservedBits
  else if 8 ≤ f.op.toNat then .error .reservedOpcode
  else if f.comp = 3 then .error .compThree
  else if f.comp ≠ 0 ∧ f.op ≠ 5 ∧ f.op ≠ 6 then .error .compUnused
  else if f.cls ≠ 0 ∧ f.op ≠ 3 then .error .clsUnused
  else
    match f.op.toNat with
    | 0 => .ok .nop
    | 1 => .ok .init
    | 2 => .ok .header
    | 3 => if f.cls = 0 then .ok .fdctq0 else .ok .fdctq1
    | 4 => .ok .zigzag
    | 5 => if f.comp = 0 then .ok .huffY else if f.comp = 1 then .ok .huffCb else .ok .huffCr
    | 6 => if f.comp = 0 then .ok .encblkY else if f.comp = 1 then .ok .encblkCb else .ok .encblkCr
    | 7 => .ok .finish
    | _ => .error .reservedOpcode

/-- The decoder of rule R126, total on every 32-bit word. -/
def decode (w : Word) : Except IllegalWord Instr := decodeFields (splitWord w)

/-- The fields each instruction stands for (30_encoding.md rules R121, R127). -/
def fieldsOf : Instr → CmdFields
  | .nop => ⟨0x0, 0, 0, 0⟩
  | .init => ⟨0x1, 0, 0, 0⟩
  | .header => ⟨0x2, 0, 0, 0⟩
  | .fdctq0 => ⟨0x3, 0, 0, 0⟩
  | .fdctq1 => ⟨0x3, 0, 1, 0⟩
  | .zigzag => ⟨0x4, 0, 0, 0⟩
  | .huffY => ⟨0x5, 0, 0, 0⟩
  | .huffCb => ⟨0x5, 1, 0, 0⟩
  | .huffCr => ⟨0x5, 2, 0, 0⟩
  | .encblkY => ⟨0x6, 0, 0, 0⟩
  | .encblkCb => ⟨0x6, 1, 0, 0⟩
  | .encblkCr => ⟨0x6, 2, 0, 0⟩
  | .finish => ⟨0x7, 0, 0, 0⟩

/-- The command word of an instruction, from the fields of rules R120 and R121. -/
def encode (i : Instr) : Word := joinWord (fieldsOf i)

/-- What the decoder reads from an instruction whose bits are `w`, numbered as spec/opcode_table.json numbers them;
bits at and above `nbits` are 0. A command is one word, written whole to CMD, so there are no bytes to lay out (rule R128). -/
def decodeTableWord (nbits w : Nat) : Option Instr := (decode (BitVec.ofNat 32 (w % 2 ^ nbits))).toOption

end Sys2Proof
end

