-- ==== Sys2Proof/Config.lean ====
section
/-! DEFINITION. What an implementation fixes, and the free values: opaque constants, of which no proof can see a value. -/

namespace Sys2Proof

/-- The parameter behind OUT_DEPTH (00_scope.md rule R7, 92_eei_decisions.md D11, 93_implementation_defined.md U6). -/
opaque Config.outDepthParam : Word

/-- OUT_DEPTH: any 32-bit number that is at least 1024 (00_scope.md rule R7, 10_state.md rule R53). -/
def Config.outDepth : Nat := max 1024 Config.outDepthParam.toNat

/-- WINDOW_BASE, where the window sits in the host's address space (20_memory.md rule R90, U5). Nothing rests on it. -/
opaque Config.windowBase : Nat

/-- The value the n-th read of a field that a running command may change draws (70_reset_and_hazards.md rule R452, U3). -/
opaque Config.busyRead : Nat → Word

/-- The COEF entry stored for a scaled coefficient that is no int16, which 41_fdct_quant.md rule R185 says cannot
arise from tables an INIT has built and for which the spec states no result. DESIGN CHOICE (log 8); safe. -/
opaque Config.coefUnstated : Binary64 → BitVec 16

/-- SCALE for a quality outside 1..100, for which 40_tables.md rule R151 states no result and which the QUALITY
register never holds. DESIGN CHOICE (log 9); safe. -/
opaque Config.scaleUnstated : BitVec 7 → BitVec 13

end Sys2Proof
end

