-- ==== Sys2Proof/Machine/State.lean ====
section
/-! DEFINITION. The state of the block (10_state.md rule R30), the reasons a step can stop, and the state after reset. -/

namespace Sys2Proof.Machine

/-- The component of a block (30_encoding.md rule R122; STATUS.NEXT_COMP, 10_state.md rule R36). -/
inductive Comp where
  | y
  | cb
  | cr
  deriving DecidableEq, Repr

/-- The table class: luma is class 0, chroma class 1 (00_scope.md rule R14). -/
inductive TableClass where
  | luma
  | chroma
  deriving DecidableEq, Repr

/-- STATUS.STATE; the values 6 and 7 are never read (10_state.md rule R36, U11). -/
inductive Phase where
  | idle
  | initialized
  | headerWritten
  | scanning
  | finalized
  | error
  deriving DecidableEq, Repr

/-- STATUS.ERRCODE (60_exceptions.md rule R400); the reserved codes 7 to 15 are never recorded (U9). -/
inductive ErrCode where
  | none
  | configError
  | invalidInput
  | fatalInvariant
  | illegalCommand
  | sequenceError
  | outOverflow
  deriving DecidableEq, Repr

/-- An error a command raises, with what ERRDETAIL shows of it (60_exceptions.md rules R400, R412). Each rejects its
command, which is a NEXT state (rule R410). CONFIG_ERROR is never raised (rule R153). -/
inductive CmdError where
  /-- HEADER: WIDTH or HEIGHT is 0. -/
  | invalidInput (widthZero heightZero : Bool)
  /-- HUFF, ENCBLK: a coefficient whose category has no codeword. -/
  | fatalInvariant (pos cat : Nat) (k : Comp)
  /-- The core: an illegal command word. -/
  | illegalCommand
  /-- Any command but NOP and INIT: not admitted in the current state. -/
  | sequenceError
  /-- HEADER, HUFF, ENCBLK, FINISH: the bytes do not fit the FIFO's free space. -/
  | outOverflow (needed : Nat)
  deriving DecidableEq, Repr

/-- The three buffers whose entries may be unwritten (70_reset_and_hazards.md rule R441). -/
inductive BufName where
  | sample
  | coef
  | zz
  deriving DecidableEq, Repr

/-- A buffer of 64 entries, the machine's memory: (index, value) pairs, indexes strictly rising and below 64, an
unlisted entry being unwritten (rule R441). `Memory.wf` says so. SAMPLE's cells are Host.Cell. -/
abbrev Buffer (w : Nat) := List (Nat × BitVec w)

/-- An access of the host: an offset of the window, a width in bytes, and the value written (20_memory.md rules R91,
R92; 00_scope.md rule R11: MemRead(off, n), MemWrite(off, n, v)). -/
inductive HostAccess where
  | read (off bytes : Nat)
  | write (off bytes : Nat) (v : Word)
  deriving DecidableEq, Repr

/-- A turn of the machine's environment: who moves next (46_sequencing.md rule R320; log 1). -/
inductive Turn where
  /-- The host makes an access. -/
  | host (a : HostAccess)
  /-- The core may take its step. -/
  | core
  /-- Reset is asserted (70_reset_and_hazards.md rule R440). -/
  | reset
  deriving DecidableEq, Repr

/-- Why the machine stops. Both are the model faults of 70_reset_and_hazards.md rule R441. -/
inductive Fault where
  /-- Raised by a host read of a SAMPLE, COEF or ZZ entry not written since reset. Safe: the block returns some value
  there and the model claims nothing about it. -/
  | hostReadUnwritten (b : BufName) (i : Nat)
  /-- Raised by FDCTQ and ENCBLK (SAMPLE), ZIGZAG (COEF) and HUFF (ZZ) when entry i, the first such, was not written
  since reset. Safe, as above. -/
  | commandReadUnwritten (b : BufName) (i : Nat)
  deriving DecidableEq, Repr

/-- Why the model gives no meaning. -/
inductive Refusal where
  /-- An instruction with no meaning yet: raised by no arm of exec, since each has its meaning. Safe. -/
  | notModelled (mnemonic : String)
  /-- Raised by a host access that is not 32 bits wide, not word aligned or outside 0x000-0xFFF, which
  20_memory.md rule R92 says a model refuses. Safe: nothing is claimed of a program that makes one. -/
  | notAnAccess (off bytes : Nat)
  deriving DecidableEq, Repr

/-- The architectural state (10_state.md rule R30) and, last, the model's own fields. -/
structure State where
  /-- STATUS.BUSY (R36) -/
  busy : Bool
  /-- STATUS.STATE (R36) -/
  phase : Phase
  /-- STATUS.NEXT_COMP (R36) -/
  nextComp : Comp
  /-- STATUS.ERRCODE (R36, R400) -/
  errCode : ErrCode
  /-- CMD_LATCH (R72) -/
  cmdLatch : Word
  /-- QUALITY, an integer in 1..100 (R38) -/
  quality : BitVec 7
  /-- WIDTH[15:0] (R39) -/
  width : BitVec 16
  /-- HEIGHT[15:0] (R40) -/
  height : BitVec 16
  /-- SCALE[12:0] (R41) -/
  scale : BitVec 13
  /-- INT_STATUS[2:0]: WOVR, ERR, DONE (R42) -/
  intStatus : BitVec 3
  /-- INT_ENABLE[2:0] (R43) -/
  intEnable : BitVec 3
  /-- ERRCMD (R44) -/
  errCmd : Word
  /-- ERRDETAIL (R45) -/
  errDetail : Word
  /-- PRED_Y (R46) -/
  predY : BitVec 16
  /-- PRED_CB (R46) -/
  predCb : BitVec 16
  /-- PRED_CR (R46) -/
  predCr : BitVec 16
  /-- BITACC.ACC (R47) -/
  acc : Byte
  /-- BITACC.COUNT (R47) -/
  count : BitVec 3
  /-- MCU_TOTAL (R48) -/
  mcuTotal : Word
  /-- MCU_DONE (R49) -/
  mcuDone : Word
  /-- OUT_TOTAL (R52) -/
  outTotal : Word
  /-- The output FIFO, oldest first; OUT_LEVEL is its length (R50, R71) -/
  fifo : List Byte
  /-- SAMPLE[0..63], natural order (R60) -/
  sample : Buffer 8
  /-- COEF[0..63], natural order (R61) -/
  coef : Buffer 16
  /-- ZZ[0..63], zigzag order (R62) -/
  zz : Buffer 16
  /-- QT[0], zigzag order (R63) -/
  qt0 : Block Byte
  /-- QT[1], zigzag order (R63) -/
  qt1 : Block Byte
  /-- FS[0], natural order (R70) -/
  fs0 : Block Binary64
  /-- FS[1], natural order (R70) -/
  fs1 : Block Binary64
  /-- The model's own: the turns still to come, oldest first (log 1). -/
  agenda : List Turn
  /-- The model's own: the words the host's reads returned, newest first (log 12). -/
  replies : List Word
  /-- The model's own: how many free values the host's reads have drawn (R452; log 13). -/
  draws : Nat
  deriving DecidableEq, Repr

/-- The machine right after reset (70_reset_and_hazards.md rule R442). The spec gives FS no reset value: 0 here,
DESIGN CHOICE (log 3); unsafe, though nothing reads it before INIT (rule R441). `replies` and `draws` are the model's
own, DESIGN CHOICE (logs 12, 13). -/
def State.reset : State where
  busy := false
  phase := .idle
  nextComp := .y
  errCode := .none
  cmdLatch := 0
  quality := 80
  width := 0
  height := 0
  scale := 0
  intStatus := 0
  intEnable := 0
  errCmd := 0
  errDetail := 0
  predY := 0
  predCb := 0
  predCr := 0
  acc := 0
  count := 0
  mcuTotal := 0
  mcuDone := 0
  outTotal := 0
  fifo := []
  sample := []
  coef := []
  zz := []
  qt0 := Vector.replicate 64 0
  qt1 := Vector.replicate 64 0
  fs0 := Vector.replicate 64 0
  fs1 := Vector.replicate 64 0
  agenda := []
  replies := []
  draws := 0

end Sys2Proof.Machine
end

