-- ==== Sys2Proof/Machine/Operands.lean ====
section
/-! DEFINITION. What a command's COMP and CLS fields name: the component, its table class, its predictor, its tables
(30_encoding.md rules R122 to R124). -/

namespace Sys2Proof.Machine

/-- COMP and NEXT_COMP as numbers: 0 Y, 1 Cb, 2 Cr (30_encoding.md rule R122; 10_state.md rule R36). -/
def compCode : Comp → Nat
  | .y => 0
  | .cb => 1
  | .cr => 2

/-- class(COMP): 0 (luma) for Y, 1 (chroma) for Cb and Cr (rule R122). -/
def classOf : Comp → TableClass
  | .y => .luma
  | .cb => .chroma
  | .cr => .chroma

/-- PRED[k] (10_state.md rule R46). -/
def predOf (k : Comp) (s : State) : BitVec 16 :=
  match k with
  | .y => s.predY
  | .cb => s.predCb
  | .cr => s.predCr

/-- PRED[k] <- v; the other two are unchanged (43_entropy.md rule R223). -/
def setPred (k : Comp) (v : BitVec 16) (s : State) : State :=
  match k with
  | .y => { s with predY := v }
  | .cb => { s with predCb := v }
  | .cr => { s with predCr := v }

/-- QT[c] (10_state.md rule R63). -/
def qtOf (c : TableClass) (s : State) : Block Byte :=
  match c with
  | .luma => s.qt0
  | .chroma => s.qt1

/-- FS[c] (10_state.md rule R70; 30_encoding.md rule R123). -/
def fsOf (c : TableClass) (s : State) : Block Binary64 :=
  match c with
  | .luma => s.fs0
  | .chroma => s.fs1

/-- HUFF k (30_encoding.md rule R122). -/
def huffInstr : Comp → Instr
  | .y => .huffY
  | .cb => .huffCb
  | .cr => .huffCr

/-- ENCBLK k (30_encoding.md rule R122). -/
def encblkInstr : Comp → Instr
  | .y => .encblkY
  | .cb => .encblkCb
  | .cr => .encblkCr

/-- FDCTQ c (30_encoding.md rule R123). -/
def fdctqInstr : TableClass → Instr
  | .luma => .fdctq0
  | .chroma => .fdctq1

end Sys2Proof.Machine
end

