-- ==== Sys2Proof/Machine/Flags.lean ====
section
/-! DEFINITION. The status, interrupt and error words: the fields of STATUS, INT_STATUS, BITACC and ERRDETAIL, and the IRQ
output (10_state.md rules R36, R42, R43, R47; 60_exceptions.md rules R400, R412, R420). -/

namespace Sys2Proof.Machine

/-- INT_STATUS.DONE, bit 0 (rule R42). -/
def intDone : BitVec 3 := 1

/-- INT_STATUS.ERR, bit 1 (rule R42). -/
def intErr : BitVec 3 := 2

/-- INT_STATUS.WOVR, bit 2 (rule R42). -/
def intWovr : BitVec 3 := 4

/-- The IRQ output, a level (60_exceptions.md rule R420). -/
def irq (s : State) : Bool := s.intStatus &&& s.intEnable != 0

/-- STATUS.STATE's values (10_state.md rule R36). -/
def phaseCode : Phase → Nat
  | .idle => 0
  | .initialized => 1
  | .headerWritten => 2
  | .scanning => 3
  | .finalized => 4
  | .error => 5

/-- STATUS.ERRCODE's values (60_exceptions.md rule R400). -/
def errCodeNumber : ErrCode → Nat
  | .none => 0
  | .configError => 1
  | .invalidInput => 2
  | .fatalInvariant => 3
  | .illegalCommand => 4
  | .sequenceError => 5
  | .outOverflow => 6

/-- The code an error is recorded under (60_exceptions.md rule R400). -/
def CmdError.code : CmdError → ErrCode
  | .invalidInput _ _ => .invalidInput
  | .fatalInvariant _ _ _ => .fatalInvariant
  | .illegalCommand => .illegalCommand
  | .sequenceError => .sequenceError
  | .outOverflow _ => .outOverflow

/-- The ERRDETAIL word of an error (60_exceptions.md rule R412). -/
def CmdError.detail : CmdError → Word
  | .invalidInput widthZero heightZero => BitVec.ofNat 32 (widthZero.toNat + 2 * heightZero.toNat)
  | .fatalInvariant pos cat k => BitVec.ofNat 32 (pos + 256 * cat + 65536 * compCode k)
  | .illegalCommand => 0
  | .sequenceError => 0
  | .outOverflow needed => BitVec.ofNat 32 needed

/-- Every error but OUT_OVERFLOW enters ERROR (60_exceptions.md rules R400, R410). -/
def CmdError.entersError : CmdError → Bool
  | .invalidInput _ _ => true
  | .fatalInvariant _ _ _ => true
  | .illegalCommand => true
  | .sequenceError => true
  | .outOverflow _ => false

/-- STATUS as read while BUSY = 0 (10_state.md rule R36). -/
def statusWord (s : State) : Word :=
  BitVec.ofNat 32
    (s.busy.toNat + 2 * phaseCode s.phase + 16 * compCode s.nextComp + 256 * errCodeNumber s.errCode)

/-- BITACC (10_state.md rule R47): COUNT in bits [10:8], ACC in bits [7:0]. -/
def bitAccWord (s : State) : Word := BitVec.ofNat 32 (256 * s.count.toNat + s.acc.toNat)

end Sys2Proof.Machine
end

