-- ==== Sys2Proof/Machine/Legality.lean ====
section
/-! DEFINITION. Which commands each state admits (46_sequencing.md rules R322 to R324). -/

namespace Sys2Proof.Machine

/-- HUFF k and ENCBLK k (rules R322, R323): in HEADER_WRITTEN or SCANNING, for the component due next, before the
last MCU is done. -/
def blockAdmitted (k : Comp) (s : State) : Bool :=
  (s.phase == .headerWritten || s.phase == .scanning) && k == s.nextComp && s.mcuDone.toNat < s.mcuTotal.toNat

/-- The legality table of rule R322. -/
def admitted (i : Instr) (s : State) : Bool :=
  match i with
  | .nop => true
  | .init => true
  | .header => s.phase == .initialized
  | .fdctq0 => s.phase != .idle && s.phase != .error
  | .fdctq1 => s.phase != .idle && s.phase != .error
  | .zigzag => s.phase != .error
  | .huffY => blockAdmitted .y s
  | .huffCb => blockAdmitted .cb s
  | .huffCr => blockAdmitted .cr s
  | .encblkY => blockAdmitted .y s
  | .encblkCb => blockAdmitted .cb s
  | .encblkCr => blockAdmitted .cr s
  | .finish => s.phase == .scanning && s.mcuDone == s.mcuTotal && s.nextComp == .y

end Sys2Proof.Machine
end

