-- ==== Sys2Proof/Machine/Ops.lean ====
section
/-! DEFINITION. The named operations over the buffers, the FIFO and the registers; rejecting a command (the block's
taking of an exception, 60_exceptions.md rules R410, R414), completing one, and the shared shape of a command's run
(46_sequencing.md rule R320). -/

namespace Sys2Proof.Machine

/-- A buffer's canonical form from index `lo` on: indexes strictly rising, from `lo`, below 64. -/
def Memory.wfFrom {w : Nat} : Nat → Buffer w → Bool
  | _, [] => true
  | lo, (i, _) :: rest => lo ≤ i && i < 64 && Memory.wfFrom (i + 1) rest

/-- A buffer's canonical form: indexes strictly rising and below 64. -/
def Memory.wf {w : Nat} (b : Buffer w) : Bool := Memory.wfFrom 0 b

/-- Entry i of a buffer; none if it was not written since reset (70_reset_and_hazards.md rule R441). -/
def bufRead {w : Nat} : Buffer w → Nat → Option (BitVec w)
  | [], _ => none
  | (j, v) :: rest, i => if j = i then some v else bufRead rest i

/-- Entry i <- v. -/
def bufWrite {w : Nat} : Buffer w → Nat → BitVec w → Buffer w
  | [], i, v => [(i, v)]
  | (j, x) :: rest, i, v =>
    if i < j then (i, v) :: (j, x) :: rest
    else if i = j then (i, v) :: rest
    else (j, x) :: bufWrite rest i v

/-- The n entries from index i on, or the index of the first unwritten one. -/
def bufReadFrom {w : Nat} (b : Buffer w) : (n : Nat) → Nat → Except Nat (Vector (BitVec w) n)
  | 0, _ => .ok #v[]
  | n + 1, i =>
    match bufRead b i with
    | none => .error i
    | some v =>
      match bufReadFrom b n (i + 1) with
      | .error j => .error j
      | .ok vs => .ok ⟨⟨v :: vs.toList⟩, by simp⟩

/-- All 64 entries, or the index of the first unwritten one (rule R441). -/
def bufReadAll {w : Nat} (b : Buffer w) : Except Nat (Block (BitVec w)) := bufReadFrom b 64 0

/-- A buffer with all 64 entries written. -/
def bufFill {w : Nat} (v : Block (BitVec w)) : Buffer w := (List.finRange 64).map fun i => (i.val, v[i])

/-- A dropped host write sets INT_STATUS.WOVR and nothing else (70_reset_and_hazards.md rule R450). -/
def setWovr (s : State) : State := { s with intStatus := s.intStatus ||| intWovr }

/-- Completion of a command, accepted or rejected: DONE <- 1, BUSY <- 0 (46_sequencing.md rule R320). -/
def complete (s : State) : State := { s with intStatus := s.intStatus ||| intDone, busy := false }

/-- The error record of a rejection outside ERROR (60_exceptions.md rules R410 to R412). -/
def recordError (e : CmdError) (s : State) : State :=
  { s with
    errCode := e.code
    errCmd := s.cmdLatch
    errDetail := e.detail
    phase := if e.entersError then .error else s.phase }

/-- INT_STATUS.ERR <- 1 (60_exceptions.md rule R410). -/
def setErr (s : State) : State := { s with intStatus := s.intStatus ||| intErr }

/-- Rejection of the running command with error e (60_exceptions.md rule R410): the record unless already in ERROR, ERR,
then completion. It is the block's taking of an exception (rule R414); the return from it is INIT. -/
def reject (e : CmdError) (s : State) : State :=
  if s.phase = .error then complete (setErr s) else complete (setErr (recordError e s))

/-- Why a command does not commit: it is rejected, or the model faults (70_reset_and_hazards.md rule R441). -/
inductive Stop where
  | reject (e : CmdError)
  | fault (f : Fault)
  deriving DecidableEq, Repr

/-- What a command's run comes to (46_sequencing.md rule R320): commit, rejection, or a model fault. -/
def settle (s : State) : Except Stop State → Host.Outcome State Fault Refusal
  | .ok t => .next (complete t)
  | .error (.reject e) => .next (reject e s)
  | .error (.fault f) => .fault f

/-- A legal command word at its core step: SEQUENCE_ERROR if the state does not admit it, else its own rule, `body`
(46_sequencing.md rule R320; the order is 60_exceptions.md rule R402's). -/
def runCommand (i : Instr) (s : State) (body : Except Stop State) : Host.Outcome State Fault Refusal :=
  if admitted i s then settle s body else .next (reject .sequenceError s)

/-- OUT_LEVEL (10_state.md rule R50). -/
def outLevel (s : State) : Nat := s.fifo.length

/-- Whether n more bytes fit the FIFO: n <= OUT_DEPTH - OUT_LEVEL (60_exceptions.md rule R400, OUT_OVERFLOW). The first test
follows from OUT_DEPTH >= 1024 (00_scope.md rule R7) and lets the answer be computed without knowing the parameter;
Laws/Ops.lean proves that the whole is outLevel + n <= OUT_DEPTH (log 6). -/
def fits (n : Nat) (s : State) : Bool :=
  decide (outLevel s + n ≤ 1024) || decide (outLevel s + n ≤ Config.outDepth)

/-- Bytes pushed at a command's commit: appended to the FIFO in order, OUT_TOTAL counts them modulo 2^32
(44_bitstream.md rule R265; 10_state.md rules R52, R71). -/
def pushBytes (bs : List Byte) (s : State) : State :=
  { s with fifo := s.fifo ++ bs, outTotal := s.outTotal + BitVec.ofNat 32 bs.length }

/-- Reset: every piece of the block's state takes its reset value, in one step (70_reset_and_hazards.md rule R440). The
environment's own fields are not the block's and stay (log 13). -/
def applyReset (s : State) : State :=
  { State.reset with agenda := s.agenda, replies := s.replies, draws := s.draws }

end Sys2Proof.Machine
end

