-- ==== Sys2Proof/Machine/Binary64.lean ====
section
/-! DEFINITION. IEEE 754 binary64 arithmetic on encodings, round to nearest, ties to even, one rounding per operation
(00_scope.md rule R10). Every finite value is a whole number of units of 2^-1074: an operation is computed exactly on those
whole numbers and rounded once at the end. -/

namespace Sys2Proof.Machine

/-- The exponent of a unit: the least positive binary64 value is 2^-1074. -/
def unitExp : Nat := 1074

/-- The encoding of infinity's magnitude. -/
def infBits : Nat := 0x7FF0000000000000

/-- The one encoding the model uses for NaN (DESIGN CHOICE, log 10; safe: no rule of the spec produces a NaN). -/
def nan64 : Binary64 := 0x7FF8000000000000

/-- The sign bit. -/
def isNeg (x : Binary64) : Bool := x.msb

/-- The encoding without its sign. -/
def magBits (x : Binary64) : Nat := x.toNat % 2 ^ 63

def isNaN (x : Binary64) : Bool := infBits < magBits x

def isInf (x : Binary64) : Bool := magBits x == infBits

def isFinite (x : Binary64) : Bool := magBits x < infBits

/-- A sign and a magnitude's encoding put together. -/
def withSign (neg : Bool) (bits : Nat) : Binary64 := BitVec.ofNat 64 ((if neg then 2 ^ 63 else 0) + bits)

/-- The magnitude of a finite value in units of 2^-1074: subnormals have no hidden bit. -/
def magUnits (x : Binary64) : Nat :=
  let e := magBits x >>> 52
  let f := magBits x % 2 ^ 52
  if e = 0 then f else (f + 2 ^ 52) <<< (e - 1)

/-- A finite value in units of 2^-1074. -/
def units (x : Binary64) : Int := if isNeg x then -(magUnits x : Int) else magUnits x

/-- The position of the highest 1 bit of n < 2^(2^k), by k halvings; 0 of 0. -/
def topBitFrom : (k : Nat) → Nat → Nat
  | 0, _ => 0
  | k + 1, n =>
    let h := 1 <<< k
    if n >>> h = 0 then topBitFrom k n else h + topBitFrom k (n >>> h)

/-- The position of the highest 1 bit of n < 2^4096, which every quotient here is. It is Nat.log2 (Laws/Binary64.lean), in a
form that computes in few steps. -/
def topBit (n : Nat) : Nat := topBitFrom 12 n

/-- The encoding of the magnitude nearest to num/den units, ties to even, den > 0. With a quotient below 2^53 nothing
is shifted out; above, e bits are. The encoding of q * 2^e units is e * 2^52 + q, a carry out of q included; beyond
the largest finite value it is infinity. -/
def roundMag (num den : Nat) : Nat :=
  let e := topBit (num / den) - 52
  let d := den <<< e
  let q := num / d
  let r := 2 * (num % d)
  let q' := if d < r ∨ (r = d ∧ q % 2 = 1) then q + 1 else q
  min (e <<< 52 + q') infBits

/-- A whole number of units rounded; an exact zero takes the sign given. -/
def roundUnits (zeroNeg : Bool) : Int → Binary64
  | .ofNat n => if n = 0 then withSign zeroNeg 0 else withSign false (roundMag n 1)
  | .negSucc n => withSign true (roundMag (n + 1) 1)

/-- -x -/
def neg64 (x : Binary64) : Binary64 := withSign (!isNeg x) (magBits x)

/-- fl(x + y). An exact zero sum is +0, but for two negative zeros. -/
def add64 (x y : Binary64) : Binary64 :=
  if isFinite x ∧ isFinite y then roundUnits (isNeg x && isNeg y) (units x + units y)
  else if isNaN x ∨ isNaN y then nan64
  else if isInf x ∧ isInf y then if isNeg x = isNeg y then x else nan64
  else if isInf x then x
  else y

/-- fl(x - y) -/
def sub64 (x y : Binary64) : Binary64 := add64 x (neg64 y)

/-- fl(x * y) -/
def mul64 (x y : Binary64) : Binary64 :=
  let neg := isNeg x != isNeg y
  if isFinite x ∧ isFinite y then withSign neg (roundMag (magUnits x * magUnits y) (2 ^ unitExp))
  else if isNaN x ∨ isNaN y ∨ magBits x = 0 ∨ magBits y = 0 then nan64
  else withSign neg infBits

/-- fl(x / y) -/
def div64 (x y : Binary64) : Binary64 :=
  let neg := isNeg x != isNeg y
  if isNaN x ∨ isNaN y ∨ (isInf x ∧ isInf y) ∨ (magBits x = 0 ∧ magBits y = 0) then nan64
  else if isInf x ∨ magBits y = 0 then withSign neg infBits
  else if isInf y then withSign neg 0
  else withSign neg (roundMag (magUnits x * 2 ^ unitExp) (magUnits y))

/-- An integer as the binary64 value nearest to it; exact below 2^53. -/
def ofInt64 (z : Int) : Binary64 := roundUnits false (z * 2 ^ unitExp)

/-- The binary64 value nearest to the decimal num/den (00_scope.md rule R10). -/
def ofDecimal (num den : Nat) : Binary64 := withSign false (roundMag (num * 2 ^ unitExp) den)

/-- x > 0, false of a NaN. -/
def isPos (x : Binary64) : Bool := !isNeg x && !isNaN x && magBits x != 0

/-- truncz(x), x rounded toward zero to an integer (00_scope.md rule R10); none for an infinity or a NaN. -/
def truncZ (x : Binary64) : Option Int :=
  if isFinite x then
    let m := magUnits x / 2 ^ unitExp
    some (if isNeg x then -(m : Int) else m)
  else none

end Sys2Proof.Machine
end

