-- ==== Sys2Proof/Machine/Rom.lean ====
section
/-! DEFINITION. The fixed ROM (48_rom_tables.md): zigzag permutation, base quantization matrices, Huffman specifications
and the code tables the canonical assignment (40_tables.md rule R152) makes of them; and the AAN scaling vector. -/

namespace Sys2Proof.Machine

/-- ZIGZAG, natural index to zigzag index (rule R381), row 0 first. -/
def zigzagList : List Nat :=
  [0, 1, 5, 6, 14, 15, 27, 28] ++
  [2, 4, 7, 13, 16, 26, 29, 42] ++
  [3, 8, 12, 17, 25, 30, 41, 43] ++
  [9, 11, 18, 24, 31, 40, 44, 53] ++
  [10, 19, 23, 32, 39, 45, 52, 54] ++
  [20, 22, 33, 38, 46, 51, 55, 60] ++
  [21, 34, 37, 47, 50, 56, 59, 61] ++
  [35, 36, 48, 49, 57, 58, 62, 63]

/-- UNZIGZAG, zigzag index to natural index (rule R381). -/
def unzigzagList : List Nat :=
  [0, 1, 8, 16, 9, 2, 3, 10] ++
  [17, 24, 32, 25, 18, 11, 4, 5] ++
  [12, 19, 26, 33, 40, 48, 41, 34] ++
  [27, 20, 13, 6, 7, 14, 21, 28] ++
  [35, 42, 49, 56, 57, 50, 43, 36] ++
  [29, 22, 15, 23, 30, 37, 44, 51] ++
  [58, 59, 52, 45, 38, 31, 39, 46] ++
  [53, 60, 61, 54, 47, 55, 62, 63]

/-- ZIGZAG[i] (rule R381). -/
def zigzag (i : Fin 64) : Fin 64 := ⟨zigzagList[i.val]'(by simp [zigzagList]) % 64, Nat.mod_lt _ (by decide)⟩

/-- UNZIGZAG[k] (rule R381). -/
def unzigzag (k : Fin 64) : Fin 64 := ⟨unzigzagList[k.val]'(by simp [unzigzagList]) % 64, Nat.mod_lt _ (by decide)⟩

/-- BASE[0], the luma base matrix, natural order (rule R382). -/
def baseLuma : List Nat :=
  [16, 11, 10, 16, 24, 40, 51, 61] ++
  [12, 12, 14, 19, 26, 58, 60, 55] ++
  [14, 13, 16, 24, 40, 57, 69, 56] ++
  [14, 17, 22, 29, 51, 87, 80, 62] ++
  [18, 22, 37, 56, 68, 109, 103, 77] ++
  [24, 35, 55, 64, 81, 104, 113, 92] ++
  [49, 64, 78, 87, 103, 121, 120, 101] ++
  [72, 92, 95, 98, 112, 100, 103, 99]

/-- BASE[1], the chroma base matrix, natural order (rule R382). -/
def baseChroma : List Nat :=
  [17, 18, 24, 47, 99, 99, 99, 99] ++
  [18, 21, 26, 66, 99, 99, 99, 99] ++
  [24, 26, 56, 99, 99, 99, 99, 99] ++
  [47, 66, 99, 99, 99, 99, 99, 99] ++
  [99, 99, 99, 99, 99, 99, 99, 99] ++
  [99, 99, 99, 99, 99, 99, 99, 99] ++
  [99, 99, 99, 99, 99, 99, 99, 99] ++
  [99, 99, 99, 99, 99, 99, 99, 99]

/-- BASE[c][i] (rule R382). -/
def base (c : TableClass) (i : Fin 64) : Nat :=
  match c with
  | .luma => baseLuma[i.val]'(by simp [baseLuma])
  | .chroma => baseChroma[i.val]'(by simp [baseChroma])

/-- A Huffman specification: the number of codes of each length 1 to 16, and the symbols in listed order. -/
structure HuffSpec where
  bits : List Nat
  vals : List Nat
  deriving DecidableEq, Repr

/-- DC table of class 0 (rule R383). -/
def dcLumaSpec : HuffSpec where
  bits := [0x00, 0x01, 0x05, 0x01, 0x01, 0x01, 0x01, 0x01, 0x01, 0x00, 0x00, 0x00, 0x00, 0x00, 0x00, 0x00]
  vals :=
    [0x00, 0x01, 0x02, 0x03, 0x04, 0x05, 0x06, 0x07, 0x08, 0x09, 0x0A, 0x0B]

/-- AC table of class 0 (rule R384). -/
def acLumaSpec : HuffSpec where
  bits := [0x00, 0x02, 0x01, 0x03, 0x03, 0x02, 0x04, 0x03, 0x05, 0x05, 0x04, 0x04, 0x00, 0x00, 0x01, 0x7D]
  vals :=
    [0x01, 0x02, 0x03, 0x00, 0x04, 0x11, 0x05, 0x12, 0x21, 0x31, 0x41, 0x06, 0x13, 0x51, 0x61, 0x07] ++
    [0x22, 0x71, 0x14, 0x32, 0x81, 0x91, 0xA1, 0x08, 0x23, 0x42, 0xB1, 0xC1, 0x15, 0x52, 0xD1, 0xF0] ++
    [0x24, 0x33, 0x62, 0x72, 0x82, 0x09, 0x0A, 0x16, 0x17, 0x18, 0x19, 0x1A, 0x25, 0x26, 0x27, 0x28] ++
    [0x29, 0x2A, 0x34, 0x35, 0x36, 0x37, 0x38, 0x39, 0x3A, 0x43, 0x44, 0x45, 0x46, 0x47, 0x48, 0x49] ++
    [0x4A, 0x53, 0x54, 0x55, 0x56, 0x57, 0x58, 0x59, 0x5A, 0x63, 0x64, 0x65, 0x66, 0x67, 0x68, 0x69] ++
    [0x6A, 0x73, 0x74, 0x75, 0x76, 0x77, 0x78, 0x79, 0x7A, 0x83, 0x84, 0x85, 0x86, 0x87, 0x88, 0x89] ++
    [0x8A, 0x92, 0x93, 0x94, 0x95, 0x96, 0x97, 0x98, 0x99, 0x9A, 0xA2, 0xA3, 0xA4, 0xA5, 0xA6, 0xA7] ++
    [0xA8, 0xA9, 0xAA, 0xB2, 0xB3, 0xB4, 0xB5, 0xB6, 0xB7, 0xB8, 0xB9, 0xBA, 0xC2, 0xC3, 0xC4, 0xC5] ++
    [0xC6, 0xC7, 0xC8, 0xC9, 0xCA, 0xD2, 0xD3, 0xD4, 0xD5, 0xD6, 0xD7, 0xD8, 0xD9, 0xDA, 0xE1, 0xE2] ++
    [0xE3, 0xE4, 0xE5, 0xE6, 0xE7, 0xE8, 0xE9, 0xEA, 0xF1, 0xF2, 0xF3, 0xF4, 0xF5, 0xF6, 0xF7, 0xF8] ++
    [0xF9, 0xFA]

/-- DC table of class 1 (rule R385). -/
def dcChromaSpec : HuffSpec where
  bits := [0x00, 0x03, 0x01, 0x01, 0x01, 0x01, 0x01, 0x01, 0x01, 0x01, 0x01, 0x00, 0x00, 0x00, 0x00, 0x00]
  vals :=
    [0x00, 0x01, 0x02, 0x03, 0x04, 0x05, 0x06, 0x07, 0x08, 0x09, 0x0A, 0x0B]

/-- AC table of class 1 (rule R385). -/
def acChromaSpec : HuffSpec where
  bits := [0x00, 0x02, 0x01, 0x02, 0x04, 0x04, 0x03, 0x04, 0x07, 0x05, 0x04, 0x04, 0x00, 0x01, 0x02, 0x77]
  vals :=
    [0x00, 0x01, 0x02, 0x03, 0x11, 0x04, 0x05, 0x21, 0x31, 0x06, 0x12, 0x41, 0x51, 0x07, 0x61, 0x71] ++
    [0x13, 0x22, 0x32, 0x81, 0x08, 0x14, 0x42, 0x91, 0xA1, 0xB1, 0xC1, 0x09, 0x23, 0x33, 0x52, 0xF0] ++
    [0x15, 0x62, 0x72, 0xD1, 0x0A, 0x16, 0x24, 0x34, 0xE1, 0x25, 0xF1, 0x17, 0x18, 0x19, 0x1A, 0x26] ++
    [0x27, 0x28, 0x29, 0x2A, 0x35, 0x36, 0x37, 0x38, 0x39, 0x3A, 0x43, 0x44, 0x45, 0x46, 0x47, 0x48] ++
    [0x49, 0x4A, 0x53, 0x54, 0x55, 0x56, 0x57, 0x58, 0x59, 0x5A, 0x63, 0x64, 0x65, 0x66, 0x67, 0x68] ++
    [0x69, 0x6A, 0x73, 0x74, 0x75, 0x76, 0x77, 0x78, 0x79, 0x7A, 0x82, 0x83, 0x84, 0x85, 0x86, 0x87] ++
    [0x88, 0x89, 0x8A, 0x92, 0x93, 0x94, 0x95, 0x96, 0x97, 0x98, 0x99, 0x9A, 0xA2, 0xA3, 0xA4, 0xA5] ++
    [0xA6, 0xA7, 0xA8, 0xA9, 0xAA, 0xB2, 0xB3, 0xB4, 0xB5, 0xB6, 0xB7, 0xB8, 0xB9, 0xBA, 0xC2, 0xC3] ++
    [0xC4, 0xC5, 0xC6, 0xC7, 0xC8, 0xC9, 0xCA, 0xD2, 0xD3, 0xD4, 0xD5, 0xD6, 0xD7, 0xD8, 0xD9, 0xDA] ++
    [0xE2, 0xE3, 0xE4, 0xE5, 0xE6, 0xE7, 0xE8, 0xE9, 0xEA, 0xF2, 0xF3, 0xF4, 0xF5, 0xF6, 0xF7, 0xF8] ++
    [0xF9, 0xFA]

/-- A code: `len` bits, the number `code`, emitted most significant bit first (00_scope.md rule R13). -/
structure Code where
  code : Nat
  len : Nat
  deriving DecidableEq, Repr

/-- The canonical code assignment (40_tables.md rule R152) from length `len` on: the next `n` symbols take consecutive codes
of that length, then the running code is shifted left by one. -/
def assignCodes : (len code : Nat) → (bits vals : List Nat) → List (Nat × Code)
  | _, _, [], _ => []
  | len, code, n :: bits, vals =>
    ((vals.take n).zipIdx.map fun p => (p.1, ⟨code + p.2, len⟩)) ++
      assignCodes (len + 1) (2 * (code + n)) bits (vals.drop n)

/-- The code table of a specification: symbol to code (rule R152). -/
def codeTable (h : HuffSpec) : List (Nat × Code) := assignCodes 1 0 h.bits h.vals

/-- HT_DC[c]'s specification (10_state.md rule R73). -/
def dcSpec : TableClass → HuffSpec
  | .luma => dcLumaSpec
  | .chroma => dcChromaSpec

/-- HT_AC[c]'s specification (10_state.md rule R73). -/
def acSpec : TableClass → HuffSpec
  | .luma => acLumaSpec
  | .chroma => acChromaSpec

/-- HT_DC[c] (rules R387, R388). -/
def htDc (c : TableClass) : List (Nat × Code) := codeTable (dcSpec c)

/-- HT_AC[c] (rules R389, R390). -/
def htAc (c : TableClass) : List (Nat × Code) := codeTable (acSpec c)

/-- HT[s]. A symbol the coder never looks up has no code; nothing is emitted for it (44_bitstream.md rule R261's
Emit(code, 0)); log 14. -/
def codeOf (t : List (Nat × Code)) (sym : Nat) : Code := (t.lookup sym).getD ⟨0, 0⟩

/-- AASF, the AAN scaling vector (40_tables.md rule R157). -/
def aasf : Fin 8 → Binary64
  | 0 => ofDecimal 1 1
  | 1 => ofDecimal 1387039845 1000000000
  | 2 => ofDecimal 1306562965 1000000000
  | 3 => ofDecimal 1175875602 1000000000
  | 4 => ofDecimal 1 1
  | 5 => ofDecimal 785694958 1000000000
  | 6 => ofDecimal 541196100 1000000000
  | 7 => ofDecimal 275899379 1000000000

/-- row(i) = i >> 3 (00_scope.md rule R12). -/
def rowOf (i : Fin 64) : Fin 8 := ⟨i.val / 8, by omega⟩

/-- col(i) = i & 7 (00_scope.md rule R12). -/
def colOf (i : Fin 64) : Fin 8 := ⟨i.val % 8, by omega⟩

end Sys2Proof.Machine
end

