-- ==== Sys2Proof/Machine/BitWriter.lean ====
section
/-! DEFINITION. The bit writer with byte stuffing (44_bitstream.md). -/

namespace Sys2Proof.Machine

/-- A running command's copy of the bit accumulator and its pending bytes (rule R260). -/
structure BitWriter where
  acc : Byte
  count : BitVec 3
  pending : List Byte
  deriving DecidableEq, Repr

/-- The copy a command starts from (rule R260). -/
def writerOf (s : State) : BitWriter := ⟨s.acc, s.count, []⟩

/-- PushByte (rule R265). -/
def pushByte (b : Byte) (w : BitWriter) : BitWriter := { w with pending := w.pending ++ [b] }

/-- CompleteByte (rule R262): an 0xFF is followed by the stuffing byte 0x00. -/
def completeByte (b : Byte) (w : BitWriter) : BitWriter :=
  if b = 0xFF then pushByte 0x00 (pushByte b w) else pushByte b w

/-- One bit emitted (rule R261). -/
def emitBit (w : BitWriter) (bit : Bool) : BitWriter :=
  let acc := w.acc ||| (BitVec.ofNat 8 bit.toNat <<< (7 - w.count.toNat))
  if w.count = 7 then { completeByte acc w with acc := 0, count := 0 }
  else { w with acc := acc, count := w.count + 1 }

/-- The low `len` bits of `code`, most significant first (rule R261). -/
def codeBits (code : Nat) : (len : Nat) → List Bool
  | 0 => []
  | n + 1 => code.testBit n :: codeBits code n

/-- Emit(code, len) (rule R261). -/
def emit (w : BitWriter) (c : Code) : BitWriter := (codeBits c.code c.len).foldl emitBit w

/-- Emits in order. -/
def emitAll (w : BitWriter) (cs : List Code) : BitWriter := cs.foldl emit w

/-- PadToByte (rule R264): the rest of a partial byte is filled with 1-bits. -/
def padToByte (w : BitWriter) : BitWriter :=
  if w.count = 0 then w else emit w ⟨2 ^ (8 - w.count.toNat) - 1, 8 - w.count.toNat⟩

/-- The commit of a bit-writing command: BITACC, FIFO, OUT_LEVEL, OUT_TOTAL (rules R260, R265). -/
def commitWriter (w : BitWriter) (s : State) : State := pushBytes w.pending { s with acc := w.acc, count := w.count }

end Sys2Proof.Machine
end

