-- ==== Sys2Proof/Machine/Container.lean ====
section
/-! DEFINITION. The JPEG marker container: HEADER and FINISH (45_container.md). -/

namespace Sys2Proof.Machine

/-- A list of numbers below 256 as bytes. -/
def bytesOf (l : List Nat) : List Byte := l.map (BitVec.ofNat 8)

/-- A 16-bit field, most significant byte first (20_memory.md rule R96). -/
def bigEndian16 (v : BitVec 16) : List Byte := [v.extractLsb' 8 8, v.extractLsb' 0 8]

/-- SOI (rule R280). -/
def soiBytes : List Byte := bytesOf [0xFF, 0xD8]

/-- EOI (rule R280). -/
def eoiBytes : List Byte := bytesOf [0xFF, 0xD9]

/-- APP0 (rule R282). -/
def app0Bytes : List Byte :=
  bytesOf
    ([0xFF, 0xE0, 0x00, 0x10] ++ [0x4A, 0x46, 0x49, 0x46, 0x00] ++ [0x01, 0x01] ++ [0x00] ++ [0x00, 0x01] ++
      [0x00, 0x01] ++ [0x00, 0x00])

/-- DQT (rule R283). -/
def dqtBytes (qt0 qt1 : Block Byte) : List Byte :=
  bytesOf [0xFF, 0xDB, 0x00, 0x84, 0x00] ++ qt0.toList ++ bytesOf [0x01] ++ qt1.toList

/-- SOF0 (rule R284): height precedes width. -/
def sof0Bytes (w h : BitVec 16) : List Byte :=
  bytesOf [0xFF, 0xC0, 0x00, 0x11, 0x08] ++ bigEndian16 h ++ bigEndian16 w ++ bytesOf [0x03] ++
    bytesOf ([0x01, 0x11, 0x00] ++ [0x02, 0x11, 0x01] ++ [0x03, 0x11, 0x01])

/-- One table of DHT: the byte (Tc << 4) | Th, the counts, the symbols (rule R285). -/
def dhtTable (tcTh : Nat) (h : HuffSpec) : List Byte := bytesOf (tcTh :: (h.bits ++ h.vals))

/-- DHT (rule R285). -/
def dhtBytes : List Byte :=
  bytesOf [0xFF, 0xC4, 0x01, 0xA2] ++ dhtTable 0x00 dcLumaSpec ++ dhtTable 0x10 acLumaSpec ++
    dhtTable 0x01 dcChromaSpec ++ dhtTable 0x11 acChromaSpec

/-- SOS (rule R286). -/
def sosBytes : List Byte :=
  bytesOf
    ([0xFF, 0xDA, 0x00, 0x0C, 0x03] ++ [0x01, 0x00] ++ [0x02, 0x11] ++ [0x03, 0x11] ++ [0x00, 0x3F, 0x00])

/-- The header, SOI through SOS (rule R287). -/
def headerBytes (qt0 qt1 : Block Byte) (w h : BitVec 16) : List Byte :=
  soiBytes ++ app0Bytes ++ dqtBytes qt0 qt1 ++ sof0Bytes w h ++ dhtBytes ++ sosBytes

/-- The number of 8x8 blocks covering an image (46_sequencing.md rule R325). -/
def mcuCount (w h : BitVec 16) : Nat := ((w.toNat + 7) >>> 3) * ((h.toNat + 7) >>> 3)

/-- HEADER's effect (rule R290). -/
def headerBody (s : State) : Except Stop State :=
  if s.width = 0 ∨ s.height = 0 then .error (.reject (.invalidInput (s.width == 0) (s.height == 0)))
  else
    let bytes := headerBytes s.qt0 s.qt1 s.width s.height
    if fits bytes.length s then
      .ok { pushBytes bytes s with
        mcuTotal := BitVec.ofNat 32 (mcuCount s.width s.height)
        phase := .headerWritten }
    else .error (.reject (.outOverflow bytes.length))

/-- HEADER (rule R290). -/
def execHeader (s : State) : Host.Outcome State Fault Refusal := runCommand .header s (headerBody s)

/-- What FINISH writes: the padding, then EOI, which is not stuffed (rule R295). -/
def finishWriter (s : State) : BitWriter :=
  let w := padToByte (writerOf s)
  { w with pending := w.pending ++ eoiBytes }

/-- FINISH's effect (rule R295). -/
def finishBody (s : State) : Except Stop State :=
  let w := finishWriter s
  if fits w.pending.length s then .ok { commitWriter w s with phase := .finalized }
  else .error (.reject (.outOverflow w.pending.length))

/-- FINISH (rule R295). -/
def execFinish (s : State) : Host.Outcome State Fault Refusal := runCommand .finish s (finishBody s)

end Sys2Proof.Machine
end

