-- ==== Sys2Proof/Machine/Entropy.lean ====
section
/-! DEFINITION. The Huffman entropy coder and HUFF (43_entropy.md). -/

namespace Sys2Proof.Machine

/-- cat(v), the number of bits of |v| (rule R220). -/
def cat (v : Int) : Nat := if v = 0 then 0 else Nat.log2 v.natAbs + 1

/-- mag(v), the magnitude bits of a nonzero v as a cat(v)-bit number (rule R221). -/
def mag (v : Int) : Nat := if 0 < v then v.toNat else (v + 2 ^ cat v - 1).toNat

/-- DC coding of component k (rule R222). -/
def dcCodes (k : Comp) (zz0 pred : BitVec 16) : Except CmdError (List Code) :=
  let diff := zz0.toInt - pred.toInt
  let table := htDc (classOf k)
  if diff = 0 then .ok [codeOf table 0]
  else
    let s := cat diff
    if 11 < s then .error (.fatalInvariant 0 s k)
    else .ok [codeOf table s, ⟨mag diff, s⟩]

/-- The end of block position among the AC entries given (rule R224): the highest position, counted from 1, of a nonzero
one; 0 if there is none. -/
def endPos : List (BitVec 16) → Nat
  | [] => 0
  | v :: vs =>
    let e := endPos vs
    if e ≠ 0 then e + 1 else if v ≠ 0 then 1 else 0

/-- The run-length walk (rule R225) over the entries from position j on, `run` zeros before them. -/
def acWalk (k : Comp) : (j run : Nat) → List (BitVec 16) → Except CmdError (List Code)
  | _, _, [] => .ok []
  | j, run, v :: vs =>
    if v = 0 then acWalk k (j + 1) (run + 1) vs
    else
      let table := htAc (classOf k)
      let s := cat v.toInt
      if 10 < s then .error (.fatalInvariant j s k)
      else
        match acWalk k (j + 1) 0 vs with
        | .error e => .error e
        | .ok cs =>
          .ok (List.replicate (run / 16) (codeOf table 0xF0) ++
            codeOf table (16 * (run % 16) + s) :: ⟨mag v.toInt, s⟩ :: cs)

/-- AC coding (rules R224, R225): the walk up to the last nonzero entry, then EOB unless that is position 63. -/
def acCodes (k : Comp) (ac : List (BitVec 16)) : Except CmdError (List Code) :=
  let end0 := endPos ac
  match acWalk k 1 0 (ac.take end0) with
  | .error e => .error e
  | .ok cs => .ok (if end0 = 63 then cs else cs ++ [codeOf (htAc (classOf k)) 0x00])

/-- What HUFF k emits for a block, DC then AC (rule R230). -/
def blockCodes (k : Comp) (zz : Block (BitVec 16)) (pred : BitVec 16) : Except CmdError (List Code) :=
  match dcCodes k zz[0] pred with
  | .error e => .error e
  | .ok dc =>
    match acCodes k (zz.toList.drop 1) with
    | .error e => .error e
    | .ok ac => .ok (dc ++ ac)

/-- Sequencing advance when a block of component k commits (46_sequencing.md rule R326). -/
def advance (k : Comp) (s : State) : State :=
  match k with
  | .y => { s with phase := .scanning, nextComp := .cb }
  | .cb => { s with phase := .scanning, nextComp := .cr }
  | .cr => { s with phase := .scanning, nextComp := .y, mcuDone := s.mcuDone + 1 }

/-- The coding of a block and its commit (rule R230), but for the completion. -/
def codeBlock (k : Comp) (zz : Block (BitVec 16)) (s : State) : Except Stop State :=
  match blockCodes k zz (predOf k s) with
  | .error e => .error (.reject e)
  | .ok codes =>
    let w := emitAll (writerOf s) codes
    if fits w.pending.length s then .ok (advance k (setPred k zz[0] (commitWriter w s)))
    else .error (.reject (.outOverflow w.pending.length))

/-- HUFF k's effect (rule R230): a model fault if a ZZ entry was never written (70_reset_and_hazards.md rule R441). -/
def huffBody (k : Comp) (s : State) : Except Stop State :=
  match bufReadAll s.zz with
  | .error i => .error (.fault (.commandReadUnwritten .zz i))
  | .ok zz => codeBlock k zz s

/-- HUFF Y (rule R230). -/
def execHuffY (s : State) : Host.Outcome State Fault Refusal := runCommand .huffY s (huffBody .y s)

/-- HUFF CB (rule R230). -/
def execHuffCb (s : State) : Host.Outcome State Fault Refusal := runCommand .huffCb s (huffBody .cb s)

/-- HUFF CR (rule R230). -/
def execHuffCr (s : State) : Host.Outcome State Fault Refusal := runCommand .huffCr s (huffBody .cr s)

end Sys2Proof.Machine
end

