-- ==== Sys2Proof/Machine/Reorder.lean ====
section
/-! DEFINITION. The zigzag reorder and ZIGZAG (42_zigzag.md). -/

namespace Sys2Proof.Machine

/-- ZZ[k] = COEF[UNZIGZAG[k]] (rule R210). -/
def zigzagBlock (coef : Block (BitVec 16)) : Block (BitVec 16) := tabulate fun k => coef[unzigzag k]

/-- ZIGZAG's effect (rule R210): a model fault if a COEF entry was never written (70_reset_and_hazards.md rule R441). -/
def zigzagBody (s : State) : Except Stop State :=
  match bufReadAll s.coef with
  | .error i => .error (.fault (.commandReadUnwritten .coef i))
  | .ok x => .ok { s with zz := bufFill (zigzagBlock x) }

/-- ZIGZAG (rule R210). -/
def execZigzag (s : State) : Host.Outcome State Fault Refusal := runCommand .zigzag s (zigzagBody s)

end Sys2Proof.Machine
end

