-- ==== Sys2Proof/Machine/Transform.lean ====
section
/-! DEFINITION. The forward DCT, the quantizer and FDCTQ (41_fdct_quant.md). -/

namespace Sys2Proof.Machine

/-- Eight values: a row or a column of a block, a butterfly's inputs or outputs. -/
structure Vec8 where
  d0 : Binary64
  d1 : Binary64
  d2 : Binary64
  d3 : Binary64
  d4 : Binary64
  d5 : Binary64
  d6 : Binary64
  d7 : Binary64
  deriving DecidableEq, Repr

/-- Entry j of eight. -/
def vecGet (v : Vec8) : Fin 8 → Binary64
  | 0 => v.d0
  | 1 => v.d1
  | 2 => v.d2
  | 3 => v.d3
  | 4 => v.d4
  | 5 => v.d5
  | 6 => v.d6
  | 7 => v.d7

/-- Eight values by index. -/
def vecOf (f : Fin 8 → Binary64) : Vec8 := ⟨f 0, f 1, f 2, f 3, f 4, f 5, f 6, f 7⟩

/-- C4, C6, C2mC6 and C2pC6 (rule R180). -/
def constC4 : Binary64 := ofDecimal 707106781 1000000000
def constC6 : Binary64 := ofDecimal 382683433 1000000000
def constC2mC6 : Binary64 := ofDecimal 541196100 1000000000
def constC2pC6 : Binary64 := ofDecimal 1306562965 1000000000

/-- Butterfly8 (rule R180), line by line. -/
def butterfly8 (d : Vec8) : Vec8 :=
  let tmp0 := add64 d.d0 d.d7
  let tmp7 := sub64 d.d0 d.d7
  let tmp1 := add64 d.d1 d.d6
  let tmp6 := sub64 d.d1 d.d6
  let tmp2 := add64 d.d2 d.d5
  let tmp5 := sub64 d.d2 d.d5
  let tmp3 := add64 d.d3 d.d4
  let tmp4 := sub64 d.d3 d.d4
  let tmp10 := add64 tmp0 tmp3
  let tmp13 := sub64 tmp0 tmp3
  let tmp11 := add64 tmp1 tmp2
  let tmp12 := sub64 tmp1 tmp2
  let z1 := mul64 (add64 tmp12 tmp13) constC4
  let t10 := add64 tmp4 tmp5
  let t11 := add64 tmp5 tmp6
  let t12 := add64 tmp6 tmp7
  let z5 := mul64 (sub64 t10 t12) constC6
  let z2 := add64 (mul64 constC2mC6 t10) z5
  let z4 := add64 (mul64 constC2pC6 t12) z5
  let z3 := mul64 t11 constC4
  let z11 := add64 tmp7 z3
  let z13 := sub64 tmp7 z3
  { d0 := add64 tmp10 tmp11
    d1 := add64 z11 z4
    d2 := add64 tmp13 z1
    d3 := sub64 z13 z2
    d4 := sub64 tmp10 tmp11
    d5 := add64 z13 z2
    d6 := sub64 tmp13 z1
    d7 := sub64 z11 z4 }

/-- The natural index of row r, column c (00_scope.md rule R12). -/
def natIndex (r c : Fin 8) : Fin 64 := ⟨8 * r.val + c.val, by omega⟩

/-- Row r of a block. -/
def rowVec (D : Block Binary64) (r : Fin 8) : Vec8 := vecOf fun c => D[natIndex r c]

/-- Column c of a block. -/
def colVec (D : Block Binary64) (c : Fin 8) : Vec8 := vecOf fun r => D[natIndex r c]

/-- The row pass (rule R181): each row is replaced by its butterfly. -/
def rowPass (D : Block Binary64) : Block Binary64 :=
  let rows : Vector Vec8 8 := tabulate fun r => butterfly8 (rowVec D r)
  tabulate fun i => vecGet rows[rowOf i] (colOf i)

/-- The column pass (rule R182): each column is replaced by its butterfly. -/
def colPass (D : Block Binary64) : Block Binary64 :=
  let cols : Vector Vec8 8 := tabulate fun c => butterfly8 (colVec D c)
  tabulate fun i => vecGet cols[colOf i] (rowOf i)

/-- The unnormalised coefficients of a sample block (rules R181, R182). -/
def dct8x8 (x : Block Byte) : Block Binary64 := colPass (rowPass (tabulate fun i => ofInt64 x[i].toInt))

/-- The value RoundHalfAway truncates (rule R184): fl(x + 0.5) for positive x, else fl(x - 0.5). -/
def halfAway (x : Binary64) : Binary64 :=
  if isPos x then add64 x (ofDecimal 1 2) else sub64 x (ofDecimal 1 2)

/-- RoundHalfAway (rule R184); none for an infinity or a NaN. -/
def roundHalfAway (x : Binary64) : Option Int := truncZ (halfAway x)

/-- The int16 entry for a scaled coefficient (rule R183). Rule R185 says every result fits; for one that does not, the
spec states nothing, and the entry is a free value (log 8). -/
def coefEntry (x : Binary64) : BitVec 16 :=
  match roundHalfAway x with
  | some z => if -32768 ≤ z ∧ z ≤ 32767 then BitVec.ofInt 16 z else Config.coefUnstated x
  | none => Config.coefUnstated x

/-- FDCTQ's result: COEF[i] = RoundHalfAway(fl(D[i] * FS[c][i])) (rule R190). -/
def fdctqResult (x : Block Byte) (fs : Block Binary64) : Block (BitVec 16) :=
  let D := dct8x8 x
  tabulate fun i => coefEntry (mul64 D[i] fs[i])

/-- FDCTQ c's effect (rule R190): a model fault if a SAMPLE entry was never written (70_reset_and_hazards.md rule R441). -/
def fdctqBody (c : TableClass) (s : State) : Except Stop State :=
  match bufReadAll s.sample with
  | .error i => .error (.fault (.commandReadUnwritten .sample i))
  | .ok x => .ok { s with coef := bufFill (fdctqResult x (fsOf c s)) }

/-- FDCTQ 0 (rule R190). -/
def execFdctq0 (s : State) : Host.Outcome State Fault Refusal := runCommand .fdctq0 s (fdctqBody .luma s)

/-- FDCTQ 1 (rule R190). -/
def execFdctq1 (s : State) : Host.Outcome State Fault Refusal := runCommand .fdctq1 s (fdctqBody .chroma s)

end Sys2Proof.Machine
end

