-- ==== Sys2Proof/Machine/Sequencing.lean ====
section
/-! DEFINITION. NOP and ENCBLK (46_sequencing.md). -/

namespace Sys2Proof.Machine

/-- NOP (rule R330): no effect but the completion. -/
def execNop (s : State) : Host.Outcome State Fault Refusal := runCommand .nop s (.ok s)

/-- ENCBLK k's effect (rule R331): FDCTQ and ZIGZAG on copies, then HUFF k on the copy; COEF and ZZ are committed only
with it. A model fault if a SAMPLE entry was never written (70_reset_and_hazards.md rule R441). -/
def encblkBody (k : Comp) (s : State) : Except Stop State :=
  match bufReadAll s.sample with
  | .error i => .error (.fault (.commandReadUnwritten .sample i))
  | .ok x =>
    let coef := fdctqResult x (fsOf (classOf k) s)
    let zz := zigzagBlock coef
    match codeBlock k zz s with
    | .error e => .error e
    | .ok t => .ok { t with coef := bufFill coef, zz := bufFill zz }

/-- ENCBLK Y (rule R331). -/
def execEncblkY (s : State) : Host.Outcome State Fault Refusal := runCommand .encblkY s (encblkBody .y s)

/-- ENCBLK CB (rule R331). -/
def execEncblkCb (s : State) : Host.Outcome State Fault Refusal := runCommand .encblkCb s (encblkBody .cb s)

/-- ENCBLK CR (rule R331). -/
def execEncblkCr (s : State) : Host.Outcome State Fault Refusal := runCommand .encblkCr s (encblkBody .cr s)

end Sys2Proof.Machine
end

