-- ==== Sys2Proof/Machine/Tables.lean ====
section
/-! DEFINITION. The Table Builder and INIT (40_tables.md). -/

namespace Sys2Proof.Machine

/-- ScaleFactor(q) (rule R151), for q in 1..100; a free value for a quality the register never holds (log 9). -/
def scaleFactor (q : BitVec 7) : BitVec 13 :=
  if 1 ≤ q.toNat ∧ q.toNat < 50 then BitVec.ofNat 13 (5000 / q.toNat)
  else if 50 ≤ q.toNat ∧ q.toNat ≤ 100 then BitVec.ofNat 13 (200 - 2 * q.toNat)
  else Config.scaleUnstated q

/-- clamp(x, lo, hi) (00_scope.md rule R9). -/
def clampNat (x lo hi : Nat) : Nat := if x < lo then lo else if hi < x then hi else x

/-- The quantizer computed from a base entry (rule R154). -/
def quantEntry (b sf : Nat) : Byte := BitVec.ofNat 8 (clampNat ((b * sf + 50) / 100) 1 255)

/-- QuantTable(c, sf) (rule R154): the entry of natural index i stands at zigzag index ZIGZAG[i]. -/
def quantTable (c : TableClass) (sf : Nat) : Block Byte := tabulate fun k => quantEntry (base c (unzigzag k)) sf

/-- One entry of ScaleTable (rule R156), in the written order, one rounding an operation. -/
def scaleEntry (q : Byte) (i : Fin 64) : Binary64 :=
  let m1 := mul64 (ofInt64 q.toNat) (aasf (rowOf i))
  let m2 := mul64 m1 (aasf (colOf i))
  let m3 := mul64 m2 (ofInt64 8)
  div64 (ofInt64 1) m3

/-- ScaleTable(QT[c]) (rule R156), natural order. -/
def scaleTable (qt : Block Byte) : Block Binary64 := tabulate fun i => scaleEntry qt[zigzag i] i

/-- INIT's effect (rule R150). -/
def initState (s : State) : State :=
  let sf := scaleFactor s.quality
  let q0 := quantTable .luma sf.toNat
  let q1 := quantTable .chroma sf.toNat
  { s with
    qt0 := q0
    qt1 := q1
    fs0 := scaleTable q0
    fs1 := scaleTable q1
    scale := sf
    predY := 0
    predCb := 0
    predCr := 0
    acc := 0
    count := 0
    fifo := []
    outTotal := 0
    mcuTotal := 0
    mcuDone := 0
    nextComp := .y
    errCode := .none
    errCmd := 0
    errDetail := 0
    phase := .initialized }

/-- INIT (rule R150). -/
def execInit (s : State) : Host.Outcome State Fault Refusal := runCommand .init s (.ok (initState s))

end Sys2Proof.Machine
end

