-- ==== Sys2Proof/Machine/Dispatch.lean ====
section
/-! DEFINITION. The dispatch: one arm per command, each the direct call of its meaning. -/

namespace Sys2Proof.Machine

/-- The effect of a legal command at its core step (46_sequencing.md rule R320): its meaning checks the state, commits
or rejects, and completes. -/
def exec (i : Instr) (s : State) : Host.Outcome State Fault Refusal :=
  match i with
  | .nop => Sys2Proof.Machine.execNop s
  | .init => Sys2Proof.Machine.execInit s
  | .header => Sys2Proof.Machine.execHeader s
  | .fdctq0 => Sys2Proof.Machine.execFdctq0 s
  | .fdctq1 => Sys2Proof.Machine.execFdctq1 s
  | .zigzag => Sys2Proof.Machine.execZigzag s
  | .huffY => Sys2Proof.Machine.execHuffY s
  | .huffCb => Sys2Proof.Machine.execHuffCb s
  | .huffCr => Sys2Proof.Machine.execHuffCr s
  | .encblkY => Sys2Proof.Machine.execEncblkY s
  | .encblkCb => Sys2Proof.Machine.execEncblkCb s
  | .encblkCr => Sys2Proof.Machine.execEncblkCr s
  | .finish => Sys2Proof.Machine.execFinish s

end Sys2Proof.Machine
end

