-- ==== Sys2Proof/Machine/HostPort.lean ====
section
/-! DEFINITION. The register window: the host's reads and writes (10_state.md, 20_memory.md, 70_reset_and_hazards.md
rules R450 to R452). -/

namespace Sys2Proof.Machine

/-- The registers of the window, in the order of their offsets from 0x000 (10_state.md rule R33). -/
inductive Reg where
  | id | version | status | cmd | quality | width | height | scale | intStatus | intEnable | errCmd | errDetail
  | predY | predCb | predCr | bitAcc | mcuTotal | mcuDone | outLevel | outData | outTotal | outDepth
  deriving DecidableEq, Repr

/-- What stands at a word of the window (10_state.md rule R33). -/
inductive Loc where
  | reg (r : Reg)
  | sample (i : Nat)
  | coef (i : Nat)
  | zz (k : Nat)
  | qt (c : TableClass) (k : Fin 64)
  /-- Reads 0, ignores writes (20_memory.md rule R93). -/
  | reserved
  deriving DecidableEq, Repr

/-- The registers by word number: the register of offset 4n is entry n (10_state.md rule R33). -/
def regList : List Reg :=
  [.id, .version, .status, .cmd, .quality, .width, .height, .scale] ++
  [.intStatus, .intEnable, .errCmd, .errDetail, .predY, .predCb, .predCr, .bitAcc] ++
  [.mcuTotal, .mcuDone, .outLevel, .outData, .outTotal, .outDepth]

/-- The window's map (10_state.md rule R33): entry n of a buffer whose base is B is at B + 4n. -/
def locate (off : Nat) : Loc :=
  let n := off / 4
  let j : Fin 64 := ⟨n % 64, Nat.mod_lt _ (by decide)⟩
  match n / 64 with
  | 0 =>
    match regList[n]? with
    | some r => .reg r
    | none => .reserved
  | 1 => .sample j.val
  | 2 => .coef j.val
  | 3 => .zz j.val
  | 4 => .qt .luma j
  | 5 => .qt .chroma j
  | _ => .reserved

/-- The accesses that are part of the interface: 32 bits, word aligned, in the window (20_memory.md rules R91, R92). -/
def inInterface (off bytes : Nat) : Bool := bytes == 4 && off % 4 == 0 && off ≤ 0xFFC

/-- A register's value as read while BUSY = 0 (10_state.md rules R34 to R53). OUT_DATA is not here: reading it pops. -/
def regValue (s : State) : Reg → Word
  | .id => 0x4A504547
  | .version => 1
  | .status => statusWord s
  | .cmd => 0
  | .quality => s.quality.setWidth 32
  | .width => s.width.setWidth 32
  | .height => s.height.setWidth 32
  | .scale => s.scale.setWidth 32
  | .intStatus => s.intStatus.setWidth 32
  | .intEnable => s.intEnable.setWidth 32
  | .errCmd => s.errCmd
  | .errDetail => s.errDetail
  | .predY => s.predY.signExtend 32
  | .predCb => s.predCb.signExtend 32
  | .predCr => s.predCr.signExtend 32
  | .bitAcc => bitAccWord s
  | .mcuTotal => s.mcuTotal
  | .mcuDone => s.mcuDone
  | .outLevel => BitVec.ofNat 32 (outLevel s)
  | .outData => 0
  | .outTotal => s.outTotal
  | .outDepth => BitVec.ofNat 32 Config.outDepth

/-- A register's value as read while BUSY = 1, given a draw `d` (70_reset_and_hazards.md rule R452): its value where no
command may change it; 0 for OUT_DATA and CMD; for STATUS, BUSY = 1 and a draw of bits [31:1]; for every other
register a draw of its field, in the form it is read in (log 4). -/
def busyRegValue (s : State) (d : Word) : Reg → Word
  | .id => regValue s .id
  | .version => regValue s .version
  | .status => d ||| 1
  | .cmd => 0
  | .quality => regValue s .quality
  | .width => regValue s .width
  | .height => regValue s .height
  | .scale => (d.setWidth 13).setWidth 32
  | .intStatus => regValue s .intStatus
  | .intEnable => regValue s .intEnable
  | .errCmd => d
  | .errDetail => d
  | .predY => (d.setWidth 16).signExtend 32
  | .predCb => (d.setWidth 16).signExtend 32
  | .predCr => (d.setWidth 16).signExtend 32
  | .bitAcc => (d.setWidth 11).setWidth 32
  | .mcuTotal => d
  | .mcuDone => d
  | .outLevel => d
  | .outData => 0
  | .outTotal => d
  | .outDepth => regValue s .outDepth

/-- Whether a read while BUSY = 1 draws a free value (70_reset_and_hazards.md rule R452). -/
def drawsWhenBusy : Reg → Bool
  | .status | .scale | .errCmd | .errDetail | .predY | .predCb | .predCr | .bitAcc => true
  | .mcuTotal | .mcuDone | .outLevel | .outTotal => true
  | .id | .version | .cmd | .quality | .width | .height | .intStatus | .intEnable | .outData | .outDepth => false

/-- The host receives a word. -/
def reply (v : Word) (s : State) : State := { s with replies := v :: s.replies }

/-- One free value has been drawn. -/
def drawn (s : State) : State := { s with draws := s.draws + 1 }

/-- The free value the next such read draws (rule R452, U3). -/
def nextDraw (s : State) : Word := Config.busyRead s.draws

/-- A read of a register: OUT_DATA pops the oldest byte when BUSY = 0 and there is one (10_state.md rule R51). -/
def readReg (r : Reg) (s : State) : State :=
  if s.busy then
    let t := reply (busyRegValue s (nextDraw s) r) s
    if drawsWhenBusy r then drawn t else t
  else
    match r, s.fifo with
    | .outData, b :: rest => reply (BitVec.ofNat 32 (256 + b.toNat)) { s with fifo := rest }
    | _, _ => reply (regValue s r) s

/-- A read of an entry of SAMPLE, COEF or ZZ, sign-extended (10_state.md rules R60 to R62); a model fault if it was not
written since reset (70_reset_and_hazards.md rule R441). -/
def readEntry {w : Nat} (name : BufName) (b : Buffer w) (i : Nat) (s : State) : Host.Outcome State Fault Refusal :=
  match bufRead b i with
  | some v => .next (reply (v.signExtend 32) s)
  | none => .fault (.hostReadUnwritten name i)

/-- HostRead(off) (20_memory.md rule R91) of what stands there. While BUSY = 1 a COEF, ZZ or QT entry reads as a draw of its
width (70_reset_and_hazards.md rule R452; logs 4, 5). -/
def readLoc (l : Loc) (s : State) : Host.Outcome State Fault Refusal :=
  match l with
  | .reg r => .next (readReg r s)
  | .sample i => readEntry .sample s.sample i s
  | .coef i =>
    if s.busy then .next (drawn (reply (((nextDraw s).setWidth 16).signExtend 32) s))
    else readEntry .coef s.coef i s
  | .zz i =>
    if s.busy then .next (drawn (reply (((nextDraw s).setWidth 16).signExtend 32) s))
    else readEntry .zz s.zz i s
  | .qt c k =>
    if s.busy then .next (drawn (reply (((nextDraw s).setWidth 8).setWidth 32) s))
    else .next (reply ((qtOf c s)[k].setWidth 32) s)
  | .reserved => .next (reply 0 s)

/-- A store the host makes to a command's input: dropped, setting WOVR, while BUSY = 1
(70_reset_and_hazards.md rule R450). -/
def guardedWrite (s t : State) : State := if s.busy then setWovr s else t

/-- clamp(sint32(v), 1, 100), what a write of v to QUALITY stores (10_state.md rule R38). -/
def clampQuality (v : Word) : BitVec 7 :=
  if v.toInt < 1 then 1 else if 100 < v.toInt then 100 else v.setWidth 7

/-- HostWrite(off, v) to a register (10_state.md rules R34 to R53; 20_memory.md rule R94). -/
def writeReg (r : Reg) (v : Word) (s : State) : State :=
  match r with
  | .cmd => guardedWrite s { s with cmdLatch := v, busy := true }
  | .quality => guardedWrite s { s with quality := clampQuality v }
  | .width => guardedWrite s { s with width := v.setWidth 16 }
  | .height => guardedWrite s { s with height := v.setWidth 16 }
  | .intStatus => { s with intStatus := s.intStatus &&& ~~~(v.setWidth 3) }
  | .intEnable => { s with intEnable := v.setWidth 3 }
  | .id | .version | .status | .scale | .errCmd | .errDetail | .predY | .predCb | .predCr | .bitAcc => s
  | .mcuTotal | .mcuDone | .outLevel | .outData | .outTotal | .outDepth => s

/-- HostWrite(off, v) (20_memory.md rule R91) to what stands there (10_state.md rules R60 to R63). -/
def writeLoc (l : Loc) (v : Word) (s : State) : State :=
  match l with
  | .reg r => writeReg r v s
  | .sample i => guardedWrite s { s with sample := bufWrite s.sample i (v.setWidth 8) }
  | .coef i => guardedWrite s { s with coef := bufWrite s.coef i (v.setWidth 16) }
  | .zz k => guardedWrite s { s with zz := bufWrite s.zz k (v.setWidth 16) }
  | .qt _ _ => s
  | .reserved => s

/-- One step of the host (20_memory.md rules R91, R92). -/
def hostAccess (a : HostAccess) (s : State) : Host.Outcome State Fault Refusal :=
  match a with
  | .read off bytes => if inInterface off bytes then readLoc (locate off) s else .refused (.notAnAccess off bytes)
  | .write off bytes v =>
    if inInterface off bytes then .next (writeLoc (locate off) v s) else .refused (.notAnAccess off bytes)

end Sys2Proof.Machine
end

