-- ==== Sys2Proof/Machine/CoreStep.lean ====
section
/-! DEFINITION. The core step and the choice of who moves (46_sequencing.md rules R320, R321). -/

namespace Sys2Proof.Machine

/-- The core step (rule R320): decode CMD_LATCH; an illegal word is rejected with ILLEGAL_COMMAND without any other
check (30_encoding.md rule R125); a legal one runs. -/
def coreStep (s : State) : Host.Outcome State Fault Refusal :=
  match decode s.cmdLatch with
  | .error _ => .next (reject .illegalCommand s)
  | .ok i => exec i s

/-- The core's turn: its step is enabled exactly when BUSY = 1 (rule R320); otherwise nothing happens. -/
def coreTurn (s : State) : Host.Outcome State Fault Refusal := if s.busy then coreStep s else .next s

/-- One turn of the machine. -/
def takeTurn (t : Turn) (s : State) : Host.Outcome State Fault Refusal :=
  match t with
  | .host a => hostAccess a s
  | .core => coreTurn s
  | .reset => .next (applyReset s)

/-- One step: the next turn of the agenda; with none left the core moves if it can, so that BUSY = 1 never lasts
(rule R321), and otherwise the block waits (70_reset_and_hazards.md rule R440). -/
def stepOnce (s : State) : Host.Outcome State Fault Refusal :=
  match s.agenda with
  | [] => coreTurn s
  | t :: rest => takeTurn t { s with agenda := rest }

/-- The state in which the next step is the core step of command word w: w latched, BUSY = 1, the core's turn (rule R320:
what a host write of w to CMD does, then the core moving). -/
def issueNext (w : Word) (s : State) : State :=
  { s with cmdLatch := w, busy := true, agenda := .core :: s.agenda }

end Sys2Proof.Machine
end

