-- ==== Sys2Proof/Machine/Step.lean ====
section
/-! DEFINITION. The step of the machine, and how a given command word comes to be its next. -/

namespace Sys2Proof.Machine

/-- One step of host, core or reset (46_sequencing.md rule R320). -/
def step (s : State) : Host.Outcome State Fault Refusal := stepOnce s

/-- `s` with the command whose bits are `w` (bits at and above `nbits` zero) latched, so that the next step runs it
(log 1). -/
def State.withFetchWord (s : State) (nbits w : Nat) : State := issueNext (BitVec.ofNat 32 (w % 2 ^ nbits)) s

end Sys2Proof.Machine
end

