-- ==== Sys2Proof/Machine/HostContract.lean ====
section
/-! DEFINITION. The host contract (47_host_contract.md): validation, colour transform, raster walk, and the host program as a
process that reads the block's replies and acts on them. None of it is state of the block (00_scope.md rule R6(c)); the
step calls none of it. -/

namespace Sys2Proof.Machine

/-- The arguments of the source's entry point (rule R350); no quality is `none`. -/
structure Image where
  pixels : List Byte
  width : Int
  height : Int
  channels : Nat
  quality : Option Int
  deriving DecidableEq, Repr

/-- The host's validation (rule R351): what is not refused as InvalidInputError. -/
def validImage (m : Image) : Bool :=
  decide (0 < m.width) && decide (0 < m.height) && !m.pixels.isEmpty && (m.channels == 3 || m.channels == 4) &&
    decide (m.width * m.height * m.channels ≤ m.pixels.length) && decide (m.width ≤ 65535) && decide (m.height ≤ 65535)

/-- The word the host writes to QUALITY (rule R352): its argument, or 80 if the caller gives none. The register clamps.
Rule R352 does not say what word stands for an argument outside int32: DESIGN CHOICE (log 22), the int32 nearest to it,
so that QUALITY still holds the argument clamped to [1, 100]. -/
def qualityWord (m : Image) : Word := BitVec.ofInt 32 (max (-2 ^ 31) (min (2 ^ 31 - 1) (m.quality.getD 80)))

/-- The Y, Cb and Cr samples of a pixel. -/
structure Ycc where
  y : Int
  cb : Int
  cr : Int
  deriving DecidableEq, Repr

/-- The colour transform (rule R353); the shifted numerators are non-negative, so `/` is the shift. -/
def ycc (r g b : Byte) : Ycc where
  y := (19595 * r.toNat + 38470 * g.toNat + 7471 * b.toNat + 32768 : Int) / 65536 - 128
  cb := (-11059 * r.toNat - 21709 * g.toNat + 32768 * b.toNat + 0x807FFF : Int) / 65536 - 128
  cr := (32768 * r.toNat - 27439 * g.toNat - 5329 * b.toNat + 0x807FFF : Int) / 65536 - 128

/-- The component of a transformed pixel. -/
def yccOf (k : Comp) (p : Ycc) : Int :=
  match k with
  | .y => p.y
  | .cb => p.cb
  | .cr => p.cr

/-- The byte at which pixel (x, y) begins (rule R355). -/
def pixelOffset (width channels x y : Nat) : Nat := (y * width + x) * channels

/-- A coordinate clamped to the image (rule R357): min(x, size - 1). -/
def clampCoord (x size : Nat) : Nat := min x (size - 1)

/-- The samples of pixel (x, y) of a valid image, alpha skipped (rules R354, R355); none past the buffer's end. -/
def pixelAt (m : Image) (x y : Nat) : Option Ycc :=
  let o := pixelOffset m.width.toNat m.channels x y
  match m.pixels[o]?, m.pixels[o + 1]?, m.pixels[o + 2]? with
  | some r, some g, some b => some (ycc r g b)
  | _, _, _ => none

/-- 0, step, 2 step, ... while below `limit` (rule R356). -/
def steps8 (limit : Nat) : List Nat := (List.range limit).filter fun n => n % 8 = 0

/-- The MCUs in raster order, each by its left and upper pixel (rule R356). -/
def mcuOrigins (width height : Nat) : List (Nat × Nat) :=
  (steps8 height).flatMap fun oy => (steps8 width).map fun ox => (ox, oy)

/-- The sample of component k at natural index i of the MCU at (ox, oy) (rules R356, R357). -/
def sampleOf (m : Image) (k : Comp) (ox oy : Nat) (i : Fin 64) : Option Int :=
  (pixelAt m (clampCoord (ox + (colOf i).val) m.width.toNat)
    (clampCoord (oy + (rowOf i).val) m.height.toNat)).map (yccOf k)

/-! ### The host program (rules R360, R364; 30_encoding.md rules R129, R130) -/

/-- The offset of a register (10_state.md rule R33). -/
def regOffset (r : Reg) : Nat := 4 * regList.idxOf r

/-- An operation of the host program. Each makes one access of the window when the host moves. -/
inductive HostOp where
  /-- WR (30_encoding.md rule R129). -/
  | write (off : Nat) (v : Word)
  /-- ISSUE (30_encoding.md rule R129). -/
  | issue (i : Instr)
  /-- WAIT (30_encoding.md rule R130): RD STATUS, again while BUSY reads 1. -/
  | wait
  /-- CHECK (rule R360) after command i: RD INT_STATUS. -/
  | check (i : Instr)
  /-- CHECK's second part, where ERR read 1: read STATUS.ERRCODE and act on it. -/
  | readCode (i : Instr)
  /-- DRAIN (30_encoding.md rule R130): RD OUT_DATA, again while VALID reads 1. -/
  | drain
  deriving DecidableEq, Repr

/-- What the host does about a rejected command (rule R364). -/
inductive HostAction where
  /-- Return `InvalidInputError`. -/
  | invalidInputError
  /-- Abort the image, return `FatalInvariantError`. -/
  | fatalInvariantError
  /-- Abort. -/
  | abort
  /-- Drain the FIFO and reissue the command. -/
  | drainAndReissue
  deriving DecidableEq, Repr

/-- The host's action by STATUS.ERRCODE (rule R364). Codes that no rejection records abort too, being no OUT_OVERFLOW
(rule R360: "Every other error aborts the image"). -/
def hostAction (code : Nat) : HostAction :=
  match code with
  | 2 => .invalidInputError
  | 3 => .fatalInvariantError
  | 6 => .drainAndReissue
  | _ => .abort

/-- Why an encoding failed, as the host's caller sees it (rules R351, R364). -/
inductive HostFailure where
  | invalidInputError
  | fatalInvariantError
  | aborted
  deriving DecidableEq, Repr

/-- What the entry point returns (rules R350, R360). -/
inductive HostResult where
  | bytes (stream : List Byte)
  | failed (e : HostFailure)
  deriving DecidableEq, Repr

/-- The running host program: the operations still to come, the bytes drained, oldest first, and the failure met. -/
structure HostProc where
  ops : List HostOp
  stream : List Byte
  failure : Option HostFailure
  deriving DecidableEq, Repr

/-- WR to a register. -/
def writeOp (r : Reg) (v : Word) : HostOp := .write (regOffset r) v

/-- WR INT_STATUS, 0x7. -/
def clearStatus : HostOp := writeOp .intStatus 7

/-- DO <mnemonic> (30_encoding.md rule R130). -/
def doCmd (i : Instr) : List HostOp := [.issue i, .wait]

/-- DO <mnemonic>; CHECK (rule R360). -/
def doCheck (i : Instr) : List HostOp := doCmd i ++ [.check i]

/-- LOAD <s0>, ..., <s63> (30_encoding.md rule R130). -/
def loadSamples (v : Fin 64 → Int) : List HostOp :=
  (List.finRange 64).map fun i => .write (0x100 + 4 * i.val) (BitVec.ofInt 32 (v i))

/-- How the host has a block coded (rule R360): by ENCBLK, or by FDCT_STAGES (30_encoding.md rule R130). -/
inductive BlockForm where
  | encblk
  | stages
  deriving DecidableEq, Repr

/-- The commands that code a loaded block of component k, a CHECK after each DO (rule R360). -/
def codeLoaded (form : BlockForm) (k : Comp) : List HostOp :=
  match form with
  | .encblk => doCheck (encblkInstr k)
  | .stages => doCheck (fdctqInstr (classOf k)) ++ doCheck .zigzag ++ doCheck (huffInstr k)

/-- One block: load, code, drain. A valid image has every pixel, so no sample is missing. -/
def encodeBlock (m : Image) (form : BlockForm) (ox oy : Nat) (k : Comp) : List HostOp :=
  loadSamples (fun i => (sampleOf m k ox oy i).getD 0) ++ codeLoaded form k ++ [.drain]

/-- The blocks of one MCU (rules R356, R360), component k's coded by `form k`. -/
def encodeMcu (m : Image) (form : Comp → BlockForm) (ox oy : Nat) : List HostOp :=
  [Comp.y, .cb, .cr].flatMap fun k => encodeBlock m (form k) ox oy k

/-- The host program of rule R360; none for an image the validation refuses (rule R351). Rule R360 leaves open which form
codes each block: DESIGN CHOICE (log 16), `form ox oy k` gives it for component k of the MCU at (ox, oy), so that every
mixture is some program. It is settled before the image, not from the block's replies. -/
def hostProgram (m : Image) (form : Nat → Nat → Comp → BlockForm) : Option (List HostOp) :=
  if validImage m then
    some
      ([clearStatus, writeOp .quality (qualityWord m)] ++ doCheck .init ++
        [writeOp .width (BitVec.ofInt 32 m.width), writeOp .height (BitVec.ofInt 32 m.height)] ++
        doCheck .header ++ [.drain] ++
        (mcuOrigins m.width.toNat m.height.toNat).flatMap (fun o => encodeMcu m (form o.1 o.2) o.1 o.2) ++
        doCheck .finish ++ [.drain])
  else none

/-- The host about to encode an image; a refused image has failed already, with no access made (rule R351). -/
def hostStart (m : Image) (form : Nat → Nat → Comp → BlockForm) : HostProc :=
  match hostProgram m form with
  | some ops => ⟨ops, [], none⟩
  | none => ⟨[], [], some .invalidInputError⟩

/-- What the host returns, once its program is over (rule R360). -/
def hostResult (p : HostProc) : Option HostResult :=
  match p.ops with
  | [] =>
    match p.failure with
    | some e => some (.failed e)
    | none => some (.bytes p.stream)
  | _ :: _ => none

/-- The access an operation makes. -/
def accessOf : HostOp → HostAccess
  | .write off v => .write off 4 v
  | .issue i => .write (regOffset .cmd) 4 (encode i)
  | .wait => .read (regOffset .status) 4
  | .check _ => .read (regOffset .intStatus) 4
  | .readCode _ => .read (regOffset .status) 4
  | .drain => .read (regOffset .outData) 4

/-- CHECK's action on an ERRCODE (rules R360, R364), INT_STATUS being cleared before it; `rest` is the program after. -/
def actOn (code : Nat) (i : Instr) (rest : List HostOp) (p : HostProc) : HostProc :=
  match hostAction code with
  | .drainAndReissue => { p with ops := [clearStatus, .drain] ++ doCheck i ++ rest }
  | .invalidInputError => { p with ops := [clearStatus], failure := some .invalidInputError }
  | .fatalInvariantError => { p with ops := [clearStatus], failure := some .fatalInvariantError }
  | .abort => { p with ops := [clearStatus], failure := some .aborted }

/-- The host after operation `op`, `rest` coming next, whose read returned `v` (a write ignores it). -/
def afterOp (op : HostOp) (rest : List HostOp) (v : Word) (p : HostProc) : HostProc :=
  match op with
  | .write _ _ => { p with ops := rest }
  | .issue _ => { p with ops := rest }
  | .wait => { p with ops := if v.getLsbD 0 then .wait :: rest else rest }
  | .check i => { p with ops := (if v.getLsbD 1 then .readCode i else clearStatus) :: rest }
  | .readCode i => actOn (v.extractLsb' 8 4).toNat i rest p
  | .drain =>
    if v.getLsbD 8 then { p with ops := .drain :: rest, stream := p.stream ++ [v.setWidth 8] }
    else { p with ops := rest }

/-- Host and block together. -/
structure System where
  host : HostProc
  block : State
  deriving DecidableEq, Repr

/-- Who moves next; every order is allowed (46_sequencing.md rule R320; log 16). -/
inductive Mover where
  | host
  | core
  deriving DecidableEq, Repr

/-- The host's next access, a turn of the block; a host whose program is over makes none. -/
def hostMove (y : System) : Host.Outcome System Fault Refusal :=
  match y.host.ops with
  | [] => .next y
  | op :: rest =>
    match takeTurn (.host (accessOf op)) y.block with
    | .next t => .next ⟨afterOp op rest (t.replies.headD 0) y.host, t⟩
    | .fault f => .fault f
    | .refused r => .refused r

/-- One move of host or core. -/
def systemMove (who : Mover) (y : System) : Host.Outcome System Fault Refusal :=
  match who with
  | .host => hostMove y
  | .core =>
    match takeTurn .core y.block with
    | .next t => .next ⟨y.host, t⟩
    | .fault f => .fault f
    | .refused r => .refused r

/-- The moves given, in order. -/
def systemRun : List Mover → System → Host.Outcome System Fault Refusal
  | [], y => .next y
  | who :: rest, y =>
    match systemMove who y with
    | .next z => systemRun rest z
    | .fault f => .fault f
    | .refused r => .refused r

/-- The stream a host has from the replies to its reads of OUT_DATA alone, oldest first: bits [7:0] of those with VALID set
(10_state.md rule R51; rule R362). -/
def drainedBytes (replies : List Word) : List Byte :=
  (replies.filter fun v => v.getLsbD 8).map fun v => v.setWidth 8

end Sys2Proof.Machine
end

