-- ==== Sys2Proof/Safety.lean ====
section
/-! DEFINITION. What counts as a safe state, in the terms claims use: the invariants of the machine, and the vocabulary of
the statements. -/

namespace Sys2Proof.Machine

/-- The three buffers are in canonical form. -/
def memoryInv (s : State) : Prop := Memory.wf s.sample ∧ Memory.wf s.coef ∧ Memory.wf s.zz

/-- QUALITY holds an integer in 1..100 (10_state.md rule R38). -/
def qualityInv (s : State) : Prop := 1 ≤ s.quality.toNat ∧ s.quality.toNat ≤ 100

/-- The bits of ACC not yet filled are 0 (10_state.md rule R47; 44_bitstream.md rule R260). -/
def accClear (acc : Byte) (count : BitVec 3) : Prop := acc.toNat % 2 ^ (8 - count.toNat) = 0

/-- BITACC between commands (44_bitstream.md rule R260). -/
def bitAccInv (s : State) : Prop := accClear s.acc s.count

/-- BITACC is 0. -/
def bitAccZero (s : State) : Prop := s.acc = 0 ∧ s.count = 0

/-- The predictors are 0. -/
def predsZero (s : State) : Prop := s.predY = 0 ∧ s.predCb = 0 ∧ s.predCr = 0

/-- No MCU has been begun. -/
def noMcuBegun (s : State) : Prop := s.mcuDone = 0 ∧ s.nextComp = .y

/-- The sequencing invariants of 46_sequencing.md rule R328, with what makes them inductive: nothing has been pushed
in IDLE and INITIALIZED. -/
def sequencingInv (s : State) : Prop :=
  s.mcuDone.toNat ≤ s.mcuTotal.toNat ∧
  outLevel s ≤ Config.outDepth ∧
  (s.phase = .idle ∨ s.phase = .initialized →
    s.mcuTotal = 0 ∧ noMcuBegun s ∧ bitAccZero s ∧ predsZero s ∧ s.outTotal = 0 ∧ s.fifo = []) ∧
  (s.phase = .headerWritten →
    1 ≤ s.mcuTotal.toNat ∧ noMcuBegun s ∧ bitAccZero s ∧ predsZero s ∧ s.outTotal = 607) ∧
  (s.phase = .scanning → 1 ≤ s.mcuTotal.toNat ∧ 1 ≤ 3 * s.mcuDone.toNat + compCode s.nextComp) ∧
  (s.phase = .finalized → s.mcuDone = s.mcuTotal ∧ s.nextComp = .y ∧ bitAccZero s)

/-- The tables in use are those of some quality in 1..100 (40_tables.md rules R150 to R156). -/
def tablesBuilt (s : State) : Prop :=
  ∃ q : BitVec 7, 1 ≤ q.toNat ∧ q.toNat ≤ 100 ∧ s.scale = scaleFactor q ∧
    s.qt0 = quantTable .luma s.scale.toNat ∧ s.qt1 = quantTable .chroma s.scale.toNat ∧
    s.fs0 = scaleTable s.qt0 ∧ s.fs1 = scaleTable s.qt1

/-- Wherever FDCTQ is admitted the tables have been built (10_state.md rule R70; 46_sequencing.md rule R322). -/
def tablesInv (s : State) : Prop := admitted .fdctq0 s → tablesBuilt s

/-- The invariants of the machine together. -/
def safe (s : State) : Prop :=
  memoryInv s ∧ qualityInv s ∧ bitAccInv s ∧ sequencingInv s ∧ tablesInv s

/-- In the bytes given, every 0xFF is followed by 0x00 (44_bitstream.md rule R266). -/
def stuffed : List Byte → Bool
  | [] => true
  | [b] => b != 0xFF
  | b :: c :: rest => (b != 0xFF || c == 0x00) && stuffed (c :: rest)

/-- The bytes a bit writer completed, its stuffing bytes taken out (44_bitstream.md rule R262). -/
def unstuff : List Byte → List Byte
  | [] => []
  | [b] => [b]
  | b :: c :: rest => if b = 0xFF ∧ c = 0x00 then b :: unstuff rest else b :: unstuff (c :: rest)

/-- The bits of a byte, bit 7 first (20_memory.md rule R97). -/
def byteBits (b : Byte) : List Bool := codeBits b.toNat 8

/-- Every bit a bit writer holds, in emission order: its completed bytes', then its partial byte's COUNT first bits
(44_bitstream.md rules R260, R261). -/
def writerBits (w : BitWriter) : List Bool :=
  (unstuff w.pending).flatMap byteBits ++ (byteBits w.acc).take w.count.toNat

/-- The bits of codes, in emission order (00_scope.md rule R13). -/
def codesBits (cs : List Code) : List Bool := cs.flatMap fun c => codeBits c.code c.len

/-- The record of an error: what a rejection saves outside ERROR (60_exceptions.md rule R410). -/
def sameImageState (s t : State) : Prop :=
  t = { s with
    phase := t.phase
    errCode := t.errCode
    errCmd := t.errCmd
    errDetail := t.errDetail
    intStatus := t.intStatus
    busy := t.busy }

/-- How many zero AC entries of a zigzag block stand immediately before position j (43_entropy.md rule R225). -/
def zerosBefore (zz : Block (BitVec 16)) (j : Nat) : Nat :=
  (((zz.toList.take j).drop 1).reverse.takeWhile (· == 0)).length

/-- zz is the block that command i codes as component k: ZZ for HUFF k (43_entropy.md rule R230); for ENCBLK k the zigzag
reorder of FDCTQ class(k)'s result on SAMPLE (46_sequencing.md rule R331). -/
def codesBlock (i : Instr) (k : Comp) (s : State) (zz : Block (BitVec 16)) : Prop :=
  (i = huffInstr k ∧ ∀ j : Fin 64, bufRead s.zz j.val = some zz[j]) ∨
  (i = encblkInstr k ∧ ∃ x : Block Byte, (∀ j : Fin 64, bufRead s.sample j.val = some x[j]) ∧
    zz = tabulate fun j => (fdctqResult x (fsOf (classOf k) s))[unzigzag j])

/-- Command i, which needs room for `bytes`, is rejected with OUT_OVERFLOW, STATE kept; issued again on any FIFO with
that room it commits what it would have committed there the first time, those bytes pushed, the rejection's record and
INT_STATUS bits standing (46_sequencing.md rule R332; 60_exceptions.md rule R410). -/
def rejectedThenRetried (i : Instr) (s : State) (bytes : List Byte) : Prop :=
  let r := reject (.outOverflow bytes.length) s
  exec i s = .next r ∧ r.phase = s.phase ∧
  ∀ f : List Byte, f.length + bytes.length ≤ Config.outDepth →
    ∃ t, exec i { s with fifo := f } = .next t ∧ t.fifo = f ++ bytes ∧
      exec i { r with fifo := f } = .next { t with
        errCode := r.errCode, errCmd := r.errCmd, errDetail := r.errDetail, intStatus := r.intStatus }

end Sys2Proof.Machine
end

