-- ==== Sys2Proof/Certificates/Slice0/Obligations.lean ====
section
/-! DEFINITION. The statements for the provers. -/

open Sys2Proof Sys2Proof.Machine

/-! ### Encoding -/

/-- 30_encoding.md rule R127: the thirteen legal words, and no word but an instruction's own decodes to it. -/
def Obligations.LegalWordsAreExactlyThirteen : Prop :=
  (encode .nop = 0x00000000 ∧ encode .init = 0x00000001 ∧ encode .header = 0x00000002 ∧ encode .fdctq0 = 0x00000003 ∧
    encode .fdctq1 = 0x00000043 ∧ encode .zigzag = 0x00000004 ∧ encode .huffY = 0x00000005 ∧
    encode .huffCb = 0x00000015 ∧ encode .huffCr = 0x00000025 ∧ encode .encblkY = 0x00000006 ∧
    encode .encblkCb = 0x00000016 ∧ encode .encblkCr = 0x00000026 ∧ encode .finish = 0x00000007) ∧
  ∀ (w : Word) (i : Instr), decode w = .ok i ↔ w = encode i

/-- 30_encoding.md rule R125: the five cases (a) to (e) on the fields of rule R120, and what the core does with such a
word: ILLEGAL_COMMAND, whatever the state. -/
def Obligations.IllegalWordsAreTheFiveCases : Prop :=
  (∀ w : Word, (∃ e, decode w = .error e) ↔
    8 ≤ (w.extractLsb' 0 4).toNat ∨ w.extractLsb' 7 25 ≠ 0 ∨ w.extractLsb' 4 2 = 3 ∨
    (w.extractLsb' 4 2 ≠ 0 ∧ w.extractLsb' 0 4 ≠ 5 ∧ w.extractLsb' 0 4 ≠ 6) ∨
    (w.extractLsb' 6 1 = 1 ∧ w.extractLsb' 0 4 ≠ 3)) ∧
  ∀ (s : State) (e : IllegalWord), decode s.cmdLatch = .error e → coreStep s = .next (reject .illegalCommand s)

/-- A few words written out from 30_encoding.md rules R120 and R121: OP, COMP << 4, CLS << 6. -/
def Obligations.WordsDecodeAsWritten : Prop :=
  decode 0b0000000 = .ok .nop ∧ decode 0b0000001 = .ok .init ∧ decode 0b0000010 = .ok .header ∧
  decode 0b1000011 = .ok .fdctq1 ∧ decode 0b0000100 = .ok .zigzag ∧ decode 0b0010101 = .ok .huffCb ∧
  decode 0b0100110 = .ok .encblkCr ∧ decode 0b0000111 = .ok .finish ∧ decode 0b0110101 = .error .compThree ∧
  decode 0b1000110 = .error .clsUnused ∧ decode 0b0010011 = .error .compUnused ∧ decode 8 = .error .reservedOpcode ∧
  decode 0x80000001 = .error .reservedBits

/-! ### The step -/

/-- 46_sequencing.md rule R320: when BUSY = 1 and the core moves (its turn, or no turn is left), the step runs the
command latched: exec of the instruction it decodes to, or the rejection of an illegal word. The turn is used up;
nothing else is added around exec. -/
def Obligations.StepRunsTheDecodedCommand : Prop :=
  ∀ s : State, s.busy = true →
    (∀ (rest : List Turn) (i : Instr), s.agenda = .core :: rest → decode s.cmdLatch = .ok i →
      step s = exec i { s with agenda := rest }) ∧
    (∀ i : Instr, s.agenda = [] → decode s.cmdLatch = .ok i → step s = exec i s) ∧
    (∀ (rest : List Turn) (e : IllegalWord), s.agenda = .core :: rest → decode s.cmdLatch = .error e →
      step s = .next (reject .illegalCommand { s with agenda := rest })) ∧
    (∀ e : IllegalWord, s.agenda = [] → decode s.cmdLatch = .error e → step s = .next (reject .illegalCommand s))

/-- 46_sequencing.md rule R320, 70_reset_and_hazards.md rule R440: a host turn is the host's access; a core turn while
BUSY = 0 does nothing; with nothing to do the block waits; reset puts every field of the block in its reset value. The
agenda, the replies and the draw counter are the model's own (logs 1, 12, 13). -/
def Obligations.HostAndResetTurnsAreTaken : Prop :=
  (∀ (s : State) (a : HostAccess) (rest : List Turn), s.agenda = .host a :: rest →
    step s = hostAccess a { s with agenda := rest }) ∧
  (∀ (s : State) (rest : List Turn), s.agenda = .reset :: rest →
    step s = .next { State.reset with agenda := rest, replies := s.replies, draws := s.draws }) ∧
  (∀ (s : State) (rest : List Turn), s.busy = false → s.agenda = .core :: rest →
    step s = .next { s with agenda := rest }) ∧
  (∀ s : State, s.busy = false → s.agenda = [] → step s = .next s)

/-- 70_reset_and_hazards.md rule R442, every row but FS, whose reset value is the model's choice (log 3). -/
def Obligations.ResetLeavesTheStatedValues : Prop :=
  let s := State.reset
  s.busy = false ∧ s.phase = .idle ∧ s.nextComp = .y ∧ s.errCode = .none ∧ s.cmdLatch = 0 ∧ s.quality = 80 ∧
  s.width = 0 ∧ s.height = 0 ∧ s.scale = 0 ∧ s.intStatus = 0 ∧ s.intEnable = 0 ∧ s.errCmd = 0 ∧ s.errDetail = 0 ∧
  s.predY = 0 ∧ s.predCb = 0 ∧ s.predCr = 0 ∧ s.acc = 0 ∧ s.count = 0 ∧ s.mcuTotal = 0 ∧ s.mcuDone = 0 ∧
  s.fifo = [] ∧ outLevel s = 0 ∧ s.outTotal = 0 ∧ (∀ k : Fin 64, s.qt0[k] = 0 ∧ s.qt1[k] = 0) ∧
  (∀ i : Nat, bufRead s.sample i = none ∧ bufRead s.coef i = none ∧ bufRead s.zz i = none) ∧ irq s = false ∧
  statusWord s = 0 ∧
  hostAccess (.read 0x000 4) s = .next { s with replies := [0x4A504547] } ∧
  hostAccess (.read 0x004 4) s = .next { s with replies := [0x00000001] } ∧
  ∃ d : Word, d.toNat = Config.outDepth ∧ 1024 ≤ d.toNat ∧
    hostAccess (.read 0x054 4) s = .next { s with replies := [d] }

/-- The reset state meets the invariants of the machine (46_sequencing.md rule R328, 44_bitstream.md rule R260). -/
def Obligations.ResetMeetsTheInvariants : Prop := safe State.reset

/-! ### The window -/

/-- 10_state.md rules R34 to R53 and R60 to R63: what a host read returns, and that it changes nothing. ID and VERSION read
their constants, BUSY or not, and ignore writes; while BUSY = 0 each register reads its fields at their places, OUT_LEVEL
the FIFO's length, a QT entry zero-extended, a written entry of SAMPLE, COEF or ZZ sign-extended. (OUT_DATA, whose read
pops, is OutDataPopsTheOldestByte's; QUALITY is a field of 7 bits here, holding 1..100.) -/
def Obligations.RegistersReadTheirFields : Prop :=
  ∀ s : State,
    let reads (off : Nat) (v : Word) : Prop := hostAccess (.read off 4) s = .next { s with replies := v :: s.replies }
    (∀ v : Word, reads 0x000 0x4A504547 ∧ hostAccess (.write 0x000 4 v) s = .next s ∧
      reads 0x004 0x00000001 ∧ hostAccess (.write 0x004 4 v) s = .next s) ∧
    (s.busy = false →
      (∃ v : Word, reads 0x008 v ∧ v.getLsbD 0 = false ∧
        (v.extractLsb' 1 3).toNat = (match s.phase with
          | .idle => 0 | .initialized => 1 | .headerWritten => 2 | .scanning => 3 | .finalized => 4 | .error => 5) ∧
        (v.extractLsb' 4 2).toNat = (match s.nextComp with | .y => 0 | .cb => 1 | .cr => 2) ∧ v.extractLsb' 6 2 = 0 ∧
        (v.extractLsb' 8 4).toNat = (match s.errCode with
          | .none => 0 | .configError => 1 | .invalidInput => 2 | .fatalInvariant => 3 | .illegalCommand => 4
          | .sequenceError => 5 | .outOverflow => 6) ∧
        v.extractLsb' 12 20 = 0) ∧
      reads 0x00C 0 ∧ reads 0x010 (s.quality.zeroExtend 32) ∧ reads 0x014 (s.width.zeroExtend 32) ∧
      reads 0x018 (s.height.zeroExtend 32) ∧ reads 0x01C (s.scale.zeroExtend 32) ∧
      reads 0x020 (s.intStatus.zeroExtend 32) ∧ reads 0x024 (s.intEnable.zeroExtend 32) ∧
      reads 0x028 s.errCmd ∧ reads 0x02C s.errDetail ∧ reads 0x030 (s.predY.signExtend 32) ∧
      reads 0x034 (s.predCb.signExtend 32) ∧ reads 0x038 (s.predCr.signExtend 32) ∧
      (∃ v : Word, reads 0x03C v ∧ v.extractLsb' 0 8 = s.acc ∧ v.extractLsb' 8 3 = s.count ∧ v.extractLsb' 11 21 = 0) ∧
      reads 0x040 s.mcuTotal ∧ reads 0x044 s.mcuDone ∧ reads 0x048 (BitVec.ofNat 32 s.fifo.length) ∧
      reads 0x050 s.outTotal ∧ (∃ v : Word, reads 0x054 v ∧ v.toNat = Config.outDepth ∧ 1024 ≤ v.toNat) ∧
      (∀ k : Fin 64, reads (0x400 + 4 * k.val) (s.qt0[k].zeroExtend 32) ∧
        reads (0x500 + 4 * k.val) (s.qt1[k].zeroExtend 32)) ∧
      ∀ i < 64,
        (∀ x : Byte, bufRead s.sample i = some x → reads (0x100 + 4 * i) (x.signExtend 32)) ∧
        (∀ x : BitVec 16, bufRead s.coef i = some x → reads (0x200 + 4 * i) (x.signExtend 32)) ∧
        (∀ x : BitVec 16, bufRead s.zz i = some x → reads (0x300 + 4 * i) (x.signExtend 32)))

/-- 20_memory.md rule R92: an access of another width, misaligned or out of the window is refused; and no other access
is. -/
def Obligations.AccessesOutsideTheInterfaceAreRefused : Prop :=
  (∀ (s : State) (off bytes : Nat) (v : Word), bytes ≠ 4 ∨ off % 4 ≠ 0 ∨ 0xFFF < off →
    hostAccess (.read off bytes) s = .refused (.notAnAccess off bytes) ∧
    hostAccess (.write off bytes v) s = .refused (.notAnAccess off bytes)) ∧
  (∀ (s : State) (off : Nat) (v : Word), off % 4 = 0 → off ≤ 0xFFC →
    (∃ t, hostAccess (.write off 4 v) s = .next t) ∧ ∀ r, hostAccess (.read off 4) s ≠ .refused r)

/-- 10_state.md rules R38 to R40: while BUSY = 0, QUALITY stores clamp(sint32(v), 1, 100), WIDTH and HEIGHT store v[15:0];
each reads back zero-extended; nothing else changes. -/
def Obligations.InputRegisterWrites : Prop :=
  ∀ (s : State) (v : Word), s.busy = false →
    (∃ q : BitVec 7, (q.toNat : Int) = max 1 (min 100 v.toInt) ∧
      hostAccess (.write 0x010 4 v) s = .next { s with quality := q } ∧
      hostAccess (.read 0x010 4) { s with quality := q } =
        .next { s with quality := q, replies := BitVec.ofNat 32 q.toNat :: s.replies }) ∧
    (∃ t, t = { s with width := v.extractLsb' 0 16 } ∧ hostAccess (.write 0x014 4 v) s = .next t ∧
      hostAccess (.read 0x014 4) t = .next { t with replies := (v &&& 0xFFFF) :: t.replies }) ∧
    (∃ t, t = { s with height := v.extractLsb' 0 16 } ∧ hostAccess (.write 0x018 4 v) s = .next t ∧
      hostAccess (.read 0x018 4) t = .next { t with replies := (v &&& 0xFFFF) :: t.replies })

/-- 10_state.md rules R60 to R62: while BUSY = 0 a written entry of SAMPLE, COEF or ZZ reads back as its low 8 or 16 bits,
sign-extended, every other entry is left as it was, and nothing else changes. -/
def Obligations.BufferWriteThenRead : Prop :=
  ∀ (s : State) (i : Nat) (v : Word), i < 64 → s.busy = false →
    (∃ t, hostAccess (.write (0x100 + 4 * i) 4 v) s = .next t ∧ t = { s with sample := t.sample } ∧
      hostAccess (.read (0x100 + 4 * i) 4) t =
        .next { t with replies := (v.extractLsb' 0 8).signExtend 32 :: t.replies } ∧
      ∀ j, j ≠ i → bufRead t.sample j = bufRead s.sample j) ∧
    (∃ t, hostAccess (.write (0x200 + 4 * i) 4 v) s = .next t ∧ t = { s with coef := t.coef } ∧
      hostAccess (.read (0x200 + 4 * i) 4) t =
        .next { t with replies := (v.extractLsb' 0 16).signExtend 32 :: t.replies } ∧
      ∀ j, j ≠ i → bufRead t.coef j = bufRead s.coef j) ∧
    (∃ t, hostAccess (.write (0x300 + 4 * i) 4 v) s = .next t ∧ t = { s with zz := t.zz } ∧
      hostAccess (.read (0x300 + 4 * i) 4) t =
        .next { t with replies := (v.extractLsb' 0 16).signExtend 32 :: t.replies } ∧
      ∀ j, j ≠ i → bufRead t.zz j = bufRead s.zz j)

/-- 70_reset_and_hazards.md rule R450: while BUSY = 1 a write to CMD, QUALITY, WIDTH, HEIGHT or an entry of SAMPLE, COEF or
ZZ only sets INT_STATUS.WOVR. -/
def Obligations.DroppedWritesSetWovr : Prop :=
  ∀ (s : State) (off : Nat) (v : Word), s.busy = true →
    off ∈ [0x00C, 0x010, 0x014, 0x018] ∨ (0x100 ≤ off ∧ off < 0x400 ∧ off % 4 = 0) →
    hostAccess (.write off 4 v) s = .next { s with intStatus := s.intStatus ||| 0b100 }

/-- 46_sequencing.md rule R320, event 1; 10_state.md rule R37: a write of v to CMD while BUSY = 0 latches v and sets BUSY;
a read of CMD returns 0. -/
def Obligations.CmdWriteIssuesTheCommand : Prop :=
  (∀ (s : State) (v : Word), s.busy = false →
    hostAccess (.write 0x00C 4 v) s = .next { s with cmdLatch := v, busy := true }) ∧
  ∀ s : State, hostAccess (.read 0x00C 4) s = .next { s with replies := 0 :: s.replies }

/-- 10_state.md rules R42 and R43, 70_reset_and_hazards.md rule R451: a write to INT_STATUS clears the bits written 1 and a
write to INT_ENABLE stores v[2:0], BUSY or not; nothing else changes; both read back. -/
def Obligations.InterruptRegisterWrites : Prop :=
  ∀ (s : State) (v : Word),
    (∃ t, hostAccess (.write 0x020 4 v) s = .next t ∧ t = { s with intStatus := t.intStatus } ∧
      ∀ n < 3, t.intStatus.getLsbD n = (s.intStatus.getLsbD n && !v.getLsbD n)) ∧
    hostAccess (.write 0x024 4 v) s = .next { s with intEnable := v.extractLsb' 0 3 } ∧
    hostAccess (.read 0x020 4) s = .next { s with replies := s.intStatus.zeroExtend 32 :: s.replies } ∧
    hostAccess (.read 0x024 4) s = .next { s with replies := s.intEnable.zeroExtend 32 :: s.replies }

/-- 20_memory.md rule R94: writes to read-only registers and to QT change nothing, at any time; CMD reads 0. -/
def Obligations.ReadOnlyWritesAreIgnored : Prop :=
  (∀ (s : State) (off : Nat) (v : Word),
    off ∈ [0x000, 0x004, 0x008, 0x01C, 0x028, 0x02C, 0x030, 0x034, 0x038, 0x03C, 0x040, 0x044, 0x048, 0x04C, 0x050,
      0x054] ∨ (0x400 ≤ off ∧ off < 0x600 ∧ off % 4 = 0) →
    hostAccess (.write off 4 v) s = .next s) ∧
  ∀ s : State, hostAccess (.read 0x00C 4) s = .next { s with replies := 0 :: s.replies }

/-- 20_memory.md rule R93: the reserved offsets read 0 and ignore writes, at any time, with no other effect. -/
def Obligations.ReservedOffsetsReadZero : Prop :=
  ∀ (s : State) (off : Nat) (v : Word), off % 4 = 0 →
    (0x058 ≤ off ∧ off ≤ 0x0FC) ∨ (0x600 ≤ off ∧ off ≤ 0xFFC) →
    hostAccess (.read off 4) s = .next { s with replies := 0 :: s.replies } ∧
    hostAccess (.write off 4 v) s = .next s

/-- 10_state.md rule R51: OUT_DATA. -/
def Obligations.OutDataPopsTheOldestByte : Prop :=
  (∀ (s : State) (b : Byte) (rest : List Byte), s.busy = false → s.fifo = b :: rest →
    hostAccess (.read 0x04C 4) s = .next { s with fifo := rest, replies := (0#23 ++ 1#1 ++ b) :: s.replies }) ∧
  (∀ s : State, s.busy = true ∨ s.fifo = [] →
    hostAccess (.read 0x04C 4) s = .next { s with replies := 0 :: s.replies }) ∧
  ∀ (s : State) (v : Word), hostAccess (.write 0x04C 4 v) s = .next s

/-- 70_reset_and_hazards.md rule R452: a read while BUSY = 1 outside SAMPLE returns some word and changes nothing of the
block; STATUS.BUSY reads 1, the registers no command may change read their values, OUT_DATA and CMD read 0, and the
fields narrower than a word read in the form of rules R41, R46, R47 and R63 (logs 4, 5). A written SAMPLE entry reads
its value, sign-extended; one not written faults (UnwrittenEntriesFault). -/
def Obligations.BusyReadsChangeNothing : Prop :=
  (∀ (s : State) (off : Nat), s.busy = true → off % 4 = 0 → off ≤ 0xFFC → ¬(0x100 ≤ off ∧ off < 0x200) →
    ∃ (v : Word) (n : Nat), hostAccess (.read off 4) s = .next { s with replies := v :: s.replies, draws := n } ∧
      (off = 0x008 → v.getLsbD 0 = true) ∧
      (off = 0x010 → v.toNat = s.quality.toNat) ∧ (off = 0x014 → v.toNat = s.width.toNat) ∧
      (off = 0x018 → v.toNat = s.height.toNat) ∧ (off = 0x020 → v.toNat = s.intStatus.toNat) ∧
      (off = 0x024 → v.toNat = s.intEnable.toNat) ∧ (off = 0x00C ∨ off = 0x04C → v = 0) ∧
      (off = 0x054 → v.toNat = Config.outDepth) ∧ (off = 0x01C → v.toNat < 2 ^ 13) ∧
      (off = 0x03C → v.toNat < 2 ^ 11) ∧ (0x400 ≤ off ∧ off < 0x600 → v.toNat < 2 ^ 8) ∧
      (off = 0x030 ∨ off = 0x034 ∨ off = 0x038 ∨ (0x200 ≤ off ∧ off < 0x400) → -2 ^ 15 ≤ v.toInt ∧ v.toInt < 2 ^ 15)) ∧
  ∀ (s : State) (i : Nat) (x : Byte), s.busy = true → i < 64 → bufRead s.sample i = some x →
    hostAccess (.read (0x100 + 4 * i) 4) s = .next { s with replies := x.signExtend 32 :: s.replies }

/-- 70_reset_and_hazards.md rule R441: a host read of an entry not written since reset faults, and so does a command that
would read one, naming the first; a command the state does not admit reads nothing and does not fault. -/
def Obligations.UnwrittenEntriesFault : Prop :=
  (∀ (s : State) (i : Nat), i < 64 →
    (bufRead s.sample i = none →
      hostAccess (.read (0x100 + 4 * i) 4) s = .fault (.hostReadUnwritten .sample i)) ∧
    (s.busy = false → bufRead s.coef i = none →
      hostAccess (.read (0x200 + 4 * i) 4) s = .fault (.hostReadUnwritten .coef i)) ∧
    (s.busy = false → bufRead s.zz i = none →
      hostAccess (.read (0x300 + 4 * i) 4) s = .fault (.hostReadUnwritten .zz i))) ∧
  (∀ (s : State) (i : Nat), i < 64 → bufRead s.sample i = none → (∀ j < i, bufRead s.sample j ≠ none) →
    (∀ c, admitted (fdctqInstr c) s → exec (fdctqInstr c) s = .fault (.commandReadUnwritten .sample i)) ∧
    (∀ k, admitted (encblkInstr k) s → exec (encblkInstr k) s = .fault (.commandReadUnwritten .sample i))) ∧
  (∀ (s : State) (i : Nat), i < 64 → bufRead s.coef i = none → (∀ j < i, bufRead s.coef j ≠ none) →
    admitted .zigzag s → exec .zigzag s = .fault (.commandReadUnwritten .coef i)) ∧
  (∀ (s : State) (i : Nat), i < 64 → bufRead s.zz i = none → (∀ j < i, bufRead s.zz j ≠ none) →
    ∀ k, admitted (huffInstr k) s → exec (huffInstr k) s = .fault (.commandReadUnwritten .zz i)) ∧
  (∀ (s : State) (i : Instr), admitted i s = false → exec i s = .next (reject .sequenceError s))

/-- 60_exceptions.md rule R420: IRQ is the level (INT_STATUS AND INT_ENABLE) != 0. -/
def Obligations.IrqIsTheEnabledSources : Prop :=
  ∀ s : State, irq s = true ↔ ∃ n < 3, s.intStatus.getLsbD n = true ∧ s.intEnable.getLsbD n = true

/-! ### NOP and INIT -/

/-- 46_sequencing.md rule R330: NOP completes in every state, setting DONE and clearing BUSY, and changes nothing else. -/
def Obligations.NopCompletes : Prop :=
  ∀ s : State, exec .nop s = .next { s with intStatus := s.intStatus ||| 0b001, busy := false }

/-- 40_tables.md rules R150, R151, R154, R156: INIT completes in every state; SCALE, QT and FS are those of QUALITY; a new
image is begun; SAMPLE, COEF, ZZ, QUALITY, WIDTH, HEIGHT, INT_ENABLE and what is not named are unchanged. -/
def Obligations.InitBuildsTheTables : Prop :=
  ∀ s : State, qualityInv s → ∃ t : State, exec .init s = .next t ∧
    t.scale.toNat = (if s.quality.toNat < 50 then 5000 / s.quality.toNat else 200 - 2 * s.quality.toNat) ∧
    (∀ i : Fin 64,
      t.qt0[zigzag i].toNat = min (max ((base .luma i * t.scale.toNat + 50) / 100) 1) 255 ∧
      t.qt1[zigzag i].toNat = min (max ((base .chroma i * t.scale.toNat + 50) / 100) 1) 255 ∧
      t.fs0[i] = div64 (ofInt64 1) (mul64 (mul64 (mul64 (ofInt64 t.qt0[zigzag i].toNat) (aasf (rowOf i)))
        (aasf (colOf i))) (ofInt64 8)) ∧
      t.fs1[i] = div64 (ofInt64 1) (mul64 (mul64 (mul64 (ofInt64 t.qt1[zigzag i].toNat) (aasf (rowOf i)))
        (aasf (colOf i))) (ofInt64 8))) ∧
    t = { s with
      scale := t.scale, qt0 := t.qt0, qt1 := t.qt1, fs0 := t.fs0, fs1 := t.fs1, predY := 0, predCb := 0, predCr := 0
      acc := 0, count := 0, fifo := [], outTotal := 0, mcuTotal := 0, mcuDone := 0, nextComp := .y
      errCode := .none, errCmd := 0, errDetail := 0, phase := .initialized
      intStatus := s.intStatus ||| 0b001, busy := false }

/-- 40_tables.md rule R155: a lower quality never has a smaller quantizer. -/
def Obligations.QuantTablesAreMonotone : Prop :=
  ∀ (q1 q2 : BitVec 7) (c : TableClass) (k : Fin 64), 1 ≤ q1.toNat → q1.toNat < q2.toNat → q2.toNat ≤ 100 →
    (quantTable c (scaleFactor q2).toNat)[k].toNat ≤ (quantTable c (scaleFactor q1).toNat)[k].toNat

/-! ### HEADER -/

/-- 45_container.md rule R290, 46_sequencing.md rule R325: HEADER in INITIALIZED with a nonzero size and 607 bytes free
completes, pushes the header and sets MCU_TOTAL; nothing else changes. -/
def Obligations.HeaderCompletes : Prop :=
  ∀ s : State, s.phase = .initialized → s.width ≠ 0 → s.height ≠ 0 → s.fifo.length + 607 ≤ Config.outDepth →
    exec .header s = .next { s with
      fifo := s.fifo ++ headerBytes s.qt0 s.qt1 s.width s.height
      outTotal := s.outTotal + 607
      mcuTotal := BitVec.ofNat 32 (((s.width.toNat + 7) / 8) * ((s.height.toNat + 7) / 8))
      phase := .headerWritten
      intStatus := s.intStatus ||| 0b001
      busy := false }

/-- 45_container.md rule R287 with rules R280 to R286: the header is 607 bytes, its segments stand at their offsets with
their bytes, and only the DQT entries and the SOF0 height and width vary. DHT is spelled out: its marker and length, then
(Tc << 4) | Th, BITS and HUFFVAL of DC0, AC0, DC1 and AC1 (48_rom_tables.md rules R383 to R385). -/
def Obligations.HeaderLayout : Prop :=
  ∀ (qt0 qt1 : Block Byte) (w h : BitVec 16),
    let hd := headerBytes qt0 qt1 w h
    hd.length = 607 ∧ hd.take 2 = [0xFF, 0xD8] ∧
    (hd.drop 2).take 18 = [0xFF, 0xE0, 0x00, 0x10, 0x4A, 0x46, 0x49, 0x46, 0x00, 0x01, 0x01, 0x00, 0x00, 0x01, 0x00,
      0x01, 0x00, 0x00] ∧
    (hd.drop 20).take 134 = [0xFF, 0xDB, 0x00, 0x84, 0x00] ++ qt0.toList ++ [0x01] ++ qt1.toList ∧
    (hd.drop 154).take 19 = [0xFF, 0xC0, 0x00, 0x11, 0x08] ++
      [h.extractLsb' 8 8, h.extractLsb' 0 8, w.extractLsb' 8 8, w.extractLsb' 0 8] ++
      [0x03, 0x01, 0x11, 0x00, 0x02, 0x11, 0x01, 0x03, 0x11, 0x01] ∧
    (hd.drop 173).take 420 =
      [0xFF, 0xC4, 0x01, 0xA2] ++
      [0x00] ++
      [0x00, 0x01, 0x05, 0x01, 0x01, 0x01, 0x01, 0x01, 0x01, 0x00, 0x00, 0x00, 0x00, 0x00, 0x00, 0x00] ++
      [0x00, 0x01, 0x02, 0x03, 0x04, 0x05, 0x06, 0x07, 0x08, 0x09, 0x0A, 0x0B] ++
      [0x10] ++
      [0x00, 0x02, 0x01, 0x03, 0x03, 0x02, 0x04, 0x03, 0x05, 0x05, 0x04, 0x04, 0x00, 0x00, 0x01, 0x7D] ++
      [0x01, 0x02, 0x03, 0x00, 0x04, 0x11, 0x05, 0x12, 0x21, 0x31, 0x41, 0x06, 0x13, 0x51, 0x61, 0x07] ++
      [0x22, 0x71, 0x14, 0x32, 0x81, 0x91, 0xA1, 0x08, 0x23, 0x42, 0xB1, 0xC1, 0x15, 0x52, 0xD1, 0xF0] ++
      [0x24, 0x33, 0x62, 0x72, 0x82, 0x09, 0x0A, 0x16, 0x17, 0x18, 0x19, 0x1A, 0x25, 0x26, 0x27, 0x28] ++
      [0x29, 0x2A, 0x34, 0x35, 0x36, 0x37, 0x38, 0x39, 0x3A, 0x43, 0x44, 0x45, 0x46, 0x47, 0x48, 0x49] ++
      [0x4A, 0x53, 0x54, 0x55, 0x56, 0x57, 0x58, 0x59, 0x5A, 0x63, 0x64, 0x65, 0x66, 0x67, 0x68, 0x69] ++
      [0x6A, 0x73, 0x74, 0x75, 0x76, 0x77, 0x78, 0x79, 0x7A, 0x83, 0x84, 0x85, 0x86, 0x87, 0x88, 0x89] ++
      [0x8A, 0x92, 0x93, 0x94, 0x95, 0x96, 0x97, 0x98, 0x99, 0x9A, 0xA2, 0xA3, 0xA4, 0xA5, 0xA6, 0xA7] ++
      [0xA8, 0xA9, 0xAA, 0xB2, 0xB3, 0xB4, 0xB5, 0xB6, 0xB7, 0xB8, 0xB9, 0xBA, 0xC2, 0xC3, 0xC4, 0xC5] ++
      [0xC6, 0xC7, 0xC8, 0xC9, 0xCA, 0xD2, 0xD3, 0xD4, 0xD5, 0xD6, 0xD7, 0xD8, 0xD9, 0xDA, 0xE1, 0xE2] ++
      [0xE3, 0xE4, 0xE5, 0xE6, 0xE7, 0xE8, 0xE9, 0xEA, 0xF1, 0xF2, 0xF3, 0xF4, 0xF5, 0xF6, 0xF7, 0xF8] ++
      [0xF9, 0xFA] ++
      [0x01] ++
      [0x00, 0x03, 0x01, 0x01, 0x01, 0x01, 0x01, 0x01, 0x01, 0x01, 0x01, 0x00, 0x00, 0x00, 0x00, 0x00] ++
      [0x00, 0x01, 0x02, 0x03, 0x04, 0x05, 0x06, 0x07, 0x08, 0x09, 0x0A, 0x0B] ++
      [0x11] ++
      [0x00, 0x02, 0x01, 0x02, 0x04, 0x04, 0x03, 0x04, 0x07, 0x05, 0x04, 0x04, 0x00, 0x01, 0x02, 0x77] ++
      [0x00, 0x01, 0x02, 0x03, 0x11, 0x04, 0x05, 0x21, 0x31, 0x06, 0x12, 0x41, 0x51, 0x07, 0x61, 0x71] ++
      [0x13, 0x22, 0x32, 0x81, 0x08, 0x14, 0x42, 0x91, 0xA1, 0xB1, 0xC1, 0x09, 0x23, 0x33, 0x52, 0xF0] ++
      [0x15, 0x62, 0x72, 0xD1, 0x0A, 0x16, 0x24, 0x34, 0xE1, 0x25, 0xF1, 0x17, 0x18, 0x19, 0x1A, 0x26] ++
      [0x27, 0x28, 0x29, 0x2A, 0x35, 0x36, 0x37, 0x38, 0x39, 0x3A, 0x43, 0x44, 0x45, 0x46, 0x47, 0x48] ++
      [0x49, 0x4A, 0x53, 0x54, 0x55, 0x56, 0x57, 0x58, 0x59, 0x5A, 0x63, 0x64, 0x65, 0x66, 0x67, 0x68] ++
      [0x69, 0x6A, 0x73, 0x74, 0x75, 0x76, 0x77, 0x78, 0x79, 0x7A, 0x82, 0x83, 0x84, 0x85, 0x86, 0x87] ++
      [0x88, 0x89, 0x8A, 0x92, 0x93, 0x94, 0x95, 0x96, 0x97, 0x98, 0x99, 0x9A, 0xA2, 0xA3, 0xA4, 0xA5] ++
      [0xA6, 0xA7, 0xA8, 0xA9, 0xAA, 0xB2, 0xB3, 0xB4, 0xB5, 0xB6, 0xB7, 0xB8, 0xB9, 0xBA, 0xC2, 0xC3] ++
      [0xC4, 0xC5, 0xC6, 0xC7, 0xC8, 0xC9, 0xCA, 0xD2, 0xD3, 0xD4, 0xD5, 0xD6, 0xD7, 0xD8, 0xD9, 0xDA] ++
      [0xE2, 0xE3, 0xE4, 0xE5, 0xE6, 0xE7, 0xE8, 0xE9, 0xEA, 0xF2, 0xF3, 0xF4, 0xF5, 0xF6, 0xF7, 0xF8] ++
      [0xF9, 0xFA] ∧
    hd.drop 593 = [0xFF, 0xDA, 0x00, 0x0C, 0x03, 0x01, 0x00, 0x02, 0x11, 0x03, 0x11, 0x00, 0x3F, 0x00] ∧
    ∀ (qt0' qt1' : Block Byte) (w' h' : BitVec 16) (i : Nat),
      ¬(25 ≤ i ∧ i ≤ 88) → ¬(90 ≤ i ∧ i ≤ 153) → ¬(159 ≤ i ∧ i ≤ 162) →
      (headerBytes qt0' qt1' w' h')[i]? = hd[i]?

/-- 45_container.md rule R290: a zero width or height is rejected with INVALID_INPUT, before any byte is written. -/
def Obligations.HeaderRejectsZeroSizes : Prop :=
  ∀ s : State, s.phase = .initialized → s.width = 0 ∨ s.height = 0 →
    exec .header s = .next (reject (.invalidInput (s.width == 0) (s.height == 0)) s)

/-- 47_host_contract.md rule R356, 46_sequencing.md rule R325: the raster walk visits MCU_TOTAL MCUs, at most 2^26. -/
def Obligations.McuTotalCountsTheRaster : Prop :=
  ∀ w h : BitVec 16, (mcuOrigins w.toNat h.toNat).length = mcuCount w h ∧
    mcuCount w h = ((w.toNat + 7) / 8) * ((h.toNat + 7) / 8) ∧ mcuCount w h ≤ 2 ^ 26

/-! ### FDCTQ -/

/-- 41_fdct_quant.md rule R190: FDCTQ c, wherever tables exist and every sample is written, completes and stores
RoundHalfAway(fl(D[i] * FS[c][i])) at every natural index; nothing else changes. -/
def Obligations.FdctqCompletes : Prop :=
  ∀ (s : State) (x : Block Byte), (∀ i : Fin 64, bufRead s.sample i.val = some x[i]) →
    s.phase ≠ .idle → s.phase ≠ .error →
    exec .fdctq0 s = .next { s with
      coef := bufFill (tabulate fun i : Fin 64 => coefEntry (mul64 (dct8x8 x)[i] s.fs0[i]))
      intStatus := s.intStatus ||| 0b001, busy := false } ∧
    exec .fdctq1 s = .next { s with
      coef := bufFill (tabulate fun i : Fin 64 => coefEntry (mul64 (dct8x8 x)[i] s.fs1[i]))
      intStatus := s.intStatus ||| 0b001, busy := false }

/-- 41_fdct_quant.md rule R186: the DC output is exactly the sum of the 64 samples. -/
def Obligations.DcIsTheSampleSum : Prop :=
  ∀ x : Block Byte, (dct8x8 x)[0] = ofInt64 (x.toList.map BitVec.toInt).sum

/-- 41_fdct_quant.md rule R190, corner cases: a constant block has only a DC coefficient, 64 times its value, scaled; so
an all-zero block gives all zeros. -/
def Obligations.ConstantBlockHasOnlyDc : Prop :=
  ∀ (v : Byte) (fs : Block Binary64), (∀ i : Fin 64, isFinite fs[i] = true) →
    (fdctqResult (Vector.replicate 64 v) fs)[0] = coefEntry (mul64 (ofInt64 (64 * v.toInt)) fs[0]) ∧
    (∀ i : Fin 64, i ≠ 0 → (fdctqResult (Vector.replicate 64 v) fs)[i] = 0) ∧
    (v = 0 → (fdctqResult (Vector.replicate 64 v) fs)[0] = 0)

/-- 41_fdct_quant.md rule R184: an exact half rounds away from zero. -/
def Obligations.HalvesRoundAwayFromZero : Prop :=
  ∀ n : Nat, n < 2 ^ 51 →
    roundHalfAway (ofDecimal (2 * n + 1) 2) = some ((n : Int) + 1) ∧
    roundHalfAway (neg64 (ofDecimal (2 * n + 1) 2)) = some (-((n : Int) + 1))

/-! ### ZIGZAG -/

/-- 42_zigzag.md rule R210, 48_rom_tables.md rule R381: ZIGZAG, outside ERROR with every COEF entry written, completes
with ZZ[ZIGZAG[i]] = COEF[i]; nothing else changes; ZIGZAG and UNZIGZAG are inverse permutations. -/
def Obligations.ZigzagPermutesTheCoefficients : Prop :=
  (∀ (s : State) (x : Block (BitVec 16)), (∀ i : Fin 64, bufRead s.coef i.val = some x[i]) → s.phase ≠ .error →
    ∃ t : State, exec .zigzag s = .next t ∧ (∀ i : Fin 64, bufRead t.zz (zigzag i).val = some x[i]) ∧
      t = { s with zz := t.zz, intStatus := s.intStatus ||| 0b001, busy := false }) ∧
  ∀ k : Fin 64, zigzag (unzigzag k) = k ∧ unzigzag (zigzag k) = k

/-! ### HUFF -/

/-- 43_entropy.md rule R220: cat(v) is the least s with |v| < 2^s, and 0 for 0. -/
def Obligations.CategoryIsTheBitLength : Prop :=
  cat 0 = 0 ∧ ∀ v : Int, v ≠ 0 → v.natAbs < 2 ^ cat v ∧ ∀ s : Nat, v.natAbs < 2 ^ s → cat v ≤ s

/-- 43_entropy.md rule R221: mag(v) is v, or v + 2^s - 1 for negative v, an s-bit number whose first bit tells the sign; the
bits of -v are those of v inverted. -/
def Obligations.MagnitudeBits : Prop :=
  ∀ v : Int, v ≠ 0 →
    (mag v : Int) = (if 0 < v then v else v + 2 ^ cat v - 1) ∧ mag v < 2 ^ cat v ∧
    ((mag v).testBit (cat v - 1) = true ↔ 0 < v) ∧
    codeBits (mag (-v)) (cat v) = (codeBits (mag v) (cat v)).map not

/-- 48_rom_tables.md rules R386 to R390: the DC tables have codes for exactly the symbols 0 to 11, the AC tables for exactly
EOB, ZRL and (r << 4) + s with s in 1..10; every code fits its length, at most 16 bits, and none is all ones. -/
def Obligations.CodeTablesHaveTheCodersSymbols : Prop :=
  (∀ sym : Fin 256, ((htDc .luma).lookup sym.val).isSome = decide (sym.val < 12) ∧
    ((htDc .chroma).lookup sym.val).isSome = decide (sym.val < 12)) ∧
  (∀ sym : Fin 256,
    let used := decide (sym.val = 0 ∨ sym.val = 0xF0 ∨ (1 ≤ sym.val % 16 ∧ sym.val % 16 ≤ 10))
    ((htAc .luma).lookup sym.val).isSome = used ∧ ((htAc .chroma).lookup sym.val).isSome = used) ∧
  (∀ t ∈ [htDc .luma, htAc .luma, htDc .chroma, htAc .chroma], ∀ p ∈ t,
    1 ≤ p.2.len ∧ p.2.len ≤ 16 ∧ p.2.code + 1 < 2 ^ p.2.len)

/-- 43_entropy.md rule R230, 46_sequencing.md rule R326: HUFF k, admitted, with ZZ written, a code for every category and
room for its bytes, completes: the emitted codes go through the bit writer, PRED[k] becomes ZZ[0], the sequence
advances; nothing else changes. -/
def Obligations.HuffCompletes : Prop :=
  ∀ (s : State) (zz : Block (BitVec 16)) (cs : List Code),
    (∀ i : Fin 64, bufRead s.zz i.val = some zz[i]) → s.phase = .headerWritten ∨ s.phase = .scanning →
    s.mcuDone.toNat < s.mcuTotal.toNat →
    let w := emitAll ⟨s.acc, s.count, []⟩ cs
    s.fifo.length + w.pending.length ≤ Config.outDepth →
    (s.nextComp = .y → blockCodes .y zz s.predY = .ok cs →
      exec .huffY s = .next { s with
        acc := w.acc, count := w.count, fifo := s.fifo ++ w.pending
        outTotal := s.outTotal + BitVec.ofNat 32 w.pending.length, predY := zz[0], phase := .scanning, nextComp := .cb
        intStatus := s.intStatus ||| 0b001, busy := false }) ∧
    (s.nextComp = .cb → blockCodes .cb zz s.predCb = .ok cs →
      exec .huffCb s = .next { s with
        acc := w.acc, count := w.count, fifo := s.fifo ++ w.pending
        outTotal := s.outTotal + BitVec.ofNat 32 w.pending.length, predCb := zz[0], phase := .scanning, nextComp := .cr
        intStatus := s.intStatus ||| 0b001, busy := false }) ∧
    (s.nextComp = .cr → blockCodes .cr zz s.predCr = .ok cs →
      exec .huffCr s = .next { s with
        acc := w.acc, count := w.count, fifo := s.fifo ++ w.pending
        outTotal := s.outTotal + BitVec.ofNat 32 w.pending.length, predCr := zz[0], phase := .scanning, nextComp := .y
        mcuDone := s.mcuDone + 1, intStatus := s.intStatus ||| 0b001, busy := false })

/-- 43_entropy.md rules R222, R224, R225, R226 (90_conflicts.md C4): a block is coded exactly when the DC difference has a
category of at most 11 and every AC coefficient one of at most 10; and then the codes are, in order: the DC symbol and, for
a nonzero difference, its magnitude; for each nonzero AC entry after r zeros, r / 16 ZRLs, the symbol of r mod 16 and the
category, and the magnitude; EOB exactly when position 63 is zero. -/
def Obligations.BlockCodesFollowTheRunLengthRules : Prop :=
  ∀ (k : Comp) (zz : Block (BitVec 16)) (pred : BitVec 16),
    let dc := htDc (classOf k)
    let ac := htAc (classOf k)
    let d := zz[0].toInt - pred.toInt
    ((∃ cs, blockCodes k zz pred = .ok cs) ↔ cat d ≤ 11 ∧ ∀ j : Fin 64, j ≠ 0 → cat zz[j].toInt ≤ 10) ∧
    ∀ cs, blockCodes k zz pred = .ok cs → cs =
      (if d = 0 then [codeOf dc 0] else [codeOf dc (cat d), ⟨mag d, cat d⟩]) ++
      ((List.finRange 64).flatMap fun j : Fin 64 =>
        if j = 0 ∨ zz[j] = 0 then []
        else
          let r := zerosBefore zz j.val
          let s := cat zz[j].toInt
          List.replicate (r / 16) (codeOf ac 0xF0) ++ [codeOf ac (16 * (r % 16) + s), ⟨mag zz[j].toInt, s⟩]) ++
      (if zz[63] = 0 then [codeOf ac 0x00] else [])

/-- 60_exceptions.md rules R402(4), R403; 43_entropy.md rules R222, R225; 46_sequencing.md rule R331: in HUFF k, on ZZ, and in
ENCBLK k, on its own zigzag block, FATAL_INVARIANT names the first coefficient in emission order whose category has no
code, the DC difference first, before any overflow. -/
def Obligations.FatalInvariantNamesTheFirstOffender : Prop :=
  ∀ (i : Instr) (k : Comp) (s : State) (zz : Block (BitVec 16)), codesBlock i k s zz → admitted i s = true →
    let d := zz[0].toInt - (predOf k s).toInt
    (11 < cat d → exec i s = .next (reject (.fatalInvariant 0 (cat d) k) s)) ∧
    (cat d ≤ 11 → ∀ j : Fin 64, j ≠ 0 → 10 < cat zz[j].toInt →
      (∀ m : Fin 64, m ≠ 0 → m < j → cat zz[m].toInt ≤ 10) →
      exec i s = .next (reject (.fatalInvariant j.val (cat zz[j].toInt) k) s))

/-! ### The bit writer -/

/-- 44_bitstream.md rules R261, R262; 20_memory.md rule R97: the bits a writer holds after some codes, its stuffing taken out,
are the bits it held before and then the codes' bits, most significant first. -/
def Obligations.BitWriterAppendsTheEmittedBits : Prop :=
  ∀ (acc : Byte) (count : BitVec 3) (cs : List Code), accClear acc count →
    writerBits (emitAll ⟨acc, count, []⟩ cs) = writerBits ⟨acc, count, []⟩ ++ codesBits cs

/-- 44_bitstream.md rule R266: in the bytes the bit writer pushes, the padding of FINISH included, every 0xFF is followed by
0x00. -/
def Obligations.EveryFFIsStuffed : Prop :=
  ∀ (acc : Byte) (count : BitVec 3) (cs : List Code),
    stuffed (emitAll ⟨acc, count, []⟩ cs).pending = true ∧
    stuffed (padToByte (emitAll ⟨acc, count, []⟩ cs)).pending = true

/-- 44_bitstream.md rule R267: n bits emitted from COUNT = c complete floor((c + n) / 8) bytes, leave COUNT = (c + n) mod 8, and
push one 0x00 more for each completed 0xFF. -/
def Obligations.BitCountOfACommand : Prop :=
  ∀ (acc : Byte) (count : BitVec 3) (cs : List Code),
    let w := emitAll ⟨acc, count, []⟩ cs
    let n := (codesBits cs).length
    w.count.toNat = (count.toNat + n) % 8 ∧ (unstuff w.pending).length = (count.toNat + n) / 8 ∧
    w.pending.length = (count.toNat + n) / 8 + (unstuff w.pending).count 0xFF

/-- 47_host_contract.md rule R361: a block pushes at most 416 bytes. -/
def Obligations.BlockPushesAtMost416Bytes : Prop :=
  ∀ (k : Comp) (zz : Block (BitVec 16)) (pred : BitVec 16) (acc : Byte) (count : BitVec 3) (cs : List Code),
    blockCodes k zz pred = .ok cs → (emitAll ⟨acc, count, []⟩ cs).pending.length ≤ 416

/-! ### Rejection -/

/-- 46_sequencing.md rule R332, 60_exceptions.md rules R400, R410: HUFF k, ENCBLK k, HEADER and FINISH without room for their
bytes are rejected with OUT_OVERFLOW and the number they need; issued again once the FIFO has room, each commits what it
would have committed. The bytes are the emitted codes', the header's 607, the padding's and EOI's 2 to 4. -/
def Obligations.OverflowKeepsTheStateAndRetries : Prop :=
  (∀ (i : Instr) (k : Comp) (s : State) (zz : Block (BitVec 16)) (cs : List Code),
    codesBlock i k s zz → admitted i s = true → blockCodes k zz (predOf k s) = .ok cs →
    let w := emitAll ⟨s.acc, s.count, []⟩ cs
    Config.outDepth < s.fifo.length + w.pending.length →
    rejectedThenRetried i s w.pending ∧
    let r := reject (.outOverflow w.pending.length) s
    ∀ f : List Byte, f.length + w.pending.length ≤ Config.outDepth →
      ∃ t, exec i { r with fifo := f } = .next t ∧ t.fifo = f ++ w.pending ∧ t.acc = w.acc ∧
        t.count = w.count ∧ predOf k t = zz[0] ∧ t.phase = .scanning ∧
        t.outTotal = s.outTotal + BitVec.ofNat 32 w.pending.length) ∧
  (∀ s : State, s.phase = .initialized → s.width ≠ 0 → s.height ≠ 0 → Config.outDepth < s.fifo.length + 607 →
    (headerBytes s.qt0 s.qt1 s.width s.height).length = 607 ∧
    rejectedThenRetried .header s (headerBytes s.qt0 s.qt1 s.width s.height)) ∧
  ∀ (s : State) (pad : List Byte), bitAccInv s → s.phase = .scanning → s.mcuDone = s.mcuTotal → s.nextComp = .y →
    (pad = if s.count = 0 then [] else
      let b := s.acc ||| BitVec.ofNat 8 (2 ^ (8 - s.count.toNat) - 1)
      if b = 0xFF then [0xFF, 0x00] else [b]) →
    Config.outDepth < s.fifo.length + pad.length + 2 →
    pad.length ≤ 2 ∧ rejectedThenRetried .finish s (pad ++ [0xFF, 0xD9])

/-- 60_exceptions.md rule R410: the whole effect of a rejection. -/
def Obligations.RejectionEffect : Prop :=
  ∀ (e : CmdError) (s : State),
    (s.phase ≠ .error → reject e s = { s with
      errCode := e.code, errCmd := s.cmdLatch, errDetail := e.detail
      phase := if e.code = .outOverflow then s.phase else .error
      intStatus := s.intStatus ||| 0b011, busy := false }) ∧
    (s.phase = .error → reject e s = { s with intStatus := s.intStatus ||| 0b011, busy := false })

/-- 60_exceptions.md rule R412: the layout of ERRDETAIL. -/
def Obligations.ErrorDetailLayout : Prop :=
  (∀ w h : Bool, let d := (CmdError.invalidInput w h).detail
    d.getLsbD 0 = w ∧ d.getLsbD 1 = h ∧ d.extractLsb' 2 30 = 0) ∧
  (∀ (pos cat : Nat) (k : Comp), pos < 64 → cat ≤ 16 →
    let d := (CmdError.fatalInvariant pos cat k).detail
    (d.extractLsb' 0 6).toNat = pos ∧ (d.extractLsb' 8 5).toNat = cat ∧ (d.extractLsb' 16 2).toNat = compCode k ∧
    d.extractLsb' 6 2 = 0 ∧ d.extractLsb' 13 3 = 0 ∧ d.extractLsb' 18 14 = 0) ∧
  (∀ n : Nat, n ≤ 607 → let d := (CmdError.outOverflow n).detail
    (d.extractLsb' 0 16).toNat = n ∧ d.extractLsb' 16 16 = 0) ∧
  CmdError.illegalCommand.detail = 0 ∧ CmdError.sequenceError.detail = 0

/-- 46_sequencing.md rules R322 to R324: the SEQ entries of the legality table; in every other entry the command is admitted
(`admitted`, which its own rule then runs under). -/
def Obligations.NotAdmittedIsSequenceError : Prop :=
  ∀ s : State,
    (s.phase ≠ .initialized → exec .header s = .next (reject .sequenceError s)) ∧
    (s.phase = .idle ∨ s.phase = .error → exec .fdctq0 s = .next (reject .sequenceError s) ∧
      exec .fdctq1 s = .next (reject .sequenceError s)) ∧
    (s.phase = .error → exec .zigzag s = .next (reject .sequenceError s)) ∧
    (∀ k : Comp, ¬(s.phase = .headerWritten ∨ s.phase = .scanning) ∨ k ≠ s.nextComp ∨
        s.mcuTotal.toNat ≤ s.mcuDone.toNat →
      exec (huffInstr k) s = .next (reject .sequenceError s) ∧
      exec (encblkInstr k) s = .next (reject .sequenceError s)) ∧
    (s.phase ≠ .scanning ∨ s.mcuDone ≠ s.mcuTotal ∨ s.nextComp ≠ .y →
      exec .finish s = .next (reject .sequenceError s)) ∧
    (admitted .nop s = true ∧ admitted .init s = true ∧ (s.phase = .initialized → admitted .header s = true) ∧
      (s.phase ≠ .idle → s.phase ≠ .error → admitted .fdctq0 s = true ∧ admitted .fdctq1 s = true) ∧
      (s.phase ≠ .error → admitted .zigzag s = true) ∧
      (s.phase = .headerWritten ∨ s.phase = .scanning → s.mcuDone.toNat < s.mcuTotal.toNat →
        admitted (huffInstr s.nextComp) s = true ∧ admitted (encblkInstr s.nextComp) s = true) ∧
      (s.phase = .scanning → s.mcuDone = s.mcuTotal → s.nextComp = .y → admitted .finish s = true))

/-! ### Frames -/

/-- The frame of FDCTQ and ZIGZAG, whether they commit or are rejected (41_fdct_quant.md rule R190, 42_zigzag.md rule R210,
60_exceptions.md rule R410): only COEF, respectively ZZ, the error record with STATE, INT_STATUS's DONE and ERR, and
BUSY may change. -/
def Obligations.TransformFrames : Prop :=
  (∀ (i : Instr) (s t : State), i = .fdctq0 ∨ i = .fdctq1 → exec i s = .next t →
    t = { s with
      coef := t.coef, phase := t.phase, errCode := t.errCode, errCmd := t.errCmd, errDetail := t.errDetail
      intStatus := t.intStatus, busy := false } ∧
    ((t.intStatus = s.intStatus ||| 0b001 ∧ t.phase = s.phase ∧ t.errCode = s.errCode) ∨
      (t.intStatus = s.intStatus ||| 0b011 ∧ t.coef = s.coef))) ∧
  (∀ s t : State, exec .zigzag s = .next t →
    t = { s with
      zz := t.zz, phase := t.phase, errCode := t.errCode, errCmd := t.errCmd, errDetail := t.errDetail
      intStatus := t.intStatus, busy := false } ∧
    ((t.intStatus = s.intStatus ||| 0b001 ∧ t.phase = s.phase ∧ t.errCode = s.errCode) ∨
      (t.intStatus = s.intStatus ||| 0b011 ∧ t.zz = s.zz)))

/-- The frame of HUFF k and ENCBLK k (43_entropy.md rules R223, R230; 46_sequencing.md rules R326, R331; 60_exceptions.md rule
R410): the other two predictors, SAMPLE, the tables, MCU_TOTAL, the host's registers and the bytes already in the FIFO
are unchanged, COEF and ZZ too by HUFF; and a rejection changes nothing but the record, INT_STATUS and BUSY. -/
def Obligations.CodingFrames : Prop :=
  ∀ (k : Comp) (s t : State),
    (exec (huffInstr k) s = .next t → t.coef = s.coef ∧ t.zz = s.zz) ∧
    (exec (huffInstr k) s = .next t ∨ exec (encblkInstr k) s = .next t →
      t = { s with
        acc := t.acc, count := t.count, fifo := t.fifo, outTotal := t.outTotal, predY := t.predY, predCb := t.predCb
        predCr := t.predCr, nextComp := t.nextComp, mcuDone := t.mcuDone, coef := t.coef, zz := t.zz
        phase := t.phase, errCode := t.errCode, errCmd := t.errCmd, errDetail := t.errDetail
        intStatus := t.intStatus, busy := false } ∧
      (∀ j : Comp, j ≠ k → predOf j t = predOf j s) ∧ (∃ bs, t.fifo = s.fifo ++ bs) ∧
      ((t.intStatus = s.intStatus ||| 0b001 ∧ t.errCode = s.errCode ∧ t.errCmd = s.errCmd ∧
          t.errDetail = s.errDetail) ∨
        (t.intStatus = s.intStatus ||| 0b011 ∧ sameImageState s t)))

/-- The frame of HEADER and FINISH (45_container.md rules R290, R295; 60_exceptions.md rule R410). -/
def Obligations.ContainerFrames : Prop :=
  (∀ s t : State, exec .header s = .next t →
    t = { s with
      fifo := t.fifo, outTotal := t.outTotal, mcuTotal := t.mcuTotal, phase := t.phase, errCode := t.errCode
      errCmd := t.errCmd, errDetail := t.errDetail, intStatus := t.intStatus, busy := false } ∧
    ((t.intStatus = s.intStatus ||| 0b001 ∧ t.errCode = s.errCode) ∨
      (t.intStatus = s.intStatus ||| 0b011 ∧ sameImageState s t))) ∧
  (∀ s t : State, exec .finish s = .next t →
    t = { s with
      acc := t.acc, count := t.count, fifo := t.fifo, outTotal := t.outTotal, phase := t.phase, errCode := t.errCode
      errCmd := t.errCmd, errDetail := t.errDetail, intStatus := t.intStatus, busy := false } ∧
    ((t.intStatus = s.intStatus ||| 0b001 ∧ t.errCode = s.errCode) ∨
      (t.intStatus = s.intStatus ||| 0b011 ∧ sameImageState s t)))

/-! ### ENCBLK and FINISH -/

/-- 46_sequencing.md rule R331: ENCBLK k, admitted, with every sample written, a code for every category and room for its
bytes, completes: COEF is FDCTQ class(k)'s result, ZZ its zigzag reorder, and the block is coded as HUFF k codes it. -/
def Obligations.EncblkCompletes : Prop :=
  ∀ (s : State) (x : Block Byte) (cs : List Code),
    (∀ i : Fin 64, bufRead s.sample i.val = some x[i]) → s.phase = .headerWritten ∨ s.phase = .scanning →
    s.mcuDone.toNat < s.mcuTotal.toNat →
    let w := emitAll ⟨s.acc, s.count, []⟩ cs
    s.fifo.length + w.pending.length ≤ Config.outDepth →
    (∀ coef zz, coef = fdctqResult x s.fs0 → (zz = tabulate fun j => coef[unzigzag j]) → s.nextComp = .y →
      blockCodes .y zz s.predY = .ok cs →
      exec .encblkY s = .next { s with
        coef := bufFill coef, zz := bufFill zz, acc := w.acc, count := w.count, fifo := s.fifo ++ w.pending
        outTotal := s.outTotal + BitVec.ofNat 32 w.pending.length, predY := zz[0], phase := .scanning, nextComp := .cb
        intStatus := s.intStatus ||| 0b001, busy := false }) ∧
    (∀ coef zz, coef = fdctqResult x s.fs1 → (zz = tabulate fun j => coef[unzigzag j]) → s.nextComp = .cb →
      blockCodes .cb zz s.predCb = .ok cs →
      exec .encblkCb s = .next { s with
        coef := bufFill coef, zz := bufFill zz, acc := w.acc, count := w.count, fifo := s.fifo ++ w.pending
        outTotal := s.outTotal + BitVec.ofNat 32 w.pending.length, predCb := zz[0], phase := .scanning, nextComp := .cr
        intStatus := s.intStatus ||| 0b001, busy := false }) ∧
    (∀ coef zz, coef = fdctqResult x s.fs1 → (zz = tabulate fun j => coef[unzigzag j]) → s.nextComp = .cr →
      blockCodes .cr zz s.predCr = .ok cs →
      exec .encblkCr s = .next { s with
        coef := bufFill coef, zz := bufFill zz, acc := w.acc, count := w.count, fifo := s.fifo ++ w.pending
        outTotal := s.outTotal + BitVec.ofNat 32 w.pending.length, predCr := zz[0], phase := .scanning, nextComp := .y
        mcuDone := s.mcuDone + 1, intStatus := s.intStatus ||| 0b001, busy := false })

/-- 46_sequencing.md rule R331, corner cases: FDCTQ class(k), ZIGZAG and HUFF k in turn, none of them rejected (ERR stays 0),
leave the state ENCBLK k leaves. -/
def Obligations.EncblkIsTheThreeStages : Prop :=
  ∀ (k : Comp) (s s1 s2 s3 : State),
    exec (fdctqInstr (classOf k)) s = .next s1 → exec .zigzag s1 = .next s2 → exec (huffInstr k) s2 = .next s3 →
    s3.intStatus.getLsbD 1 = false → exec (encblkInstr k) s = .next s3

/-- 45_container.md rule R295, 44_bitstream.md rule R264: FINISH, after the last MCU and with room for its bytes, completes:
a partial byte is filled with 1-bits and stuffed if it is 0xFF, EOI follows unstuffed, BITACC is 0. -/
def Obligations.FinishCompletes : Prop :=
  ∀ (s : State) (pad : List Byte), bitAccInv s → s.phase = .scanning → s.mcuDone = s.mcuTotal → s.nextComp = .y →
    (pad = if s.count = 0 then [] else
      let b := s.acc ||| BitVec.ofNat 8 (2 ^ (8 - s.count.toNat) - 1)
      if b = 0xFF then [0xFF, 0x00] else [b]) →
    s.fifo.length + pad.length + 2 ≤ Config.outDepth →
    exec .finish s = .next { s with
      fifo := s.fifo ++ pad ++ [0xFF, 0xD9], outTotal := s.outTotal + BitVec.ofNat 32 (pad.length + 2)
      acc := 0, count := 0, phase := .finalized, intStatus := s.intStatus ||| 0b001, busy := false }

/-! ### Whole-machine rules -/

/-- 46_sequencing.md rule R327: every transition of STATE by a command. -/
def Obligations.StateTransitions : Prop :=
  ∀ (i : Instr) (s t : State), exec i s = .next t →
    (∃ e : CmdError, t = reject e s ∧
      t.phase = if s.phase = .error ∨ e.code = .outOverflow then s.phase else .error) ∨
    (t.intStatus = s.intStatus ||| 0b001 ∧
      match i with
      | .init => t.phase = .initialized
      | .header => s.phase = .initialized ∧ t.phase = .headerWritten
      | .huffY | .huffCb | .huffCr | .encblkY | .encblkCb | .encblkCr =>
        (s.phase = .headerWritten ∨ s.phase = .scanning) ∧ t.phase = .scanning
      | .finish => s.phase = .scanning ∧ t.phase = .finalized
      | .nop | .fdctq0 | .fdctq1 | .zigzag => t.phase = s.phase)

/-- 60_exceptions.md rule R413, 46_sequencing.md rules R327, R328: ERROR is left only by INIT, or by reset; until then the
record names the first error. A step that ends in ERROR, the one that raised the error and every one that stays there,
leaves the counters, BITACC and the predictors as they were. -/
def Obligations.ErrorIsLeftOnlyByInitOrReset : Prop :=
  (∀ s t : State, step s = .next t → t.phase = .error →
    t.mcuTotal = s.mcuTotal ∧ t.mcuDone = s.mcuDone ∧ t.nextComp = s.nextComp ∧ t.outTotal = s.outTotal ∧
    t.acc = s.acc ∧ t.count = s.count ∧ t.predY = s.predY ∧ t.predCb = s.predCb ∧ t.predCr = s.predCr) ∧
  ∀ s t : State, s.phase = .error → step s = .next t →
    (t.phase = .error ∧ t.errCode = s.errCode ∧ t.errCmd = s.errCmd ∧ t.errDetail = s.errDetail) ∨
    (s.busy = true ∧ decode s.cmdLatch = .ok .init ∧ t.phase = .initialized ∧ t.errCode = .none) ∨
    ((∃ rest, s.agenda = .reset :: rest) ∧ t.phase = .idle)

/-- 20_memory.md rule R107, 10_state.md rule R71: every step adds bytes at the FIFO's end, or takes the oldest and returns it
to the host, or empties it (INIT, reset). -/
def Obligations.FifoIsFirstInFirstOut : Prop :=
  ∀ s t : State, step s = .next t →
    (∃ bs : List Byte, t.fifo = s.fifo ++ bs) ∨
    (∃ b : Byte, s.fifo = b :: t.fifo ∧ s.busy = false ∧ t.replies = (0#23 ++ 1#1 ++ b) :: s.replies) ∨
    (t.fifo = [] ∧ ((s.busy = true ∧ decode s.cmdLatch = .ok .init) ∨ ∃ rest, s.agenda = .reset :: rest))

/-- 20_memory.md rule R105: while BUSY = 1 no access of the host changes the latched command or any of its inputs, nor
anything of the block but INT_STATUS and INT_ENABLE. -/
def Obligations.CommandCoherence : Prop :=
  ∀ (s t : State) (a : HostAccess) (rest : List Turn), s.busy = true → s.agenda = .host a :: rest →
    step s = .next t →
    t = { s with
      agenda := rest, intStatus := t.intStatus, intEnable := t.intEnable, replies := t.replies, draws := t.draws }

/-- Every step keeps the three buffers in canonical form. -/
def Obligations.StepKeepsMemoryCanonical : Prop :=
  ∀ s t : State, memoryInv s → step s = .next t → memoryInv t

/-- 46_sequencing.md rule R328, 44_bitstream.md rule R260: every step keeps the sequencing invariants and the bit
accumulator's. -/
def Obligations.StepKeepsTheSequencingInvariants : Prop :=
  ∀ s t : State, sequencingInv s ∧ bitAccInv s → step s = .next t → sequencingInv t ∧ bitAccInv t

/-- 10_state.md rules R38, R70; 40_tables.md rules R150, R153; 46_sequencing.md rule R322: every step keeps QUALITY in 1..100,
keeps the tables built wherever FDCTQ is admitted, and never records CONFIG_ERROR. -/
def Obligations.StepKeepsTablesAndRegisters : Prop :=
  ∀ s t : State, qualityInv s ∧ tablesInv s ∧ s.errCode ≠ .configError → step s = .next t →
    qualityInv t ∧ tablesInv t ∧ t.errCode ≠ .configError

/-! ### The host contract -/

/-- 47_host_contract.md rule R353: the colour transform is the three formulas, its shifted numerators are non-negative, and
every result is an int8 sample. -/
def Obligations.ColourTransformIsInRange : Prop :=
  ∀ r g b : Byte,
    let p := ycc r g b
    (∃ n : Nat, (n : Int) = 19595 * r.toNat + 38470 * g.toNat + 7471 * b.toNat + 32768 ∧
      p.y = ((n >>> 16 : Nat) : Int) - 128 ∧ n < 2 ^ 24) ∧
    (∃ n : Nat, (n : Int) = -11059 * r.toNat - 21709 * g.toNat + 32768 * b.toNat + 0x807FFF ∧
      p.cb = ((n >>> 16 : Nat) : Int) - 128 ∧ n < 2 ^ 24) ∧
    (∃ n : Nat, (n : Int) = 32768 * r.toNat - 27439 * g.toNat - 5329 * b.toNat + 0x807FFF ∧
      p.cr = ((n >>> 16 : Nat) : Int) - 128 ∧ n < 2 ^ 24) ∧
    -128 ≤ p.y ∧ p.y ≤ 127 ∧ -128 ≤ p.cb ∧ p.cb ≤ 127 ∧ -128 ≤ p.cr ∧ p.cr ≤ 127
end

