-- ==== Sys2Proof/Laws/Binary64.lean ====
section
/-! SUPPORT. The binary64 arithmetic: the highest bit computed by halving is Nat.log2. -/

namespace Sys2Proof.Machine

theorem topBitFrom_eq_log2 (k n : Nat) (h : n < 2 ^ 2 ^ k) : topBitFrom k n = Nat.log2 n := by
  induction k generalizing n with
  | zero =>
    have : n = 0 ∨ n = 1 := by simp at h; omega
    rcases this with rfl | rfl <;> decide
  | succ k ih =>
    simp only [topBitFrom, Nat.one_shiftLeft, Nat.shiftRight_eq_div_pow]
    have hp : 0 < 2 ^ 2 ^ k := by positivity
    split
    · rename_i h0
      exact ih n ((Nat.div_eq_zero_iff_lt hp).1 h0)
    · rename_i h0
      have hlt : n / 2 ^ 2 ^ k < 2 ^ 2 ^ k := by
        rw [Nat.div_lt_iff_lt_mul hp, ← Nat.pow_add, ← Nat.two_mul, ← Nat.pow_succ']
        exact h
      have hn : n ≠ 0 := by
        rintro rfl
        simp at h0
      rw [ih _ hlt]
      symm
      rw [Nat.log2_eq_iff hn]
      have hq := (Nat.log2_eq_iff h0).1 rfl
      generalize Nat.log2 (n / 2 ^ 2 ^ k) = m at hq
      have h1 := Nat.div_mul_le_self n (2 ^ 2 ^ k)
      have h2 := Nat.lt_div_mul_add hp (a := n)
      constructor
      · rw [Nat.pow_add]
        nlinarith [Nat.mul_le_mul_right (2 ^ 2 ^ k) hq.1]
      · rw [Nat.add_assoc, Nat.pow_add]
        nlinarith [Nat.mul_le_mul_right (2 ^ 2 ^ k) (Nat.succ_le_of_lt hq.2)]

/-- The highest bit of a number below 2^4096. -/
theorem topBit_eq_log2 (n : Nat) (h : n < 2 ^ 2 ^ 12) : topBit n = Nat.log2 n :=
  topBitFrom_eq_log2 12 n h

end Sys2Proof.Machine
end

