-- ==== Sys2Proof/Laws/BitWriter.lean ====
section
/-! SUPPORT. The bit writer: what emitting bits does to the bits held, the stuffing and the counts (44_bitstream.md). -/

namespace Sys2Proof.Machine

/-- Well-stuffed bytes may be taken apart from what follows them. -/
theorem unstuff_append (p q : List Byte) (h : stuffed p = true) : unstuff (p ++ q) = unstuff p ++ unstuff q := by
  induction p using unstuff.induct with
  | case1 => rfl
  | case2 b =>
    have hb : b ≠ 255#8 := by simpa [stuffed] using h
    cases q with
    | nil => rfl
    | cons c q => simp [unstuff, hb]
  | case3 b c rest hbc ih =>
    obtain ⟨rfl, rfl⟩ := hbc
    have hr : stuffed rest = true := by
      cases rest with
      | nil => rfl
      | cons d rest => simpa [stuffed] using h
    simp [unstuff, ih hr]
  | case4 b c rest hbc ih =>
    have h' : (b != 0xFF || c == 0x00) = true ∧ stuffed (c :: rest) = true := by simpa [stuffed] using h
    have := ih h'.2
    simp only [List.cons_append] at this ⊢
    rw [unstuff, if_neg hbc, this, unstuff, if_neg hbc]
    rfl

/-- What CompleteByte appends for one byte. -/
def completed (b : Byte) : List Byte := if b = 0xFF then [0xFF, 0x00] else [b]

theorem completeByte_pending (b : Byte) (w : BitWriter) :
    completeByte b w = { w with pending := w.pending ++ completed b } := by
  unfold completeByte completed pushByte
  split
  · rename_i h
    subst h
    simp
  · rfl

@[simp] theorem unstuff_completed (b : Byte) : unstuff (completed b) = [b] := by
  unfold completed
  split
  · rename_i h
    subst h
    rfl
  · rfl

theorem stuffed_append (p q : List Byte) (h : stuffed p = true) (hq : stuffed q = true) : stuffed (p ++ q) = true := by
  induction p using stuffed.induct with
  | case1 => exact hq
  | case2 b =>
    have hb : b ≠ 255#8 := by simpa [stuffed] using h
    cases q with
    | nil => exact h
    | cons c q => simp [stuffed, hb, hq]
  | case3 b c rest ih =>
    simp only [stuffed, Bool.and_eq_true, List.cons_append] at h ⊢
    exact ⟨h.1, ih h.2⟩

theorem stuffed_completed (b : Byte) : stuffed (completed b) = true := by
  unfold completed
  split
  · rfl
  · rename_i h
    have h : b ≠ 255#8 := h
    simp [stuffed, h]

/-- The partial byte's first bits. -/
theorem byteBits_emit (acc : Byte) (count : BitVec 3) (bit : Bool) (h : accClear acc count) :
    (byteBits (acc ||| (BitVec.ofNat 8 bit.toNat <<< (7 - count.toNat)))).take (count.toNat + 1) =
      (byteBits acc).take count.toNat ++ [bit] := by
  unfold accClear at h
  revert h
  revert acc count bit
  decide +kernel

theorem accClear_emit (acc : Byte) (count : BitVec 3) (bit : Bool) (h : accClear acc count) (h7 : count ≠ 7) :
    accClear (acc ||| (BitVec.ofNat 8 bit.toNat <<< (7 - count.toNat))) (count + 1) := by
  unfold accClear at *
  revert h h7
  revert acc count bit
  decide +kernel

/-- What holds of a running command's writer: its free bits are 0, its pending bytes well stuffed. -/
def writerOk (w : BitWriter) : Prop := accClear w.acc w.count ∧ stuffed w.pending = true

theorem stuffed_emitBit (w : BitWriter) (bit : Bool) (h : stuffed w.pending = true) :
    stuffed (emitBit w bit).pending = true := by
  unfold emitBit
  dsimp only
  split
  · rw [completeByte_pending]
    exact stuffed_append _ _ h (stuffed_completed _)
  · exact h

theorem writerOk_emitBit (w : BitWriter) (bit : Bool) (h : writerOk w) : writerOk (emitBit w bit) := by
  refine ⟨?_, stuffed_emitBit w bit h.2⟩
  unfold emitBit
  dsimp only
  split
  · rfl
  · rename_i h7
    exact accClear_emit _ _ _ h.1 h7

/-- One bit emitted is one bit more. -/
theorem writerBits_emitBit (w : BitWriter) (bit : Bool) (h : writerOk w) :
    writerBits (emitBit w bit) = writerBits w ++ [bit] := by
  have he := byteBits_emit w.acc w.count bit h.1
  unfold emitBit writerBits
  dsimp only
  split
  · rename_i h7
    rw [h7] at he ⊢
    rw [completeByte_pending]
    simp only [unstuff_append _ _ h.2, List.flatMap_append, unstuff_completed, List.flatMap_cons, List.flatMap_nil, List.append_nil, List.append_assoc]
    congr 1
  · rename_i h7
    have hc : (w.count + 1).toNat = w.count.toNat + 1 := by
      revert h7
      generalize w.count = c
      revert c
      decide
    simp only [hc, he, List.append_assoc]

theorem writerOk_foldl (bits : List Bool) (w : BitWriter) (h : writerOk w) : writerOk (bits.foldl emitBit w) := by
  induction bits generalizing w with
  | nil => exact h
  | cons b bs ih => exact ih _ (writerOk_emitBit w b h)

theorem writerBits_foldl (bits : List Bool) (w : BitWriter) (h : writerOk w) :
    writerBits (bits.foldl emitBit w) = writerBits w ++ bits := by
  induction bits generalizing w with
  | nil => simp
  | cons b bs ih =>
    rw [List.foldl_cons, ih _ (writerOk_emitBit w b h), writerBits_emitBit w b h]
    simp

theorem emitAll_eq_foldl (cs : List Code) (w : BitWriter) : emitAll w cs = (codesBits cs).foldl emitBit w := by
  induction cs generalizing w with
  | nil => rfl
  | cons c cs ih =>
    show emitAll (emit w c) cs = _
    rw [ih]
    simp only [codesBits, List.flatMap_cons, List.foldl_append]
    rfl
/-- The pending bytes and COUNT after any bits: the bits counted from COUNT, 8 a byte. -/
theorem count_emitBit (w : BitWriter) (bit : Bool) (h : stuffed w.pending = true) :
    8 * (unstuff (emitBit w bit).pending).length + (emitBit w bit).count.toNat =
      8 * (unstuff w.pending).length + w.count.toNat + 1 := by
  unfold emitBit
  dsimp only
  split
  · rename_i h7
    rw [completeByte_pending]
    simp only [unstuff_append _ _ h, unstuff_completed, List.length_append, h7]
    simp; omega
  · rename_i h7
    have hc : (w.count + 1).toNat = w.count.toNat + 1 := by
      revert h7
      generalize w.count = c
      revert c
      decide
    simp only [hc]
    omega
theorem count_foldl (bits : List Bool) (w : BitWriter) (h : stuffed w.pending = true) :
    8 * (unstuff (bits.foldl emitBit w).pending).length + (bits.foldl emitBit w).count.toNat =
      8 * (unstuff w.pending).length + w.count.toNat + bits.length := by
  induction bits generalizing w with
  | nil => rfl
  | cons b bs ih => 
    rw [List.foldl_cons, ih _ (stuffed_emitBit w b h), count_emitBit w b h, List.length_cons]
    omega
theorem stuffed_foldl (bits : List Bool) (w : BitWriter) (h : stuffed w.pending = true) : stuffed (bits.foldl emitBit w).pending = true := by
  induction bits generalizing w with
  | nil => exact h
  | cons b bs ih => exact ih _ (stuffed_emitBit w b h)
theorem length_unstuff (p : List Byte) (h : stuffed p = true) : p.length = (unstuff p).length + (unstuff p).count 0xFF := by
  induction p using unstuff.induct with
  | case1 => rfl
  | case2 b => have hb : b ≠ 255#8 := by simpa [stuffed] using h
               simp [unstuff, hb]
  | case3 b c rest hbc ih =>
    obtain ⟨rfl, rfl⟩ := hbc
    have hr : stuffed rest = true := by
      cases rest with
      | nil => rfl
      | cons d rest => simpa [stuffed] using h
    simp [unstuff, ih hr]; omega
  | case4 b c rest hbc ih =>
    have h' : (b != 0xFF || c == 0x00) = true ∧ stuffed (c :: rest) = true := by simpa [stuffed] using h
    have hb : b ≠ 0xFF := by
      rintro rfl
      have := h'.1; simp at this; exact hbc ⟨rfl, this⟩
    rw [unstuff, if_neg hbc, List.length_cons, ih h'.2, List.length_cons, List.count_cons_of_ne hb]
    omega

/-- A writer whose free bits are 0 and whose COUNT is 0 has ACC 0. -/
theorem accClear_zero {acc : Byte} (h : accClear acc 0) : acc = 0 := by
  unfold accClear at h
  have := acc.isLt
  apply BitVec.eq_of_toNat_eq
  simp at h ⊢
  omega

end Sys2Proof.Machine
end

