-- ==== Sys2Proof/Laws/Container.lean ====
section
/-! SUPPORT. The lengths of the header's segments (45_container.md), and what the padding of FINISH leaves. -/

namespace Sys2Proof.Machine

theorem soiBytes_length : soiBytes.length = 2 := rfl
theorem app0Bytes_length : app0Bytes.length = 18 := rfl
theorem dhtBytes_length : dhtBytes.length = 420 := by decide +kernel
theorem sosBytes_length : sosBytes.length = 14 := rfl
theorem eoiBytes_length : eoiBytes.length = 2 := rfl

theorem dqtBytes_length (qt0 qt1 : Block Byte) : (dqtBytes qt0 qt1).length = 134 := by
  simp only [dqtBytes, bytesOf, List.length_append, List.length_map, Vector.length_toList, List.length_cons, List.length_nil]

theorem sof0Bytes_length (w h : BitVec 16) : (sof0Bytes w h).length = 19 := rfl

theorem headerBytes_length (qt0 qt1 : Block Byte) (w h : BitVec 16) : (headerBytes qt0 qt1 w h).length = 607 := by
  simp only [headerBytes, List.length_append, soiBytes_length, app0Bytes_length, dqtBytes_length, sof0Bytes_length,
    dhtBytes_length, sosBytes_length]

/-- The padding of a partial byte (44_bitstream.md rule R264), on a writer with no byte pending. -/
theorem padToByte_fresh (acc : Byte) (count : BitVec 3) (h : accClear acc count) :
    padToByte ⟨acc, count, []⟩ =
      { acc := 0, count := 0
        pending := if count = 0 then [] else completed (acc ||| BitVec.ofNat 8 (2 ^ (8 - count.toNat) - 1)) } := by
  unfold accClear at h
  revert h
  revert acc count
  decide +kernel

end Sys2Proof.Machine
end

