-- ==== Sys2Proof/Laws/Entropy.lean ====
section
/-! SUPPORT. The end of block position and the run-length walk of the entropy coder (43_entropy.md rules R224, R225). -/

namespace Sys2Proof.Machine

theorem endPos_le (l : List (BitVec 16)) : endPos l ≤ l.length := by
  induction l with
  | nil => exact Nat.le_refl _
  | cons v vs ih =>
    simp only [endPos, List.length_cons]
    split
    · omega
    · split <;> omega

/-- The end of block position is the last position exactly when its entry is nonzero. -/
theorem endPos_eq_last (l : List (BitVec 16)) (n : Nat) (hl : l.length = n + 1) :
    endPos l = n + 1 ↔ l.getD n 0 ≠ 0 := by
  induction l generalizing n with
  | nil => simp at hl
  | cons v vs ih =>
    cases n with
    | zero =>
      obtain rfl : vs = [] := by simpa using hl
      simp [endPos]
    | succ n =>
      simp only [endPos, List.getD_cons_succ, ← ih n (by simpa using hl)]
      split
      · omega
      · rename_i h
        split <;> omega

/-- The entries from the end of block position on are zero. -/
theorem getD_of_endPos_le (l : List (BitVec 16)) (i : Nat) (h : endPos l ≤ i) : l.getD i 0 = 0 := by
  induction l generalizing i with
  | nil => rfl
  | cons v vs ih =>
    simp only [endPos] at h
    split at h
    · obtain ⟨j, rfl⟩ : ∃ j, i = j + 1 := ⟨i - 1, by omega⟩
      rw [List.getD_cons_succ]
      exact ih j (by omega)
    · rename_i he
      split at h
      · obtain ⟨j, rfl⟩ : ∃ j, i = j + 1 := ⟨i - 1, by omega⟩
        rw [List.getD_cons_succ]
        exact ih j (by omega)
      · rename_i hv
        cases i with
        | zero => simpa using hv
        | succ j =>
          rw [List.getD_cons_succ]
          exact ih j (by omega)

/-- A zero entry lengthens the run. -/
theorem acWalk_zero (k : Comp) (j run : Nat) (vs : List (BitVec 16)) :
    acWalk k j run (0 :: vs) = acWalk k (j + 1) (run + 1) vs := by simp [acWalk]

/-- Everything the walk can do at a nonzero entry: its category has no code, or the rest of the walk fails, or the ZRLs,
the symbol and the magnitude come before the rest's codes. -/
theorem acWalk_nonzero (k : Comp) (j run : Nat) {v : BitVec 16} (vs : List (BitVec 16)) (hv : v ≠ 0) :
    (10 < cat v.toInt ∧ acWalk k j run (v :: vs) = .error (.fatalInvariant j (cat v.toInt) k)) ∨
    (cat v.toInt ≤ 10 ∧ ∃ e, acWalk k (j + 1) 0 vs = .error e ∧ acWalk k j run (v :: vs) = .error e) ∨
    (cat v.toInt ≤ 10 ∧ ∃ cs, acWalk k (j + 1) 0 vs = .ok cs ∧ acWalk k j run (v :: vs) =
      .ok (List.replicate (run / 16) (codeOf (htAc (classOf k)) 0xF0) ++
        codeOf (htAc (classOf k)) (16 * (run % 16) + cat v.toInt) :: ⟨mag v.toInt, cat v.toInt⟩ :: cs)) := by
  simp only [acWalk, if_neg hv]
  split
  · rename_i h
    exact .inl ⟨h, rfl⟩
  · rename_i h
    split
    · rename_i e he
      exact .inr (.inl ⟨by omega, e, he, rfl⟩)
    · rename_i cs hc
      exact .inr (.inr ⟨by omega, cs, hc, rfl⟩)

end Sys2Proof.Machine
end

