-- ==== Sys2Proof/Laws/HostContract.lean ====
section
/-! SUPPORT. Everything a move of host and block can do. -/

namespace Sys2Proof.Machine

/-- Everything the host's move can do when it gives a next system: nothing, its program being over, or its next access,
after which it goes on by what the access returned. -/
theorem hostMove_next {y z : System} (h : hostMove y = .next z) :
    (y.host.ops = [] ∧ z = y) ∨
    ∃ op rest, y.host.ops = op :: rest ∧ hostAccess (accessOf op) y.block = .next z.block ∧
      z.host = afterOp op rest (z.block.replies.headD 0) y.host := by
  unfold hostMove at h
  split at h
  · rename_i ho
    exact .inl ⟨ho, (Host.Outcome.next.inj h).symm⟩
  · rename_i op rest ho
    split at h
    · rename_i t ht
      obtain rfl := Host.Outcome.next.inj h
      exact .inr ⟨op, rest, ho, ht, rfl⟩
    · cases h
    · cases h

/-- Everything a move can do when it gives a next system. -/
theorem systemMove_next {who : Mover} {y z : System} (h : systemMove who y = .next z) :
    hostMove y = .next z ∨ (coreTurn y.block = .next z.block ∧ z.host = y.host) := by
  cases who with
  | host => exact .inl h
  | core =>
    simp only [systemMove] at h
    split at h
    · rename_i t ht
      obtain rfl := Host.Outcome.next.inj h
      exact .inr ⟨ht, rfl⟩
    · cases h
    · cases h

/-- The moves of two runs, one after the other. -/
theorem systemRun_append (p q : List Mover) (y z : System) (h : systemRun p y = .next z) :
    systemRun (p ++ q) y = systemRun q z := by
  induction p generalizing y with
  | nil => rw [Host.Outcome.next.inj h, List.nil_append]
  | cons who p ih =>
    simp only [List.cons_append, systemRun] at h ⊢
    split at h
    · rename_i x _
      exact ih x h
    · cases h
    · cases h

/-- The host's action on a rejection, by the error (47_host_contract.md rule R364). -/
theorem hostAction_errCodeNumber (e : CmdError) :
    hostAction (errCodeNumber e.code) = match e with
      | .invalidInput _ _ => .invalidInputError
      | .fatalInvariant _ _ _ => .fatalInvariantError
      | .illegalCommand => .abort
      | .sequenceError => .abort
      | .outOverflow _ => .drainAndReissue := by
  cases e <;> rfl

end Sys2Proof.Machine
end

