-- ==== Sys2Proof/Laws/State.lean ====
section
/-! SUPPORT. One lemma per field per named update of the state, so that no proof unfolds a record update. -/

namespace Sys2Proof.Machine

@[simp] theorem complete_busy (s : State) : (complete s).busy = false := rfl
@[simp] theorem complete_phase (s : State) : (complete s).phase = s.phase := rfl
@[simp] theorem complete_nextComp (s : State) : (complete s).nextComp = s.nextComp := rfl
@[simp] theorem complete_errCode (s : State) : (complete s).errCode = s.errCode := rfl
@[simp] theorem complete_cmdLatch (s : State) : (complete s).cmdLatch = s.cmdLatch := rfl
@[simp] theorem complete_quality (s : State) : (complete s).quality = s.quality := rfl
@[simp] theorem complete_width (s : State) : (complete s).width = s.width := rfl
@[simp] theorem complete_height (s : State) : (complete s).height = s.height := rfl
@[simp] theorem complete_scale (s : State) : (complete s).scale = s.scale := rfl
@[simp] theorem complete_intStatus (s : State) : (complete s).intStatus = s.intStatus ||| intDone := rfl
@[simp] theorem complete_intEnable (s : State) : (complete s).intEnable = s.intEnable := rfl
@[simp] theorem complete_errCmd (s : State) : (complete s).errCmd = s.errCmd := rfl
@[simp] theorem complete_errDetail (s : State) : (complete s).errDetail = s.errDetail := rfl
@[simp] theorem complete_predY (s : State) : (complete s).predY = s.predY := rfl
@[simp] theorem complete_predCb (s : State) : (complete s).predCb = s.predCb := rfl
@[simp] theorem complete_predCr (s : State) : (complete s).predCr = s.predCr := rfl
@[simp] theorem complete_acc (s : State) : (complete s).acc = s.acc := rfl
@[simp] theorem complete_count (s : State) : (complete s).count = s.count := rfl
@[simp] theorem complete_mcuTotal (s : State) : (complete s).mcuTotal = s.mcuTotal := rfl
@[simp] theorem complete_mcuDone (s : State) : (complete s).mcuDone = s.mcuDone := rfl
@[simp] theorem complete_outTotal (s : State) : (complete s).outTotal = s.outTotal := rfl
@[simp] theorem complete_fifo (s : State) : (complete s).fifo = s.fifo := rfl
@[simp] theorem complete_sample (s : State) : (complete s).sample = s.sample := rfl
@[simp] theorem complete_coef (s : State) : (complete s).coef = s.coef := rfl
@[simp] theorem complete_zz (s : State) : (complete s).zz = s.zz := rfl
@[simp] theorem complete_qt0 (s : State) : (complete s).qt0 = s.qt0 := rfl
@[simp] theorem complete_qt1 (s : State) : (complete s).qt1 = s.qt1 := rfl
@[simp] theorem complete_fs0 (s : State) : (complete s).fs0 = s.fs0 := rfl
@[simp] theorem complete_fs1 (s : State) : (complete s).fs1 = s.fs1 := rfl
@[simp] theorem complete_agenda (s : State) : (complete s).agenda = s.agenda := rfl
@[simp] theorem complete_replies (s : State) : (complete s).replies = s.replies := rfl
@[simp] theorem complete_draws (s : State) : (complete s).draws = s.draws := rfl

@[simp] theorem setErr_busy (s : State) : (setErr s).busy = s.busy := rfl
@[simp] theorem setErr_phase (s : State) : (setErr s).phase = s.phase := rfl
@[simp] theorem setErr_nextComp (s : State) : (setErr s).nextComp = s.nextComp := rfl
@[simp] theorem setErr_errCode (s : State) : (setErr s).errCode = s.errCode := rfl
@[simp] theorem setErr_cmdLatch (s : State) : (setErr s).cmdLatch = s.cmdLatch := rfl
@[simp] theorem setErr_quality (s : State) : (setErr s).quality = s.quality := rfl
@[simp] theorem setErr_width (s : State) : (setErr s).width = s.width := rfl
@[simp] theorem setErr_height (s : State) : (setErr s).height = s.height := rfl
@[simp] theorem setErr_scale (s : State) : (setErr s).scale = s.scale := rfl
@[simp] theorem setErr_intStatus (s : State) : (setErr s).intStatus = s.intStatus ||| intErr := rfl
@[simp] theorem setErr_intEnable (s : State) : (setErr s).intEnable = s.intEnable := rfl
@[simp] theorem setErr_errCmd (s : State) : (setErr s).errCmd = s.errCmd := rfl
@[simp] theorem setErr_errDetail (s : State) : (setErr s).errDetail = s.errDetail := rfl
@[simp] theorem setErr_predY (s : State) : (setErr s).predY = s.predY := rfl
@[simp] theorem setErr_predCb (s : State) : (setErr s).predCb = s.predCb := rfl
@[simp] theorem setErr_predCr (s : State) : (setErr s).predCr = s.predCr := rfl
@[simp] theorem setErr_acc (s : State) : (setErr s).acc = s.acc := rfl
@[simp] theorem setErr_count (s : State) : (setErr s).count = s.count := rfl
@[simp] theorem setErr_mcuTotal (s : State) : (setErr s).mcuTotal = s.mcuTotal := rfl
@[simp] theorem setErr_mcuDone (s : State) : (setErr s).mcuDone = s.mcuDone := rfl
@[simp] theorem setErr_outTotal (s : State) : (setErr s).outTotal = s.outTotal := rfl
@[simp] theorem setErr_fifo (s : State) : (setErr s).fifo = s.fifo := rfl
@[simp] theorem setErr_sample (s : State) : (setErr s).sample = s.sample := rfl
@[simp] theorem setErr_coef (s : State) : (setErr s).coef = s.coef := rfl
@[simp] theorem setErr_zz (s : State) : (setErr s).zz = s.zz := rfl
@[simp] theorem setErr_qt0 (s : State) : (setErr s).qt0 = s.qt0 := rfl
@[simp] theorem setErr_qt1 (s : State) : (setErr s).qt1 = s.qt1 := rfl
@[simp] theorem setErr_fs0 (s : State) : (setErr s).fs0 = s.fs0 := rfl
@[simp] theorem setErr_fs1 (s : State) : (setErr s).fs1 = s.fs1 := rfl
@[simp] theorem setErr_agenda (s : State) : (setErr s).agenda = s.agenda := rfl
@[simp] theorem setErr_replies (s : State) : (setErr s).replies = s.replies := rfl
@[simp] theorem setErr_draws (s : State) : (setErr s).draws = s.draws := rfl

@[simp] theorem setWovr_busy (s : State) : (setWovr s).busy = s.busy := rfl
@[simp] theorem setWovr_phase (s : State) : (setWovr s).phase = s.phase := rfl
@[simp] theorem setWovr_nextComp (s : State) : (setWovr s).nextComp = s.nextComp := rfl
@[simp] theorem setWovr_errCode (s : State) : (setWovr s).errCode = s.errCode := rfl
@[simp] theorem setWovr_cmdLatch (s : State) : (setWovr s).cmdLatch = s.cmdLatch := rfl
@[simp] theorem setWovr_quality (s : State) : (setWovr s).quality = s.quality := rfl
@[simp] theorem setWovr_width (s : State) : (setWovr s).width = s.width := rfl
@[simp] theorem setWovr_height (s : State) : (setWovr s).height = s.height := rfl
@[simp] theorem setWovr_scale (s : State) : (setWovr s).scale = s.scale := rfl
@[simp] theorem setWovr_intStatus (s : State) : (setWovr s).intStatus = s.intStatus ||| intWovr := rfl
@[simp] theorem setWovr_intEnable (s : State) : (setWovr s).intEnable = s.intEnable := rfl
@[simp] theorem setWovr_errCmd (s : State) : (setWovr s).errCmd = s.errCmd := rfl
@[simp] theorem setWovr_errDetail (s : State) : (setWovr s).errDetail = s.errDetail := rfl
@[simp] theorem setWovr_predY (s : State) : (setWovr s).predY = s.predY := rfl
@[simp] theorem setWovr_predCb (s : State) : (setWovr s).predCb = s.predCb := rfl
@[simp] theorem setWovr_predCr (s : State) : (setWovr s).predCr = s.predCr := rfl
@[simp] theorem setWovr_acc (s : State) : (setWovr s).acc = s.acc := rfl
@[simp] theorem setWovr_count (s : State) : (setWovr s).count = s.count := rfl
@[simp] theorem setWovr_mcuTotal (s : State) : (setWovr s).mcuTotal = s.mcuTotal := rfl
@[simp] theorem setWovr_mcuDone (s : State) : (setWovr s).mcuDone = s.mcuDone := rfl
@[simp] theorem setWovr_outTotal (s : State) : (setWovr s).outTotal = s.outTotal := rfl
@[simp] theorem setWovr_fifo (s : State) : (setWovr s).fifo = s.fifo := rfl
@[simp] theorem setWovr_sample (s : State) : (setWovr s).sample = s.sample := rfl
@[simp] theorem setWovr_coef (s : State) : (setWovr s).coef = s.coef := rfl
@[simp] theorem setWovr_zz (s : State) : (setWovr s).zz = s.zz := rfl
@[simp] theorem setWovr_qt0 (s : State) : (setWovr s).qt0 = s.qt0 := rfl
@[simp] theorem setWovr_qt1 (s : State) : (setWovr s).qt1 = s.qt1 := rfl
@[simp] theorem setWovr_fs0 (s : State) : (setWovr s).fs0 = s.fs0 := rfl
@[simp] theorem setWovr_fs1 (s : State) : (setWovr s).fs1 = s.fs1 := rfl
@[simp] theorem setWovr_agenda (s : State) : (setWovr s).agenda = s.agenda := rfl
@[simp] theorem setWovr_replies (s : State) : (setWovr s).replies = s.replies := rfl
@[simp] theorem setWovr_draws (s : State) : (setWovr s).draws = s.draws := rfl

@[simp] theorem recordError_busy (e : CmdError) (s : State) : (recordError e s).busy = s.busy := rfl
@[simp] theorem recordError_phase (e : CmdError) (s : State) : (recordError e s).phase = if e.entersError then .error else s.phase := rfl
@[simp] theorem recordError_nextComp (e : CmdError) (s : State) : (recordError e s).nextComp = s.nextComp := rfl
@[simp] theorem recordError_errCode (e : CmdError) (s : State) : (recordError e s).errCode = e.code := rfl
@[simp] theorem recordError_cmdLatch (e : CmdError) (s : State) : (recordError e s).cmdLatch = s.cmdLatch := rfl
@[simp] theorem recordError_quality (e : CmdError) (s : State) : (recordError e s).quality = s.quality := rfl
@[simp] theorem recordError_width (e : CmdError) (s : State) : (recordError e s).width = s.width := rfl
@[simp] theorem recordError_height (e : CmdError) (s : State) : (recordError e s).height = s.height := rfl
@[simp] theorem recordError_scale (e : CmdError) (s : State) : (recordError e s).scale = s.scale := rfl
@[simp] theorem recordError_intStatus (e : CmdError) (s : State) : (recordError e s).intStatus = s.intStatus := rfl
@[simp] theorem recordError_intEnable (e : CmdError) (s : State) : (recordError e s).intEnable = s.intEnable := rfl
@[simp] theorem recordError_errCmd (e : CmdError) (s : State) : (recordError e s).errCmd = s.cmdLatch := rfl
@[simp] theorem recordError_errDetail (e : CmdError) (s : State) : (recordError e s).errDetail = e.detail := rfl
@[simp] theorem recordError_predY (e : CmdError) (s : State) : (recordError e s).predY = s.predY := rfl
@[simp] theorem recordError_predCb (e : CmdError) (s : State) : (recordError e s).predCb = s.predCb := rfl
@[simp] theorem recordError_predCr (e : CmdError) (s : State) : (recordError e s).predCr = s.predCr := rfl
@[simp] theorem recordError_acc (e : CmdError) (s : State) : (recordError e s).acc = s.acc := rfl
@[simp] theorem recordError_count (e : CmdError) (s : State) : (recordError e s).count = s.count := rfl
@[simp] theorem recordError_mcuTotal (e : CmdError) (s : State) : (recordError e s).mcuTotal = s.mcuTotal := rfl
@[simp] theorem recordError_mcuDone (e : CmdError) (s : State) : (recordError e s).mcuDone = s.mcuDone := rfl
@[simp] theorem recordError_outTotal (e : CmdError) (s : State) : (recordError e s).outTotal = s.outTotal := rfl
@[simp] theorem recordError_fifo (e : CmdError) (s : State) : (recordError e s).fifo = s.fifo := rfl
@[simp] theorem recordError_sample (e : CmdError) (s : State) : (recordError e s).sample = s.sample := rfl
@[simp] theorem recordError_coef (e : CmdError) (s : State) : (recordError e s).coef = s.coef := rfl
@[simp] theorem recordError_zz (e : CmdError) (s : State) : (recordError e s).zz = s.zz := rfl
@[simp] theorem recordError_qt0 (e : CmdError) (s : State) : (recordError e s).qt0 = s.qt0 := rfl
@[simp] theorem recordError_qt1 (e : CmdError) (s : State) : (recordError e s).qt1 = s.qt1 := rfl
@[simp] theorem recordError_fs0 (e : CmdError) (s : State) : (recordError e s).fs0 = s.fs0 := rfl
@[simp] theorem recordError_fs1 (e : CmdError) (s : State) : (recordError e s).fs1 = s.fs1 := rfl
@[simp] theorem recordError_agenda (e : CmdError) (s : State) : (recordError e s).agenda = s.agenda := rfl
@[simp] theorem recordError_replies (e : CmdError) (s : State) : (recordError e s).replies = s.replies := rfl
@[simp] theorem recordError_draws (e : CmdError) (s : State) : (recordError e s).draws = s.draws := rfl

@[simp] theorem pushBytes_busy (bs : List Byte) (s : State) : (pushBytes bs s).busy = s.busy := rfl
@[simp] theorem pushBytes_phase (bs : List Byte) (s : State) : (pushBytes bs s).phase = s.phase := rfl
@[simp] theorem pushBytes_nextComp (bs : List Byte) (s : State) : (pushBytes bs s).nextComp = s.nextComp := rfl
@[simp] theorem pushBytes_errCode (bs : List Byte) (s : State) : (pushBytes bs s).errCode = s.errCode := rfl
@[simp] theorem pushBytes_cmdLatch (bs : List Byte) (s : State) : (pushBytes bs s).cmdLatch = s.cmdLatch := rfl
@[simp] theorem pushBytes_quality (bs : List Byte) (s : State) : (pushBytes bs s).quality = s.quality := rfl
@[simp] theorem pushBytes_width (bs : List Byte) (s : State) : (pushBytes bs s).width = s.width := rfl
@[simp] theorem pushBytes_height (bs : List Byte) (s : State) : (pushBytes bs s).height = s.height := rfl
@[simp] theorem pushBytes_scale (bs : List Byte) (s : State) : (pushBytes bs s).scale = s.scale := rfl
@[simp] theorem pushBytes_intStatus (bs : List Byte) (s : State) : (pushBytes bs s).intStatus = s.intStatus := rfl
@[simp] theorem pushBytes_intEnable (bs : List Byte) (s : State) : (pushBytes bs s).intEnable = s.intEnable := rfl
@[simp] theorem pushBytes_errCmd (bs : List Byte) (s : State) : (pushBytes bs s).errCmd = s.errCmd := rfl
@[simp] theorem pushBytes_errDetail (bs : List Byte) (s : State) : (pushBytes bs s).errDetail = s.errDetail := rfl
@[simp] theorem pushBytes_predY (bs : List Byte) (s : State) : (pushBytes bs s).predY = s.predY := rfl
@[simp] theorem pushBytes_predCb (bs : List Byte) (s : State) : (pushBytes bs s).predCb = s.predCb := rfl
@[simp] theorem pushBytes_predCr (bs : List Byte) (s : State) : (pushBytes bs s).predCr = s.predCr := rfl
@[simp] theorem pushBytes_acc (bs : List Byte) (s : State) : (pushBytes bs s).acc = s.acc := rfl
@[simp] theorem pushBytes_count (bs : List Byte) (s : State) : (pushBytes bs s).count = s.count := rfl
@[simp] theorem pushBytes_mcuTotal (bs : List Byte) (s : State) : (pushBytes bs s).mcuTotal = s.mcuTotal := rfl
@[simp] theorem pushBytes_mcuDone (bs : List Byte) (s : State) : (pushBytes bs s).mcuDone = s.mcuDone := rfl
@[simp] theorem pushBytes_outTotal (bs : List Byte) (s : State) : (pushBytes bs s).outTotal = s.outTotal + BitVec.ofNat 32 bs.length := rfl
@[simp] theorem pushBytes_fifo (bs : List Byte) (s : State) : (pushBytes bs s).fifo = s.fifo ++ bs := rfl
@[simp] theorem pushBytes_sample (bs : List Byte) (s : State) : (pushBytes bs s).sample = s.sample := rfl
@[simp] theorem pushBytes_coef (bs : List Byte) (s : State) : (pushBytes bs s).coef = s.coef := rfl
@[simp] theorem pushBytes_zz (bs : List Byte) (s : State) : (pushBytes bs s).zz = s.zz := rfl
@[simp] theorem pushBytes_qt0 (bs : List Byte) (s : State) : (pushBytes bs s).qt0 = s.qt0 := rfl
@[simp] theorem pushBytes_qt1 (bs : List Byte) (s : State) : (pushBytes bs s).qt1 = s.qt1 := rfl
@[simp] theorem pushBytes_fs0 (bs : List Byte) (s : State) : (pushBytes bs s).fs0 = s.fs0 := rfl
@[simp] theorem pushBytes_fs1 (bs : List Byte) (s : State) : (pushBytes bs s).fs1 = s.fs1 := rfl
@[simp] theorem pushBytes_agenda (bs : List Byte) (s : State) : (pushBytes bs s).agenda = s.agenda := rfl
@[simp] theorem pushBytes_replies (bs : List Byte) (s : State) : (pushBytes bs s).replies = s.replies := rfl
@[simp] theorem pushBytes_draws (bs : List Byte) (s : State) : (pushBytes bs s).draws = s.draws := rfl

@[simp] theorem commitWriter_busy (w : BitWriter) (s : State) : (commitWriter w s).busy = s.busy := rfl
@[simp] theorem commitWriter_phase (w : BitWriter) (s : State) : (commitWriter w s).phase = s.phase := rfl
@[simp] theorem commitWriter_nextComp (w : BitWriter) (s : State) : (commitWriter w s).nextComp = s.nextComp := rfl
@[simp] theorem commitWriter_errCode (w : BitWriter) (s : State) : (commitWriter w s).errCode = s.errCode := rfl
@[simp] theorem commitWriter_cmdLatch (w : BitWriter) (s : State) : (commitWriter w s).cmdLatch = s.cmdLatch := rfl
@[simp] theorem commitWriter_quality (w : BitWriter) (s : State) : (commitWriter w s).quality = s.quality := rfl
@[simp] theorem commitWriter_width (w : BitWriter) (s : State) : (commitWriter w s).width = s.width := rfl
@[simp] theorem commitWriter_height (w : BitWriter) (s : State) : (commitWriter w s).height = s.height := rfl
@[simp] theorem commitWriter_scale (w : BitWriter) (s : State) : (commitWriter w s).scale = s.scale := rfl
@[simp] theorem commitWriter_intStatus (w : BitWriter) (s : State) : (commitWriter w s).intStatus = s.intStatus := rfl
@[simp] theorem commitWriter_intEnable (w : BitWriter) (s : State) : (commitWriter w s).intEnable = s.intEnable := rfl
@[simp] theorem commitWriter_errCmd (w : BitWriter) (s : State) : (commitWriter w s).errCmd = s.errCmd := rfl
@[simp] theorem commitWriter_errDetail (w : BitWriter) (s : State) : (commitWriter w s).errDetail = s.errDetail := rfl
@[simp] theorem commitWriter_predY (w : BitWriter) (s : State) : (commitWriter w s).predY = s.predY := rfl
@[simp] theorem commitWriter_predCb (w : BitWriter) (s : State) : (commitWriter w s).predCb = s.predCb := rfl
@[simp] theorem commitWriter_predCr (w : BitWriter) (s : State) : (commitWriter w s).predCr = s.predCr := rfl
@[simp] theorem commitWriter_acc (w : BitWriter) (s : State) : (commitWriter w s).acc = w.acc := rfl
@[simp] theorem commitWriter_count (w : BitWriter) (s : State) : (commitWriter w s).count = w.count := rfl
@[simp] theorem commitWriter_mcuTotal (w : BitWriter) (s : State) : (commitWriter w s).mcuTotal = s.mcuTotal := rfl
@[simp] theorem commitWriter_mcuDone (w : BitWriter) (s : State) : (commitWriter w s).mcuDone = s.mcuDone := rfl
@[simp] theorem commitWriter_outTotal (w : BitWriter) (s : State) : (commitWriter w s).outTotal = s.outTotal + BitVec.ofNat 32 w.pending.length := rfl
@[simp] theorem commitWriter_fifo (w : BitWriter) (s : State) : (commitWriter w s).fifo = s.fifo ++ w.pending := rfl
@[simp] theorem commitWriter_sample (w : BitWriter) (s : State) : (commitWriter w s).sample = s.sample := rfl
@[simp] theorem commitWriter_coef (w : BitWriter) (s : State) : (commitWriter w s).coef = s.coef := rfl
@[simp] theorem commitWriter_zz (w : BitWriter) (s : State) : (commitWriter w s).zz = s.zz := rfl
@[simp] theorem commitWriter_qt0 (w : BitWriter) (s : State) : (commitWriter w s).qt0 = s.qt0 := rfl
@[simp] theorem commitWriter_qt1 (w : BitWriter) (s : State) : (commitWriter w s).qt1 = s.qt1 := rfl
@[simp] theorem commitWriter_fs0 (w : BitWriter) (s : State) : (commitWriter w s).fs0 = s.fs0 := rfl
@[simp] theorem commitWriter_fs1 (w : BitWriter) (s : State) : (commitWriter w s).fs1 = s.fs1 := rfl
@[simp] theorem commitWriter_agenda (w : BitWriter) (s : State) : (commitWriter w s).agenda = s.agenda := rfl
@[simp] theorem commitWriter_replies (w : BitWriter) (s : State) : (commitWriter w s).replies = s.replies := rfl
@[simp] theorem commitWriter_draws (w : BitWriter) (s : State) : (commitWriter w s).draws = s.draws := rfl

@[simp] theorem reply_busy (v : Word) (s : State) : (reply v s).busy = s.busy := rfl
@[simp] theorem reply_phase (v : Word) (s : State) : (reply v s).phase = s.phase := rfl
@[simp] theorem reply_nextComp (v : Word) (s : State) : (reply v s).nextComp = s.nextComp := rfl
@[simp] theorem reply_errCode (v : Word) (s : State) : (reply v s).errCode = s.errCode := rfl
@[simp] theorem reply_cmdLatch (v : Word) (s : State) : (reply v s).cmdLatch = s.cmdLatch := rfl
@[simp] theorem reply_quality (v : Word) (s : State) : (reply v s).quality = s.quality := rfl
@[simp] theorem reply_width (v : Word) (s : State) : (reply v s).width = s.width := rfl
@[simp] theorem reply_height (v : Word) (s : State) : (reply v s).height = s.height := rfl
@[simp] theorem reply_scale (v : Word) (s : State) : (reply v s).scale = s.scale := rfl
@[simp] theorem reply_intStatus (v : Word) (s : State) : (reply v s).intStatus = s.intStatus := rfl
@[simp] theorem reply_intEnable (v : Word) (s : State) : (reply v s).intEnable = s.intEnable := rfl
@[simp] theorem reply_errCmd (v : Word) (s : State) : (reply v s).errCmd = s.errCmd := rfl
@[simp] theorem reply_errDetail (v : Word) (s : State) : (reply v s).errDetail = s.errDetail := rfl
@[simp] theorem reply_predY (v : Word) (s : State) : (reply v s).predY = s.predY := rfl
@[simp] theorem reply_predCb (v : Word) (s : State) : (reply v s).predCb = s.predCb := rfl
@[simp] theorem reply_predCr (v : Word) (s : State) : (reply v s).predCr = s.predCr := rfl
@[simp] theorem reply_acc (v : Word) (s : State) : (reply v s).acc = s.acc := rfl
@[simp] theorem reply_count (v : Word) (s : State) : (reply v s).count = s.count := rfl
@[simp] theorem reply_mcuTotal (v : Word) (s : State) : (reply v s).mcuTotal = s.mcuTotal := rfl
@[simp] theorem reply_mcuDone (v : Word) (s : State) : (reply v s).mcuDone = s.mcuDone := rfl
@[simp] theorem reply_outTotal (v : Word) (s : State) : (reply v s).outTotal = s.outTotal := rfl
@[simp] theorem reply_fifo (v : Word) (s : State) : (reply v s).fifo = s.fifo := rfl
@[simp] theorem reply_sample (v : Word) (s : State) : (reply v s).sample = s.sample := rfl
@[simp] theorem reply_coef (v : Word) (s : State) : (reply v s).coef = s.coef := rfl
@[simp] theorem reply_zz (v : Word) (s : State) : (reply v s).zz = s.zz := rfl
@[simp] theorem reply_qt0 (v : Word) (s : State) : (reply v s).qt0 = s.qt0 := rfl
@[simp] theorem reply_qt1 (v : Word) (s : State) : (reply v s).qt1 = s.qt1 := rfl
@[simp] theorem reply_fs0 (v : Word) (s : State) : (reply v s).fs0 = s.fs0 := rfl
@[simp] theorem reply_fs1 (v : Word) (s : State) : (reply v s).fs1 = s.fs1 := rfl
@[simp] theorem reply_agenda (v : Word) (s : State) : (reply v s).agenda = s.agenda := rfl
@[simp] theorem reply_replies (v : Word) (s : State) : (reply v s).replies = v :: s.replies := rfl
@[simp] theorem reply_draws (v : Word) (s : State) : (reply v s).draws = s.draws := rfl

@[simp] theorem drawn_busy (s : State) : (drawn s).busy = s.busy := rfl
@[simp] theorem drawn_phase (s : State) : (drawn s).phase = s.phase := rfl
@[simp] theorem drawn_nextComp (s : State) : (drawn s).nextComp = s.nextComp := rfl
@[simp] theorem drawn_errCode (s : State) : (drawn s).errCode = s.errCode := rfl
@[simp] theorem drawn_cmdLatch (s : State) : (drawn s).cmdLatch = s.cmdLatch := rfl
@[simp] theorem drawn_quality (s : State) : (drawn s).quality = s.quality := rfl
@[simp] theorem drawn_width (s : State) : (drawn s).width = s.width := rfl
@[simp] theorem drawn_height (s : State) : (drawn s).height = s.height := rfl
@[simp] theorem drawn_scale (s : State) : (drawn s).scale = s.scale := rfl
@[simp] theorem drawn_intStatus (s : State) : (drawn s).intStatus = s.intStatus := rfl
@[simp] theorem drawn_intEnable (s : State) : (drawn s).intEnable = s.intEnable := rfl
@[simp] theorem drawn_errCmd (s : State) : (drawn s).errCmd = s.errCmd := rfl
@[simp] theorem drawn_errDetail (s : State) : (drawn s).errDetail = s.errDetail := rfl
@[simp] theorem drawn_predY (s : State) : (drawn s).predY = s.predY := rfl
@[simp] theorem drawn_predCb (s : State) : (drawn s).predCb = s.predCb := rfl
@[simp] theorem drawn_predCr (s : State) : (drawn s).predCr = s.predCr := rfl
@[simp] theorem drawn_acc (s : State) : (drawn s).acc = s.acc := rfl
@[simp] theorem drawn_count (s : State) : (drawn s).count = s.count := rfl
@[simp] theorem drawn_mcuTotal (s : State) : (drawn s).mcuTotal = s.mcuTotal := rfl
@[simp] theorem drawn_mcuDone (s : State) : (drawn s).mcuDone = s.mcuDone := rfl
@[simp] theorem drawn_outTotal (s : State) : (drawn s).outTotal = s.outTotal := rfl
@[simp] theorem drawn_fifo (s : State) : (drawn s).fifo = s.fifo := rfl
@[simp] theorem drawn_sample (s : State) : (drawn s).sample = s.sample := rfl
@[simp] theorem drawn_coef (s : State) : (drawn s).coef = s.coef := rfl
@[simp] theorem drawn_zz (s : State) : (drawn s).zz = s.zz := rfl
@[simp] theorem drawn_qt0 (s : State) : (drawn s).qt0 = s.qt0 := rfl
@[simp] theorem drawn_qt1 (s : State) : (drawn s).qt1 = s.qt1 := rfl
@[simp] theorem drawn_fs0 (s : State) : (drawn s).fs0 = s.fs0 := rfl
@[simp] theorem drawn_fs1 (s : State) : (drawn s).fs1 = s.fs1 := rfl
@[simp] theorem drawn_agenda (s : State) : (drawn s).agenda = s.agenda := rfl
@[simp] theorem drawn_replies (s : State) : (drawn s).replies = s.replies := rfl
@[simp] theorem drawn_draws (s : State) : (drawn s).draws = s.draws + 1 := rfl

@[simp] theorem issueNext_busy (w : Word) (s : State) : (issueNext w s).busy = true := rfl
@[simp] theorem issueNext_phase (w : Word) (s : State) : (issueNext w s).phase = s.phase := rfl
@[simp] theorem issueNext_nextComp (w : Word) (s : State) : (issueNext w s).nextComp = s.nextComp := rfl
@[simp] theorem issueNext_errCode (w : Word) (s : State) : (issueNext w s).errCode = s.errCode := rfl
@[simp] theorem issueNext_cmdLatch (w : Word) (s : State) : (issueNext w s).cmdLatch = w := rfl
@[simp] theorem issueNext_quality (w : Word) (s : State) : (issueNext w s).quality = s.quality := rfl
@[simp] theorem issueNext_width (w : Word) (s : State) : (issueNext w s).width = s.width := rfl
@[simp] theorem issueNext_height (w : Word) (s : State) : (issueNext w s).height = s.height := rfl
@[simp] theorem issueNext_scale (w : Word) (s : State) : (issueNext w s).scale = s.scale := rfl
@[simp] theorem issueNext_intStatus (w : Word) (s : State) : (issueNext w s).intStatus = s.intStatus := rfl
@[simp] theorem issueNext_intEnable (w : Word) (s : State) : (issueNext w s).intEnable = s.intEnable := rfl
@[simp] theorem issueNext_errCmd (w : Word) (s : State) : (issueNext w s).errCmd = s.errCmd := rfl
@[simp] theorem issueNext_errDetail (w : Word) (s : State) : (issueNext w s).errDetail = s.errDetail := rfl
@[simp] theorem issueNext_predY (w : Word) (s : State) : (issueNext w s).predY = s.predY := rfl
@[simp] theorem issueNext_predCb (w : Word) (s : State) : (issueNext w s).predCb = s.predCb := rfl
@[simp] theorem issueNext_predCr (w : Word) (s : State) : (issueNext w s).predCr = s.predCr := rfl
@[simp] theorem issueNext_acc (w : Word) (s : State) : (issueNext w s).acc = s.acc := rfl
@[simp] theorem issueNext_count (w : Word) (s : State) : (issueNext w s).count = s.count := rfl
@[simp] theorem issueNext_mcuTotal (w : Word) (s : State) : (issueNext w s).mcuTotal = s.mcuTotal := rfl
@[simp] theorem issueNext_mcuDone (w : Word) (s : State) : (issueNext w s).mcuDone = s.mcuDone := rfl
@[simp] theorem issueNext_outTotal (w : Word) (s : State) : (issueNext w s).outTotal = s.outTotal := rfl
@[simp] theorem issueNext_fifo (w : Word) (s : State) : (issueNext w s).fifo = s.fifo := rfl
@[simp] theorem issueNext_sample (w : Word) (s : State) : (issueNext w s).sample = s.sample := rfl
@[simp] theorem issueNext_coef (w : Word) (s : State) : (issueNext w s).coef = s.coef := rfl
@[simp] theorem issueNext_zz (w : Word) (s : State) : (issueNext w s).zz = s.zz := rfl
@[simp] theorem issueNext_qt0 (w : Word) (s : State) : (issueNext w s).qt0 = s.qt0 := rfl
@[simp] theorem issueNext_qt1 (w : Word) (s : State) : (issueNext w s).qt1 = s.qt1 := rfl
@[simp] theorem issueNext_fs0 (w : Word) (s : State) : (issueNext w s).fs0 = s.fs0 := rfl
@[simp] theorem issueNext_fs1 (w : Word) (s : State) : (issueNext w s).fs1 = s.fs1 := rfl
@[simp] theorem issueNext_agenda (w : Word) (s : State) : (issueNext w s).agenda = .core :: s.agenda := rfl
@[simp] theorem issueNext_replies (w : Word) (s : State) : (issueNext w s).replies = s.replies := rfl
@[simp] theorem issueNext_draws (w : Word) (s : State) : (issueNext w s).draws = s.draws := rfl

@[simp] theorem setPred_busy (k : Comp) (v : BitVec 16) (s : State) : (setPred k v s).busy = s.busy := by cases k <;> rfl
@[simp] theorem setPred_phase (k : Comp) (v : BitVec 16) (s : State) : (setPred k v s).phase = s.phase := by cases k <;> rfl
@[simp] theorem setPred_nextComp (k : Comp) (v : BitVec 16) (s : State) : (setPred k v s).nextComp = s.nextComp := by cases k <;> rfl
@[simp] theorem setPred_errCode (k : Comp) (v : BitVec 16) (s : State) : (setPred k v s).errCode = s.errCode := by cases k <;> rfl
@[simp] theorem setPred_cmdLatch (k : Comp) (v : BitVec 16) (s : State) : (setPred k v s).cmdLatch = s.cmdLatch := by cases k <;> rfl
@[simp] theorem setPred_quality (k : Comp) (v : BitVec 16) (s : State) : (setPred k v s).quality = s.quality := by cases k <;> rfl
@[simp] theorem setPred_width (k : Comp) (v : BitVec 16) (s : State) : (setPred k v s).width = s.width := by cases k <;> rfl
@[simp] theorem setPred_height (k : Comp) (v : BitVec 16) (s : State) : (setPred k v s).height = s.height := by cases k <;> rfl
@[simp] theorem setPred_scale (k : Comp) (v : BitVec 16) (s : State) : (setPred k v s).scale = s.scale := by cases k <;> rfl
@[simp] theorem setPred_intStatus (k : Comp) (v : BitVec 16) (s : State) : (setPred k v s).intStatus = s.intStatus := by cases k <;> rfl
@[simp] theorem setPred_intEnable (k : Comp) (v : BitVec 16) (s : State) : (setPred k v s).intEnable = s.intEnable := by cases k <;> rfl
@[simp] theorem setPred_errCmd (k : Comp) (v : BitVec 16) (s : State) : (setPred k v s).errCmd = s.errCmd := by cases k <;> rfl
@[simp] theorem setPred_errDetail (k : Comp) (v : BitVec 16) (s : State) : (setPred k v s).errDetail = s.errDetail := by cases k <;> rfl
@[simp] theorem setPred_acc (k : Comp) (v : BitVec 16) (s : State) : (setPred k v s).acc = s.acc := by cases k <;> rfl
@[simp] theorem setPred_count (k : Comp) (v : BitVec 16) (s : State) : (setPred k v s).count = s.count := by cases k <;> rfl
@[simp] theorem setPred_mcuTotal (k : Comp) (v : BitVec 16) (s : State) : (setPred k v s).mcuTotal = s.mcuTotal := by cases k <;> rfl
@[simp] theorem setPred_mcuDone (k : Comp) (v : BitVec 16) (s : State) : (setPred k v s).mcuDone = s.mcuDone := by cases k <;> rfl
@[simp] theorem setPred_outTotal (k : Comp) (v : BitVec 16) (s : State) : (setPred k v s).outTotal = s.outTotal := by cases k <;> rfl
@[simp] theorem setPred_fifo (k : Comp) (v : BitVec 16) (s : State) : (setPred k v s).fifo = s.fifo := by cases k <;> rfl
@[simp] theorem setPred_sample (k : Comp) (v : BitVec 16) (s : State) : (setPred k v s).sample = s.sample := by cases k <;> rfl
@[simp] theorem setPred_coef (k : Comp) (v : BitVec 16) (s : State) : (setPred k v s).coef = s.coef := by cases k <;> rfl
@[simp] theorem setPred_zz (k : Comp) (v : BitVec 16) (s : State) : (setPred k v s).zz = s.zz := by cases k <;> rfl
@[simp] theorem setPred_qt0 (k : Comp) (v : BitVec 16) (s : State) : (setPred k v s).qt0 = s.qt0 := by cases k <;> rfl
@[simp] theorem setPred_qt1 (k : Comp) (v : BitVec 16) (s : State) : (setPred k v s).qt1 = s.qt1 := by cases k <;> rfl
@[simp] theorem setPred_fs0 (k : Comp) (v : BitVec 16) (s : State) : (setPred k v s).fs0 = s.fs0 := by cases k <;> rfl
@[simp] theorem setPred_fs1 (k : Comp) (v : BitVec 16) (s : State) : (setPred k v s).fs1 = s.fs1 := by cases k <;> rfl
@[simp] theorem setPred_agenda (k : Comp) (v : BitVec 16) (s : State) : (setPred k v s).agenda = s.agenda := by cases k <;> rfl
@[simp] theorem setPred_replies (k : Comp) (v : BitVec 16) (s : State) : (setPred k v s).replies = s.replies := by cases k <;> rfl
@[simp] theorem setPred_draws (k : Comp) (v : BitVec 16) (s : State) : (setPred k v s).draws = s.draws := by cases k <;> rfl
@[simp] theorem setPred_y_predY (v : BitVec 16) (s : State) : (setPred .y v s).predY = v := rfl
@[simp] theorem setPred_y_predCb (v : BitVec 16) (s : State) : (setPred .y v s).predCb = s.predCb := rfl
@[simp] theorem setPred_y_predCr (v : BitVec 16) (s : State) : (setPred .y v s).predCr = s.predCr := rfl
@[simp] theorem setPred_cb_predY (v : BitVec 16) (s : State) : (setPred .cb v s).predY = s.predY := rfl
@[simp] theorem setPred_cb_predCb (v : BitVec 16) (s : State) : (setPred .cb v s).predCb = v := rfl
@[simp] theorem setPred_cb_predCr (v : BitVec 16) (s : State) : (setPred .cb v s).predCr = s.predCr := rfl
@[simp] theorem setPred_cr_predY (v : BitVec 16) (s : State) : (setPred .cr v s).predY = s.predY := rfl
@[simp] theorem setPred_cr_predCb (v : BitVec 16) (s : State) : (setPred .cr v s).predCb = s.predCb := rfl
@[simp] theorem setPred_cr_predCr (v : BitVec 16) (s : State) : (setPred .cr v s).predCr = v := rfl
@[simp] theorem predOf_setPred (k : Comp) (v : BitVec 16) (s : State) : predOf k (setPred k v s) = v := by cases k <;> rfl

@[simp] theorem advance_busy (k : Comp) (s : State) : (advance k s).busy = s.busy := by cases k <;> rfl
@[simp] theorem advance_errCode (k : Comp) (s : State) : (advance k s).errCode = s.errCode := by cases k <;> rfl
@[simp] theorem advance_cmdLatch (k : Comp) (s : State) : (advance k s).cmdLatch = s.cmdLatch := by cases k <;> rfl
@[simp] theorem advance_quality (k : Comp) (s : State) : (advance k s).quality = s.quality := by cases k <;> rfl
@[simp] theorem advance_width (k : Comp) (s : State) : (advance k s).width = s.width := by cases k <;> rfl
@[simp] theorem advance_height (k : Comp) (s : State) : (advance k s).height = s.height := by cases k <;> rfl
@[simp] theorem advance_scale (k : Comp) (s : State) : (advance k s).scale = s.scale := by cases k <;> rfl
@[simp] theorem advance_intStatus (k : Comp) (s : State) : (advance k s).intStatus = s.intStatus := by cases k <;> rfl
@[simp] theorem advance_intEnable (k : Comp) (s : State) : (advance k s).intEnable = s.intEnable := by cases k <;> rfl
@[simp] theorem advance_errCmd (k : Comp) (s : State) : (advance k s).errCmd = s.errCmd := by cases k <;> rfl
@[simp] theorem advance_errDetail (k : Comp) (s : State) : (advance k s).errDetail = s.errDetail := by cases k <;> rfl
@[simp] theorem advance_predY (k : Comp) (s : State) : (advance k s).predY = s.predY := by cases k <;> rfl
@[simp] theorem advance_predCb (k : Comp) (s : State) : (advance k s).predCb = s.predCb := by cases k <;> rfl
@[simp] theorem advance_predCr (k : Comp) (s : State) : (advance k s).predCr = s.predCr := by cases k <;> rfl
@[simp] theorem advance_acc (k : Comp) (s : State) : (advance k s).acc = s.acc := by cases k <;> rfl
@[simp] theorem advance_count (k : Comp) (s : State) : (advance k s).count = s.count := by cases k <;> rfl
@[simp] theorem advance_mcuTotal (k : Comp) (s : State) : (advance k s).mcuTotal = s.mcuTotal := by cases k <;> rfl
@[simp] theorem advance_outTotal (k : Comp) (s : State) : (advance k s).outTotal = s.outTotal := by cases k <;> rfl
@[simp] theorem advance_fifo (k : Comp) (s : State) : (advance k s).fifo = s.fifo := by cases k <;> rfl
@[simp] theorem advance_sample (k : Comp) (s : State) : (advance k s).sample = s.sample := by cases k <;> rfl
@[simp] theorem advance_coef (k : Comp) (s : State) : (advance k s).coef = s.coef := by cases k <;> rfl
@[simp] theorem advance_zz (k : Comp) (s : State) : (advance k s).zz = s.zz := by cases k <;> rfl
@[simp] theorem advance_qt0 (k : Comp) (s : State) : (advance k s).qt0 = s.qt0 := by cases k <;> rfl
@[simp] theorem advance_qt1 (k : Comp) (s : State) : (advance k s).qt1 = s.qt1 := by cases k <;> rfl
@[simp] theorem advance_fs0 (k : Comp) (s : State) : (advance k s).fs0 = s.fs0 := by cases k <;> rfl
@[simp] theorem advance_fs1 (k : Comp) (s : State) : (advance k s).fs1 = s.fs1 := by cases k <;> rfl
@[simp] theorem advance_agenda (k : Comp) (s : State) : (advance k s).agenda = s.agenda := by cases k <;> rfl
@[simp] theorem advance_replies (k : Comp) (s : State) : (advance k s).replies = s.replies := by cases k <;> rfl
@[simp] theorem advance_draws (k : Comp) (s : State) : (advance k s).draws = s.draws := by cases k <;> rfl
@[simp] theorem advance_phase (k : Comp) (s : State) : (advance k s).phase = .scanning := by cases k <;> rfl
@[simp] theorem advance_y_nextComp (s : State) : (advance .y s).nextComp = .cb := rfl
@[simp] theorem advance_cb_nextComp (s : State) : (advance .cb s).nextComp = .cr := rfl
@[simp] theorem advance_cr_nextComp (s : State) : (advance .cr s).nextComp = .y := rfl
@[simp] theorem advance_y_mcuDone (s : State) : (advance .y s).mcuDone = s.mcuDone := rfl
@[simp] theorem advance_cb_mcuDone (s : State) : (advance .cb s).mcuDone = s.mcuDone := rfl
@[simp] theorem advance_cr_mcuDone (s : State) : (advance .cr s).mcuDone = s.mcuDone + 1 := rfl

/-- What a rejection leaves of each field but the six it may write. -/
theorem reject_sameImageState (e : CmdError) (s : State) : sameImageState s (reject e s) := by
  unfold reject
  split <;> rfl

@[simp] theorem reject_busy (e : CmdError) (s : State) : (reject e s).busy = false := by
  unfold reject
  split <;> rfl

@[simp] theorem reject_intStatus (e : CmdError) (s : State) :
    (reject e s).intStatus = s.intStatus ||| intErr ||| intDone := by
  unfold reject
  split <;> rfl

@[simp] theorem reject_nextComp (e : CmdError) (s : State) : (reject e s).nextComp = s.nextComp := by unfold reject; split <;> rfl
@[simp] theorem reject_cmdLatch (e : CmdError) (s : State) : (reject e s).cmdLatch = s.cmdLatch := by unfold reject; split <;> rfl
@[simp] theorem reject_quality (e : CmdError) (s : State) : (reject e s).quality = s.quality := by unfold reject; split <;> rfl
@[simp] theorem reject_width (e : CmdError) (s : State) : (reject e s).width = s.width := by unfold reject; split <;> rfl
@[simp] theorem reject_height (e : CmdError) (s : State) : (reject e s).height = s.height := by unfold reject; split <;> rfl
@[simp] theorem reject_scale (e : CmdError) (s : State) : (reject e s).scale = s.scale := by unfold reject; split <;> rfl
@[simp] theorem reject_intEnable (e : CmdError) (s : State) : (reject e s).intEnable = s.intEnable := by unfold reject; split <;> rfl
@[simp] theorem reject_predY (e : CmdError) (s : State) : (reject e s).predY = s.predY := by unfold reject; split <;> rfl
@[simp] theorem reject_predCb (e : CmdError) (s : State) : (reject e s).predCb = s.predCb := by unfold reject; split <;> rfl
@[simp] theorem reject_predCr (e : CmdError) (s : State) : (reject e s).predCr = s.predCr := by unfold reject; split <;> rfl
@[simp] theorem reject_acc (e : CmdError) (s : State) : (reject e s).acc = s.acc := by unfold reject; split <;> rfl
@[simp] theorem reject_count (e : CmdError) (s : State) : (reject e s).count = s.count := by unfold reject; split <;> rfl
@[simp] theorem reject_mcuTotal (e : CmdError) (s : State) : (reject e s).mcuTotal = s.mcuTotal := by unfold reject; split <;> rfl
@[simp] theorem reject_mcuDone (e : CmdError) (s : State) : (reject e s).mcuDone = s.mcuDone := by unfold reject; split <;> rfl
@[simp] theorem reject_outTotal (e : CmdError) (s : State) : (reject e s).outTotal = s.outTotal := by unfold reject; split <;> rfl
@[simp] theorem reject_fifo (e : CmdError) (s : State) : (reject e s).fifo = s.fifo := by unfold reject; split <;> rfl
@[simp] theorem reject_sample (e : CmdError) (s : State) : (reject e s).sample = s.sample := by unfold reject; split <;> rfl
@[simp] theorem reject_coef (e : CmdError) (s : State) : (reject e s).coef = s.coef := by unfold reject; split <;> rfl
@[simp] theorem reject_zz (e : CmdError) (s : State) : (reject e s).zz = s.zz := by unfold reject; split <;> rfl
@[simp] theorem reject_qt0 (e : CmdError) (s : State) : (reject e s).qt0 = s.qt0 := by unfold reject; split <;> rfl
@[simp] theorem reject_qt1 (e : CmdError) (s : State) : (reject e s).qt1 = s.qt1 := by unfold reject; split <;> rfl
@[simp] theorem reject_fs0 (e : CmdError) (s : State) : (reject e s).fs0 = s.fs0 := by unfold reject; split <;> rfl
@[simp] theorem reject_fs1 (e : CmdError) (s : State) : (reject e s).fs1 = s.fs1 := by unfold reject; split <;> rfl
@[simp] theorem reject_agenda (e : CmdError) (s : State) : (reject e s).agenda = s.agenda := by unfold reject; split <;> rfl
@[simp] theorem reject_replies (e : CmdError) (s : State) : (reject e s).replies = s.replies := by unfold reject; split <;> rfl
@[simp] theorem reject_draws (e : CmdError) (s : State) : (reject e s).draws = s.draws := by unfold reject; split <;> rfl

/-- STATE after a rejection (60_exceptions.md rule R410). -/
theorem reject_phase (e : CmdError) (s : State) :
    (reject e s).phase = if e.entersError then .error else s.phase := by
  unfold reject
  split
  · cases e <;> simp_all [CmdError.entersError]
  · rfl

end Sys2Proof.Machine
end

