-- ==== Sys2Proof/Laws/Ops.lean ====
section
/-! SUPPORT. What each shared operation can do, said once: the buffers and their canonical form, the room in the FIFO, and
the shape of a command's run. -/

namespace Sys2Proof.Machine

/-! ### Buffers -/

theorem bufRead_bufWrite_self {w : Nat} (b : Buffer w) (i : Nat) (v : BitVec w) :
    bufRead (bufWrite b i v) i = some v := by
  induction b with
  | nil => simp [bufWrite, bufRead]
  | cons p rest ih =>
    obtain ⟨j, x⟩ := p
    simp only [bufWrite]
    split
    · simp [bufRead]
    · split
      · simp [bufRead]
      · rename_i hne
        simp only [bufRead, if_neg (Ne.symm hne)]
        exact ih

theorem bufRead_bufWrite_other {w : Nat} (b : Buffer w) {i k : Nat} (v : BitVec w) (h : k ≠ i) :
    bufRead (bufWrite b i v) k = bufRead b k := by
  induction b with
  | nil => simp [bufWrite, bufRead, Ne.symm h]
  | cons p rest ih =>
    obtain ⟨j, x⟩ := p
    simp only [bufWrite]
    split
    · simp [bufRead, Ne.symm h]
    · split
      · rename_i he
        subst he
        simp [bufRead, Ne.symm h]
      · simp only [bufRead, ih]

/-- A lower bound of a canonical form's indexes may be lowered. -/
theorem Memory.wfFrom_mono {w : Nat} {lo hi : Nat} (h : lo ≤ hi) (b : Buffer w) :
    Memory.wfFrom hi b → Memory.wfFrom lo b := by
  cases b with
  | nil => simp [Memory.wfFrom]
  | cons p rest =>
    simp only [Memory.wfFrom, Bool.and_eq_true, decide_eq_true_eq]
    rintro ⟨⟨h1, h2⟩, h3⟩
    exact ⟨⟨by omega, h2⟩, h3⟩

theorem Memory.wfFrom_bufWrite {w : Nat} (b : Buffer w) (lo i : Nat) (v : BitVec w) (hlo : lo ≤ i) (hi : i < 64)
    (hb : Memory.wfFrom lo b) : Memory.wfFrom lo (bufWrite b i v) := by
  induction b generalizing lo with
  | nil => simp [bufWrite, Memory.wfFrom, hlo, hi]
  | cons p rest ih =>
    obtain ⟨j, x⟩ := p
    simp only [Memory.wfFrom, Bool.and_eq_true, decide_eq_true_eq] at hb
    obtain ⟨⟨hlj, hj⟩, hrest⟩ := hb
    simp only [bufWrite]
    split
    · rename_i hlt
      simp only [Memory.wfFrom, Bool.and_eq_true, decide_eq_true_eq]
      exact ⟨⟨hlo, hi⟩, ⟨by omega, hj⟩, hrest⟩
    · split
      · rename_i he
        subst he
        simp only [Memory.wfFrom, Bool.and_eq_true, decide_eq_true_eq]
        exact ⟨⟨hlo, hi⟩, hrest⟩
      · simp only [Memory.wfFrom, Bool.and_eq_true, decide_eq_true_eq]
        exact ⟨⟨hlj, hj⟩, ih (j + 1) (by omega) hrest⟩

/-- Writing an entry keeps the canonical form. -/
theorem Memory.wf_bufWrite {w : Nat} (b : Buffer w) (i : Nat) (v : BitVec w) (hi : i < 64) (hb : Memory.wf b) :
    Memory.wf (bufWrite b i v) :=
  Memory.wfFrom_bufWrite b 0 i v (Nat.zero_le _) hi hb

/-- The reset buffers are in canonical form. -/
theorem Memory.wf_nil {w : Nat} : Memory.wf ([] : Buffer w) := rfl

theorem bufFill_wfFrom {w : Nat} (f : Nat → BitVec w) (n lo : Nat) (h : lo + n ≤ 64) :
    Memory.wfFrom lo ((List.range' lo n).map fun i => (i, f i)) := by
  induction n generalizing lo with
  | zero => rfl
  | succ n ih =>
    simp only [List.range'_succ, List.map_cons, Memory.wfFrom, Bool.and_eq_true, decide_eq_true_eq]
    exact ⟨⟨Nat.le_refl _, by omega⟩, ih (lo + 1) (by omega)⟩

theorem bufRead_map_range' {w : Nat} (f : Nat → BitVec w) (n lo i : Nat) (h1 : lo ≤ i) (h2 : i < lo + n) :
    bufRead ((List.range' lo n).map fun i => (i, f i)) i = some (f i) := by
  induction n generalizing lo with
  | zero => omega
  | succ n ih =>
    simp only [List.range'_succ, List.map_cons, bufRead]
    split
    · rename_i he
      rw [he]
    · exact ih (lo + 1) (by omega) (by omega)

/-- A full buffer as a list over the indexes 0..63. -/
theorem bufFill_eq_range {w : Nat} (v : Block (BitVec w)) :
    bufFill v = (List.range' 0 64).map fun i => (i, v.toList.getD i 0) := by
  have h : (List.finRange 64).map (fun i : Fin 64 => i.val) = List.range' 0 64 := by decide
  rw [← h, List.map_map, bufFill]
  apply List.map_congr_left
  intro i _
  simp

/-- Filling a buffer gives a canonical form. -/
theorem Memory.wf_bufFill {w : Nat} (v : Block (BitVec w)) : Memory.wf (bufFill v) := by
  rw [bufFill_eq_range]
  exact bufFill_wfFrom _ 64 0 (by omega)

theorem bufRead_bufFill {w : Nat} (v : Block (BitVec w)) (i : Fin 64) : bufRead (bufFill v) i.val = some v[i] := by
  rw [bufFill_eq_range, bufRead_map_range' _ 64 0 i.val (by omega) (by omega)]
  simp

theorem bufReadFrom_eq_ok {w : Nat} (b : Buffer w) (n lo : Nat) (v : Vector (BitVec w) n) :
    bufReadFrom b n lo = .ok v ↔ ∀ i : Fin n, bufRead b (lo + i.val) = some v[i] := by
  induction n generalizing lo with
  | zero =>
    simp only [bufReadFrom, Except.ok.injEq, IsEmpty.forall_iff, iff_true]
    exact (Vector.eq_empty (xs := v)).symm
  | succ n ih =>
    simp only [bufReadFrom]
    constructor
    · intro h
      split at h
      · cases h
      · rename_i x hx
        split at h
        · cases h
        · rename_i vs hvs
          cases h
          rintro ⟨i, hi⟩
          cases i with
          | zero => simpa using hx
          | succ i =>
            have := (ih (lo + 1) vs).1 hvs ⟨i, by omega⟩
            simp only [Fin.getElem_fin] at this ⊢
            rw [show lo + (i + 1) = lo + 1 + i by omega, this]
            simp [Vector.getElem_mk]
    · intro h
      have h0 := h ⟨0, by omega⟩
      simp only [Nat.add_zero, Fin.getElem_fin] at h0
      rw [h0]
      have htl : bufReadFrom b n (lo + 1) = .ok (Vector.ofFn fun i : Fin n => v[i.val + 1]) := by
        rw [ih]
        intro i
        have := h ⟨i.val + 1, by omega⟩
        simp only [Fin.getElem_fin, Vector.getElem_ofFn] at this ⊢
        rw [show lo + 1 + i.val = lo + (i.val + 1) by omega, this]
      rw [htl]
      simp only [Except.ok.injEq]
      apply Vector.ext
      intro i hi
      cases i with
      | zero => simp [Vector.getElem_mk]
      | succ i => simp [Vector.getElem_mk]

/-- Reading a whole buffer succeeds exactly when every entry is written. -/
theorem bufReadAll_eq_ok {w : Nat} (b : Buffer w) (v : Block (BitVec w)) :
    bufReadAll b = .ok v ↔ ∀ i : Fin 64, bufRead b i.val = some v[i] := by
  have h := bufReadFrom_eq_ok b 64 0 v
  simp only [Nat.zero_add] at h
  exact h

/-- What has just been filled reads back. -/
@[simp] theorem bufReadAll_bufFill {w : Nat} (v : Block (BitVec w)) : bufReadAll (bufFill v) = .ok v :=
  (bufReadAll_eq_ok _ _).2 fun i => bufRead_bufFill v i

theorem bufReadFrom_eq_error {w : Nat} (b : Buffer w) (n lo k : Nat) (h : bufReadFrom b n lo = .error k) :
    lo ≤ k ∧ k < lo + n ∧ bufRead b k = none ∧ ∀ j, lo ≤ j → j < k → bufRead b j ≠ none := by
  induction n generalizing lo with
  | zero => simp [bufReadFrom] at h
  | succ n ih =>
    simp only [bufReadFrom] at h
    split at h
    · rename_i hn
      cases h
      exact ⟨Nat.le_refl _, by omega, hn, fun j h1 h2 => by omega⟩
    · rename_i x hx
      split at h
      · rename_i m hm
        cases h
        obtain ⟨h1, h2, h3, h4⟩ := ih (lo + 1) hm
        refine ⟨by omega, by omega, h3, fun j hj1 hj2 => ?_⟩
        by_cases hj : j = lo
        · subst hj
          simp [hx]
        · exact h4 j (by omega) hj2
      · cases h

/-- Where reading a whole buffer fails: at the first unwritten entry. -/
theorem bufReadAll_eq_error {w : Nat} (b : Buffer w) (k : Nat) (h : bufReadAll b = .error k) :
    k < 64 ∧ bufRead b k = none ∧ ∀ j < k, bufRead b j ≠ none := by
  obtain ⟨_, h2, h3, h4⟩ := bufReadFrom_eq_error b 64 0 k h
  exact ⟨by omega, h3, fun j hj => h4 j (Nat.zero_le _) hj⟩

/-! ### Room in the FIFO -/

theorem outDepth_ge : 1024 ≤ Config.outDepth := Nat.le_max_left _ _

theorem outDepth_lt : Config.outDepth < 2 ^ 32 := by
  have := Config.outDepthParam.isLt
  unfold Config.outDepth
  omega

/-- The shortcut of `fits` changes nothing (00_scope.md rule R7). -/
theorem fits_iff (n : Nat) (s : State) : fits n s = true ↔ outLevel s + n ≤ Config.outDepth := by
  have := outDepth_ge
  simp only [fits, Bool.or_eq_true, decide_eq_true_eq]
  omega

/-! ### The run of a command -/

/-- Everything a command can do when it gives a next state: it is not admitted and rejected with SEQUENCE_ERROR, it
commits and completes, or it is rejected with the error its rule raises. -/
theorem runCommand_next {i : Instr} {s t : State} {body : Except Stop State} (h : runCommand i s body = .next t) :
    (admitted i s = false ∧ t = reject .sequenceError s) ∨
    (admitted i s = true ∧ ∃ u, body = .ok u ∧ t = complete u) ∨
    (admitted i s = true ∧ ∃ e, body = .error (.reject e) ∧ t = reject e s) := by
  unfold runCommand at h
  split at h
  · rename_i ha
    right
    match body, h with
    | .ok u, h => exact .inl ⟨ha, u, rfl, (Host.Outcome.next.inj h).symm⟩
    | .error (.reject e), h => exact .inr ⟨ha, e, rfl, (Host.Outcome.next.inj h).symm⟩
    | .error (.fault f), h => cases h
  · rename_i ha
    exact .inl ⟨by simpa using ha, (Host.Outcome.next.inj h).symm⟩

theorem runCommand_ok {i : Instr} {s u : State} (ha : admitted i s = true) :
    runCommand i s (.ok u) = .next (complete u) := by simp [runCommand, ha, settle]

theorem runCommand_reject {i : Instr} {s : State} {e : CmdError} (ha : admitted i s = true) :
    runCommand i s (.error (.reject e)) = .next (reject e s) := by simp [runCommand, ha, settle]

theorem runCommand_notAdmitted {i : Instr} {s : State} (body : Except Stop State) (ha : admitted i s = false) :
    runCommand i s body = .next (reject .sequenceError s) := by simp [runCommand, ha]

/-- No command is refused. -/
theorem runCommand_not_refused {i : Instr} {s : State} {body : Except Stop State} (r : Refusal) :
    runCommand i s body ≠ .refused r := by
  unfold runCommand
  split
  · match body with
    | .ok u => simp [settle]
    | .error (.reject e) => simp [settle]
    | .error (.fault f) => simp [settle]
  · simp

/-- The whole effect of a rejection with OUT_OVERFLOW outside ERROR (60_exceptions.md rule R410): STATE is kept. -/
theorem reject_outOverflow {s : State} (n : Nat) (hp : s.phase ≠ .error) :
    reject (.outOverflow n) s = { s with
      errCode := .outOverflow, errCmd := s.cmdLatch, errDetail := (CmdError.outOverflow n).detail
      intStatus := s.intStatus ||| intErr ||| intDone, busy := false } := by
  rw [reject, if_neg hp]
  rfl

/-! ### The rule of each command that reads a buffer, once it is written -/

theorem fdctqBody_written {c : TableClass} {s : State} {x : Block Byte}
    (h : ∀ i : Fin 64, bufRead s.sample i.val = some x[i]) :
    fdctqBody c s = .ok { s with coef := bufFill (fdctqResult x (fsOf c s)) } := by
  simp only [fdctqBody, (bufReadAll_eq_ok _ _).2 h]

theorem zigzagBody_written {s : State} {x : Block (BitVec 16)}
    (h : ∀ i : Fin 64, bufRead s.coef i.val = some x[i]) :
    zigzagBody s = .ok { s with zz := bufFill (zigzagBlock x) } := by
  simp only [zigzagBody, (bufReadAll_eq_ok _ _).2 h]

theorem huffBody_written {k : Comp} {s : State} {zz : Block (BitVec 16)}
    (h : ∀ i : Fin 64, bufRead s.zz i.val = some zz[i]) : huffBody k s = codeBlock k zz s := by
  simp only [huffBody, (bufReadAll_eq_ok _ _).2 h]

/-- A block that is coded and has room commits. -/
theorem codeBlock_ok {k : Comp} {zz : Block (BitVec 16)} {s : State} {cs : List Code}
    (hc : blockCodes k zz (predOf k s) = .ok cs)
    (hr : outLevel s + (emitAll (writerOf s) cs).pending.length ≤ Config.outDepth) :
    codeBlock k zz s = .ok (advance k (setPred k zz[0] (commitWriter (emitAll (writerOf s) cs) s))) := by
  simp only [codeBlock, hc]
  rw [if_pos ((fits_iff _ _).2 hr)]

/-- Everything the coding of a block can do. -/
theorem codeBlock_cases (k : Comp) (zz : Block (BitVec 16)) (s : State) :
    (∃ e, blockCodes k zz (predOf k s) = .error e ∧ codeBlock k zz s = .error (.reject e)) ∨
    ∃ cs, blockCodes k zz (predOf k s) = .ok cs ∧
      let w := emitAll (writerOf s) cs
      (outLevel s + w.pending.length ≤ Config.outDepth ∧
        codeBlock k zz s = .ok (advance k (setPred k zz[0] (commitWriter w s)))) ∨
      (Config.outDepth < outLevel s + w.pending.length ∧
        codeBlock k zz s = .error (.reject (.outOverflow w.pending.length))) := by
  cases hc : blockCodes k zz (predOf k s) with
  | error e => exact .inl ⟨e, rfl, by simp only [codeBlock, hc]⟩
  | ok cs =>
    refine .inr ⟨cs, rfl, ?_⟩
    by_cases hr : outLevel s + (emitAll (writerOf s) cs).pending.length ≤ Config.outDepth
    · exact .inl ⟨hr, codeBlock_ok hc hr⟩
    · refine .inr ⟨by omega, ?_⟩
      simp only [codeBlock, hc]
      rw [if_neg (by rw [fits_iff]; exact hr)]

end Sys2Proof.Machine
end

