-- ==== Sys2Proof/Laws/HostPort.lean ====
section
/-! SUPPORT. The window's map, and everything a host access can do. -/

namespace Sys2Proof.Machine

theorem inInterface_aligned {off : Nat} (h4 : off % 4 = 0) (h : off ≤ 0xFFC) : inInterface off 4 = true := by
  simp [inInterface, h4, h]

/-! ### The map (10_state.md rule R33) -/

theorem locate_sample {i : Nat} (h : i < 64) : locate (0x100 + 4 * i) = .sample i := by
  have h1 : (0x100 + 4 * i) / 4 = 64 + i := by omega
  have h2 : (64 + i) / 64 = 1 := by omega
  simp [locate, h1, h2]
  omega

theorem locate_coef {i : Nat} (h : i < 64) : locate (0x200 + 4 * i) = .coef i := by
  have h1 : (0x200 + 4 * i) / 4 = 128 + i := by omega
  have h2 : (128 + i) / 64 = 2 := by omega
  simp [locate, h1, h2]
  omega

theorem locate_zz {i : Nat} (h : i < 64) : locate (0x300 + 4 * i) = .zz i := by
  have h1 : (0x300 + 4 * i) / 4 = 192 + i := by omega
  have h2 : (192 + i) / 64 = 3 := by omega
  simp [locate, h1, h2]
  omega

theorem locate_qt {off : Nat} (h1 : 0x400 ≤ off) (h2 : off < 0x600) : ∃ c k, locate off = .qt c k := by
  rcases (by omega : off / 4 / 64 = 4 ∨ off / 4 / 64 = 5) with h | h
  · exact ⟨.luma, ⟨off / 4 % 64, Nat.mod_lt _ (by decide)⟩, by simp only [locate, h]⟩
  · exact ⟨.chroma, ⟨off / 4 % 64, Nat.mod_lt _ (by decide)⟩, by simp only [locate, h]⟩

theorem locate_buffer {off : Nat} (h1 : 0x100 ≤ off) (h2 : off < 0x400) (h4 : off % 4 = 0) :
    ∃ i < 64, (off = 0x100 + 4 * i ∧ locate off = .sample i) ∨ (off = 0x200 + 4 * i ∧ locate off = .coef i) ∨
      (off = 0x300 + 4 * i ∧ locate off = .zz i) := by
  rcases (by omega : off < 0x200 ∨ (0x200 ≤ off ∧ off < 0x300) ∨ 0x300 ≤ off) with h | h | h
  · have e : 0x100 + 4 * ((off - 0x100) / 4) = off := by omega
    exact ⟨(off - 0x100) / 4, by omega, .inl ⟨e.symm, by have := locate_sample (i := (off - 0x100) / 4) (by omega); rwa [e] at this⟩⟩
  · have e : 0x200 + 4 * ((off - 0x200) / 4) = off := by omega
    exact ⟨(off - 0x200) / 4, by omega, .inr (.inl ⟨e.symm, by have := locate_coef (i := (off - 0x200) / 4) (by omega); rwa [e] at this⟩)⟩
  · have e : 0x300 + 4 * ((off - 0x300) / 4) = off := by omega
    exact ⟨(off - 0x300) / 4, by omega, .inr (.inr ⟨e.symm, by have := locate_zz (i := (off - 0x300) / 4) (by omega); rwa [e] at this⟩)⟩

theorem locate_reserved {off : Nat} (h4 : off % 4 = 0)
    (h : (0x058 ≤ off ∧ off ≤ 0x0FC) ∨ (0x600 ≤ off ∧ off ≤ 0xFFC)) : locate off = .reserved := by
  rcases h with h | h
  · have h0 : off / 4 / 64 = 0 := by omega
    have h1 : regList[off / 4]? = none := by simp [regList]; omega
    simp only [locate, h0, h1]
  · obtain ⟨m, hm⟩ : ∃ m, off / 4 / 64 = m + 6 := ⟨off / 4 / 64 - 6, by omega⟩
    simp only [locate, hm]

/-- What stands at any offset has its index below 64. -/
theorem locate_index (off : Nat) :
    (∃ r, locate off = .reg r) ∨ (∃ i < 64, locate off = .sample i ∨ locate off = .coef i ∨ locate off = .zz i) ∨
    (∃ c k, locate off = .qt c k) ∨ locate off = .reserved := by
  have hm : off / 4 % 64 < 64 := Nat.mod_lt _ (by decide)
  unfold locate
  dsimp only
  split
  · split
    · exact .inl ⟨_, rfl⟩
    · exact .inr (.inr (.inr rfl))
  · exact .inr (.inl ⟨_, hm, .inl rfl⟩)
  · exact .inr (.inl ⟨_, hm, .inr (.inl rfl)⟩)
  · exact .inr (.inl ⟨_, hm, .inr (.inr rfl)⟩)
  · exact .inr (.inr (.inl ⟨_, _, rfl⟩))
  · exact .inr (.inr (.inl ⟨_, _, rfl⟩))
  · exact .inr (.inr (.inr rfl))

/-! ### Accesses -/

/-- Everything a read can do when it gives a next state: it returns a word and may count a draw, and only a read of
OUT_DATA while BUSY = 0 changes the block, popping the oldest byte. -/
theorem readLoc_next {l : Loc} {s t : State} (h : readLoc l s = .next t) :
    (∃ v n, t = { s with replies := v :: s.replies, draws := n }) ∨
    (s.busy = false ∧ ∃ b rest, s.fifo = b :: rest ∧
      t = { s with fifo := rest, replies := BitVec.ofNat 32 (256 + b.toNat) :: s.replies }) := by
  have entry {w : Nat} {name : BufName} {b : Buffer w} {i : Nat} (h : readEntry name b i s = .next t) :
      ∃ v n, t = { s with replies := v :: s.replies, draws := n } := by
    unfold readEntry at h
    split at h
    · cases h
      exact ⟨_, s.draws, rfl⟩
    · cases h
  cases l with
  | reg r =>
    obtain rfl := Host.Outcome.next.inj h
    unfold readReg
    split
    · dsimp only
      split
      · exact .inl ⟨_, _, rfl⟩
      · exact .inl ⟨_, s.draws, rfl⟩
    · rename_i hb
      split
      · rename_i b rest hf
        exact .inr ⟨by simpa using hb, b, rest, hf, rfl⟩
      · exact .inl ⟨_, s.draws, rfl⟩
  | sample i => exact .inl (entry h)
  | coef i =>
    simp only [readLoc] at h
    split at h
    · exact .inl ⟨_, _, (Host.Outcome.next.inj h).symm⟩
    · exact .inl (entry h)
  | zz i =>
    simp only [readLoc] at h
    split at h
    · exact .inl ⟨_, _, (Host.Outcome.next.inj h).symm⟩
    · exact .inl (entry h)
  | qt c k =>
    simp only [readLoc] at h
    split at h
    · exact .inl ⟨_, _, (Host.Outcome.next.inj h).symm⟩
    · exact .inl ⟨_, s.draws, (Host.Outcome.next.inj h).symm⟩
  | reserved => exact .inl ⟨_, s.draws, (Host.Outcome.next.inj h).symm⟩

theorem readLoc_not_refused (l : Loc) (s : State) (r : Refusal) : readLoc l s ≠ .refused r := by
  cases l <;> simp only [readLoc, readEntry] <;> (repeat' split) <;> simp

theorem guardedWrite_busy {s : State} (t : State) (hb : s.busy = true) : guardedWrite s t = setWovr s := by
  simp [guardedWrite, hb]

theorem guardedWrite_idle {s : State} (t : State) (hb : s.busy = false) : guardedWrite s t = t := by
  simp [guardedWrite, hb]

/-- What a write may change while BUSY = 1: INT_STATUS and INT_ENABLE. -/
theorem writeLoc_busy {l : Loc} {v : Word} {s : State} (hb : s.busy = true) :
    writeLoc l v s = { s with intStatus := (writeLoc l v s).intStatus, intEnable := (writeLoc l v s).intEnable } := by
  cases l with
  | reg r => cases r <;> simp only [writeLoc, writeReg, guardedWrite_busy _ hb, setWovr]
  | sample i => simp only [writeLoc, guardedWrite_busy _ hb, setWovr]
  | coef i => simp only [writeLoc, guardedWrite_busy _ hb, setWovr]
  | zz i => simp only [writeLoc, guardedWrite_busy _ hb, setWovr]
  | qt c k => rfl
  | reserved => rfl

/-- What a write may change at all: the latched command with BUSY, the host's registers and the buffers. -/
theorem writeLoc_frame (l : Loc) (v : Word) (s : State) :
    writeLoc l v s = { s with
      intStatus := (writeLoc l v s).intStatus, intEnable := (writeLoc l v s).intEnable
      cmdLatch := (writeLoc l v s).cmdLatch, busy := (writeLoc l v s).busy, quality := (writeLoc l v s).quality
      width := (writeLoc l v s).width, height := (writeLoc l v s).height, sample := (writeLoc l v s).sample
      coef := (writeLoc l v s).coef, zz := (writeLoc l v s).zz } := by
  have hg (u : State) : guardedWrite s u = setWovr s ∨ guardedWrite s u = u := by
    unfold guardedWrite
    split
    · exact .inl rfl
    · exact .inr rfl
  cases l with
  | reg r =>
    cases r with
    | cmd => rcases hg { s with cmdLatch := v, busy := true } with h | h <;> simp only [writeLoc, writeReg, h, setWovr]
    | quality => rcases hg { s with quality := clampQuality v } with h | h <;> simp only [writeLoc, writeReg, h, setWovr]
    | width => rcases hg { s with width := v.setWidth 16 } with h | h <;> simp only [writeLoc, writeReg, h, setWovr]
    | height => rcases hg { s with height := v.setWidth 16 } with h | h <;> simp only [writeLoc, writeReg, h, setWovr]
    | _ => rfl
  | sample i =>
    rcases hg { s with sample := bufWrite s.sample i (v.setWidth 8) } with h | h <;> simp only [writeLoc, h, setWovr]
  | coef i =>
    rcases hg { s with coef := bufWrite s.coef i (v.setWidth 16) } with h | h <;> simp only [writeLoc, h, setWovr]
  | zz i =>
    rcases hg { s with zz := bufWrite s.zz i (v.setWidth 16) } with h | h <;> simp only [writeLoc, h, setWovr]
  | qt c k => rfl
  | reserved => rfl

/-- QUALITY's clamp (10_state.md rule R38). -/
theorem clampQuality_toNat (v : Word) : ((clampQuality v).toNat : Int) = max 1 (min 100 v.toInt) := by
  unfold clampQuality
  split
  · simp
    omega
  · split
    · simp
      omega
    · rename_i h1 h2
      have h3 : v.toInt = v.toNat := by
        rw [BitVec.toInt_eq_toNat_cond] at *
        split
        · rfl
        · rename_i h
          simp_all
          omega
      simp only [BitVec.toNat_setWidth]
      omega

/-- A host access that gives a next state is one of the interface. -/
theorem hostAccess_next {a : HostAccess} {s t : State} (h : hostAccess a s = .next t) :
    (∃ off, inInterface off 4 = true ∧ a = .read off 4 ∧ readLoc (locate off) s = .next t) ∨
    ∃ off v, inInterface off 4 = true ∧ a = .write off 4 v ∧ t = writeLoc (locate off) v s := by
  cases a with
  | read off bytes =>
    simp only [hostAccess] at h
    split at h
    · rename_i hi
      have : bytes = 4 := by
        simp only [inInterface, Bool.and_eq_true, beq_iff_eq] at hi
        exact hi.1.1
      subst this
      exact .inl ⟨off, hi, rfl, h⟩
    · cases h
  | write off bytes v =>
    simp only [hostAccess] at h
    split at h
    · rename_i hi
      have : bytes = 4 := by
        simp only [inInterface, Bool.and_eq_true, beq_iff_eq] at hi
        exact hi.1.1
      subst this
      exact .inr ⟨off, v, hi, rfl, (Host.Outcome.next.inj h).symm⟩
    · cases h

end Sys2Proof.Machine
end

