-- ==== Sys2Proof/Laws/PerInstr.lean ====
section
/-! SUPPORT. Statements made per instruction, one lemma per constructor. -/

namespace Sys2Proof.Laws.RoundTrip

/-- The instruction is well formed, its fields are a legal command word's (30_encoding.md rule R125), and the decoder
reads it back from its word (rules R126, R127). -/
def Statement (i : Instr) : Prop :=
  i.wellFormed = true ∧ (fieldsOf i).wellFormed = true ∧ decode (encode i) = .ok i

theorem nop : Statement .nop := ⟨by decide, by decide, rfl⟩
theorem init : Statement .init := ⟨by decide, by decide, rfl⟩
theorem header : Statement .header := ⟨by decide, by decide, rfl⟩
theorem fdctq0 : Statement .fdctq0 := ⟨by decide, by decide, rfl⟩
theorem fdctq1 : Statement .fdctq1 := ⟨by decide, by decide, rfl⟩
theorem zigzag : Statement .zigzag := ⟨by decide, by decide, rfl⟩
theorem huffY : Statement .huffY := ⟨by decide, by decide, rfl⟩
theorem huffCb : Statement .huffCb := ⟨by decide, by decide, rfl⟩
theorem huffCr : Statement .huffCr := ⟨by decide, by decide, rfl⟩
theorem encblkY : Statement .encblkY := ⟨by decide, by decide, rfl⟩
theorem encblkCb : Statement .encblkCb := ⟨by decide, by decide, rfl⟩
theorem encblkCr : Statement .encblkCr := ⟨by decide, by decide, rfl⟩
theorem finish : Statement .finish := ⟨by decide, by decide, rfl⟩

end Sys2Proof.Laws.RoundTrip
end

