-- ==== Sys2Proof/Laws/Step.lean ====
section
/-! SUPPORT. Everything a step can do, and each command as a run of its rule. -/

namespace Sys2Proof.Machine

/-- Everything a step can do when it gives a next state: an access of the host, the core's step, a wait, a reset. -/
theorem step_cases {s t : State} (h : step s = .next t) :
    let u : State := { s with agenda := s.agenda.tail }
    (∃ a rest, s.agenda = .host a :: rest ∧ hostAccess a u = .next t) ∨
    (s.busy = true ∧ coreStep u = .next t) ∨
    (s.busy = false ∧ t = u) ∨
    ∃ rest, s.agenda = .reset :: rest ∧ t = applyReset u := by
  intro u
  have core (h : coreTurn u = .next t) : (s.busy = true ∧ coreStep u = .next t) ∨ (s.busy = false ∧ t = u) := by
    unfold coreTurn at h
    split at h
    · rename_i hb
      exact .inl ⟨hb, h⟩
    · rename_i hb
      exact .inr ⟨by simpa using hb, (Host.Outcome.next.inj h).symm⟩
  unfold step stepOnce at h
  split at h
  · rename_i ha
    have hu : u = s := by
      have e : s.agenda.tail = s.agenda := by rw [ha]; rfl
      simp only [u, e]
    rw [← hu] at h
    rcases core h with h | h
    · exact .inr (.inl h)
    · exact .inr (.inr (.inl h))
  · rename_i turn rest ha
    have hu : u = { s with agenda := rest } := by simp only [u, ha, List.tail_cons]
    rw [← hu] at h
    cases turn with
    | host a => exact .inl ⟨a, rest, ha, h⟩
    | core =>
      rcases core h with h | h
      · exact .inr (.inl h)
      · exact .inr (.inr (.inl h))
    | reset => exact .inr (.inr (.inr ⟨rest, ha, (Host.Outcome.next.inj h).symm⟩))

/-- A turn is the step of the state in which it comes next. -/
theorem takeTurn_eq_step (t : Turn) (s : State) : takeTurn t s = step { s with agenda := t :: s.agenda } := rfl

/-- Each command's own rule: what it commits, or why it does not. -/
def bodyOf (i : Instr) (s : State) : Except Stop State :=
  match i with
  | .nop => .ok s
  | .init => .ok (initState s)
  | .header => headerBody s
  | .fdctq0 => fdctqBody .luma s
  | .fdctq1 => fdctqBody .chroma s
  | .zigzag => zigzagBody s
  | .huffY => huffBody .y s
  | .huffCb => huffBody .cb s
  | .huffCr => huffBody .cr s
  | .encblkY => encblkBody .y s
  | .encblkCb => encblkBody .cb s
  | .encblkCr => encblkBody .cr s
  | .finish => finishBody s

/-- Every command is the run of its rule. -/
theorem exec_eq_run (i : Instr) (s : State) : exec i s = runCommand i s (bodyOf i s) := by cases i <;> rfl

/-- Everything a command can do when it gives a next state. -/
theorem exec_next {i : Instr} {s t : State} (h : exec i s = .next t) :
    (∃ e, t = reject e s) ∨ (admitted i s = true ∧ ∃ u, bodyOf i s = .ok u ∧ t = complete u) := by
  rw [exec_eq_run] at h
  rcases runCommand_next h with ⟨_, h⟩ | ⟨ha, u, hu, ht⟩ | ⟨_, e, _, ht⟩
  · exact .inl ⟨_, h⟩
  · exact .inr ⟨ha, u, hu, ht⟩
  · exact .inl ⟨e, ht⟩

/-- An admitted command whose rule commits completes. -/
theorem exec_commit {i : Instr} {s u : State} (ha : admitted i s = true) (h : bodyOf i s = .ok u) :
    exec i s = .next (complete u) := by
  rw [exec_eq_run, h, runCommand_ok ha]

/-- An admitted command whose rule raises an error is rejected with it. -/
theorem exec_reject {i : Instr} {s : State} {e : CmdError} (ha : admitted i s = true)
    (h : bodyOf i s = .error (.reject e)) : exec i s = .next (reject e s) := by
  rw [exec_eq_run, h, runCommand_reject ha]

/-- Everything the core's step can do when it gives a next state. -/
theorem coreStep_next {s t : State} (h : coreStep s = .next t) :
    (∃ e, t = reject e s) ∨
    ∃ i, decode s.cmdLatch = .ok i ∧ admitted i s = true ∧ ∃ u, bodyOf i s = .ok u ∧ t = complete u := by
  unfold coreStep at h
  split at h
  · exact .inl ⟨_, (Host.Outcome.next.inj h).symm⟩
  · rename_i i hd
    rcases exec_next h with h | ⟨ha, u, hu, ht⟩
    · exact .inl h
    · exact .inr ⟨i, hd, ha, u, hu, ht⟩

/-! ### What each rule commits -/

theorem headerBody_ok {s u : State} (h : headerBody s = .ok u) :
    s.width ≠ 0 ∧ s.height ≠ 0 ∧
    outLevel s + (headerBytes s.qt0 s.qt1 s.width s.height).length ≤ Config.outDepth ∧
    u = { pushBytes (headerBytes s.qt0 s.qt1 s.width s.height) s with
      mcuTotal := BitVec.ofNat 32 (mcuCount s.width s.height), phase := .headerWritten } := by
  unfold headerBody at h
  split at h
  · cases h
  · rename_i hz
    rw [not_or] at hz
    dsimp only at h
    split at h
    · rename_i hf
      exact ⟨hz.1, hz.2, (fits_iff _ _).1 hf, (Except.ok.inj h).symm⟩
    · cases h

theorem fdctqBody_ok {c : TableClass} {s u : State} (h : fdctqBody c s = .ok u) :
    ∃ x, (∀ i : Fin 64, bufRead s.sample i.val = some x[i]) ∧
      u = { s with coef := bufFill (fdctqResult x (fsOf c s)) } := by
  unfold fdctqBody at h
  split at h
  · cases h
  · rename_i x hx
    exact ⟨x, (bufReadAll_eq_ok _ _).1 hx, (Except.ok.inj h).symm⟩

theorem zigzagBody_ok {s u : State} (h : zigzagBody s = .ok u) :
    ∃ x, (∀ i : Fin 64, bufRead s.coef i.val = some x[i]) ∧ u = { s with zz := bufFill (zigzagBlock x) } := by
  unfold zigzagBody at h
  split at h
  · cases h
  · rename_i x hx
    exact ⟨x, (bufReadAll_eq_ok _ _).1 hx, (Except.ok.inj h).symm⟩

theorem huffBody_ok {k : Comp} {s u : State} (h : huffBody k s = .ok u) :
    ∃ zz, (∀ i : Fin 64, bufRead s.zz i.val = some zz[i]) ∧ codeBlock k zz s = .ok u := by
  unfold huffBody at h
  split at h
  · cases h
  · rename_i x hx
    exact ⟨x, (bufReadAll_eq_ok _ _).1 hx, h⟩

theorem codeBlock_eq_ok {k : Comp} {zz : Block (BitVec 16)} {s u : State} (h : codeBlock k zz s = .ok u) :
    ∃ cs, blockCodes k zz (predOf k s) = .ok cs ∧
      outLevel s + (emitAll (writerOf s) cs).pending.length ≤ Config.outDepth ∧
      u = advance k (setPred k zz[0] (commitWriter (emitAll (writerOf s) cs) s)) := by
  rcases codeBlock_cases k zz s with ⟨e, _, he⟩ | ⟨cs, hc, ⟨hr, hu⟩ | ⟨_, he⟩⟩
  · rw [he] at h
    cases h
  · rw [hu] at h
    exact ⟨cs, hc, hr, (Except.ok.inj h).symm⟩
  · rw [he] at h
    cases h

theorem encblkBody_ok {k : Comp} {s u : State} (h : encblkBody k s = .ok u) :
    ∃ x v, (∀ i : Fin 64, bufRead s.sample i.val = some x[i]) ∧
      codeBlock k (zigzagBlock (fdctqResult x (fsOf (classOf k) s))) s = .ok v ∧
      u = { v with
        coef := bufFill (fdctqResult x (fsOf (classOf k) s))
        zz := bufFill (zigzagBlock (fdctqResult x (fsOf (classOf k) s))) } := by
  unfold encblkBody at h
  split at h
  · cases h
  · rename_i x hx
    dsimp only at h
    split at h
    · cases h
    · rename_i v hv
      exact ⟨x, v, (bufReadAll_eq_ok _ _).1 hx, hv, (Except.ok.inj h).symm⟩

theorem finishBody_ok {s u : State} (h : finishBody s = .ok u) :
    outLevel s + (finishWriter s).pending.length ≤ Config.outDepth ∧
    u = { commitWriter (finishWriter s) s with phase := .finalized } := by
  unfold finishBody at h
  dsimp only at h
  split at h
  · rename_i hf
    exact ⟨(fits_iff _ _).1 hf, (Except.ok.inj h).symm⟩
  · cases h

end Sys2Proof.Machine
end

