-- ==== Sys2Proof/Tests/Slice0.lean ====
section
/-! SUPPORT. Tests: expected results are the spec's own (95_test_vectors.md, 48_rom_tables.md, 30_encoding.md), or worked out by
hand from a rule; and a witness for each obligation that has hypotheses. -/

namespace Sys2Proof.Machine.Tests

-- One theorem after another: evaluations waiting on one another would each hold a thread's stack.
set_option Elab.async false

/-- A field of the next state an outcome gives. -/
def nextOf {α : Type} (o : Host.Outcome State Fault Refusal) (f : State → α) : Option α :=
  match o with
  | .next s => some (f s)
  | .fault _ => none
  | .refused _ => none

/-- The word a host read returns. -/
def readOf (off : Nat) (s : State) : Option Word := (nextOf (hostAccess (.read off 4) s) State.replies).bind (·.head?)

/-- The state a host write leaves; the state itself if there is none. -/
def wr (off : Nat) (v : Word) (s : State) : State := (nextOf (hostAccess (.write off 4 v) s) id).getD s

/-- After INIT from reset: QUALITY 80's tables. -/
def q80 : State := initState State.reset

/-- After HEADER for an 8x8 image, the FIFO drained. -/
def scan : State := { q80 with phase := .headerWritten, mcuTotal := 1, outTotal := 607 }

/-- A block of 64 equal samples. -/
def flat (v : Byte) : Block Byte := Vector.replicate 64 v

/-- A block of zeros but for the entries listed. -/
def sparse (l : List (Nat × BitVec 16)) : Block (BitVec 16) := tabulate fun i => (l.lookup i.val).getD 0

/-- A state before HUFF with the given ZZ. -/
def withZz (k : Comp) (l : List (Nat × BitVec 16)) : State := { scan with nextComp := k, zz := bufFill (sparse l) }

/-- What the HUFF vectors show: pushed bytes, ACC, COUNT, PRED_Y. -/
def huffView (s : State) : List Byte × Byte × BitVec 3 × BitVec 16 := (s.fifo, s.acc, s.count, s.predY)

/-- What the rejection vectors show: STATUS and ERRDETAIL. -/
def errView (s : State) : Word × Word := (statusWord s, s.errDetail)

/-! ### WellFormed: an ill-formed term for each check (30_encoding.md rule R125) -/

theorem test_wf_reserved_opcode : CmdFields.wellFormed ⟨8, 0, 0, 0⟩ = false := by decide
theorem test_wf_reserved_bits : CmdFields.wellFormed ⟨1, 0, 0, 1⟩ = false := by decide
theorem test_wf_comp_three : CmdFields.wellFormed ⟨5, 3, 0, 0⟩ = false := by decide
theorem test_wf_comp_unused : CmdFields.wellFormed ⟨3, 1, 0, 0⟩ = false := by decide
theorem test_wf_cls_unused : CmdFields.wellFormed ⟨6, 0, 1, 0⟩ = false := by decide
theorem test_wf_legal : CmdFields.wellFormed ⟨3, 0, 1, 0⟩ = true ∧ CmdFields.wellFormed ⟨6, 2, 0, 0⟩ = true := by decide

/-! ### Decoding: RES | CLS | COMP | OP written out bit by bit (30_encoding.md rules R120, R121, R127) -/

theorem test_decode_nop : decode 0b0000000000000000000000000_0_00_0000 = .ok .nop := by rfl
theorem test_decode_init : decode 0b0000000000000000000000000_0_00_0001 = .ok .init := by rfl
theorem test_decode_header : decode 0b0000000000000000000000000_0_00_0010 = .ok .header := by rfl
theorem test_decode_fdctq : decode 0b0000000000000000000000000_0_00_0011 = .ok .fdctq0 ∧
    decode 0b0000000000000000000000000_1_00_0011 = .ok .fdctq1 := ⟨rfl, rfl⟩
theorem test_decode_zigzag : decode 0b0000000000000000000000000_0_00_0100 = .ok .zigzag := by rfl
theorem test_decode_huff : decode 0b0000000000000000000000000_0_00_0101 = .ok .huffY ∧
    decode 0b0000000000000000000000000_0_01_0101 = .ok .huffCb ∧
    decode 0b0000000000000000000000000_0_10_0101 = .ok .huffCr := ⟨rfl, rfl, rfl⟩
theorem test_decode_encblk : decode 0b0000000000000000000000000_0_00_0110 = .ok .encblkY ∧
    decode 0b0000000000000000000000000_0_01_0110 = .ok .encblkCb ∧
    decode 0b0000000000000000000000000_0_10_0110 = .ok .encblkCr := ⟨rfl, rfl, rfl⟩
theorem test_decode_finish : decode 0b0000000000000000000000000_0_00_0111 = .ok .finish := by rfl
/-- Vectors S2 to S8. -/
theorem test_decode_illegal : decode 0x00000008 = .error .reservedOpcode ∧ decode 0x00000080 = .error .reservedBits ∧
    decode 0x00000035 = .error .compThree ∧ decode 0x00000013 = .error .compUnused ∧
    decode 0x00000044 = .error .clsUnused ∧ decode 0x00000046 = .error .clsUnused ∧
    decode 0x80000001 = .error .reservedBits := ⟨rfl, rfl, rfl, rfl, rfl, rfl, rfl⟩
theorem test_table_word : decodeTableWord 32 0x43 = some .fdctq1 ∧ decodeTableWord 32 0x23 = none := ⟨rfl, rfl⟩
theorem test_fetch_word : nextOf (step (State.reset.withFetchWord 32 0x01)) (fun t => (t.phase, t.agenda, t.cmdLatch)) =
    some (.initialized, [], 1) := by decide

/-! ### ROM (48_rom_tables.md rules R387 to R390): symbol, code, length -/

theorem test_dc_luma : (htDc .luma).map (fun p => (p.1, p.2.code, p.2.len)) =
    [(0x00, 0, 2), (0x01, 2, 3), (0x02, 3, 3), (0x03, 4, 3), (0x04, 5, 3), (0x05, 6, 3), (0x06, 14, 4), (0x07, 30, 5), (0x08, 62, 6)] ++
    [(0x09, 126, 7), (0x0A, 254, 8), (0x0B, 510, 9)] := by decide
theorem test_dc_chroma : (htDc .chroma).map (fun p => (p.1, p.2.code, p.2.len)) =
    [(0x00, 0, 2), (0x01, 1, 2), (0x02, 2, 2), (0x03, 6, 3), (0x04, 14, 4), (0x05, 30, 5), (0x06, 62, 6), (0x07, 126, 7), (0x08, 254, 8)] ++
    [(0x09, 510, 9), (0x0A, 1022, 10), (0x0B, 2046, 11)] := by decide

/-- Rule R389, by symbol. -/
def acLumaExpected : List (Nat × Nat × Nat) :=
    [(0x00, 10, 4), (0x01, 0, 2), (0x02, 1, 2), (0x03, 4, 3), (0x04, 11, 4), (0x05, 26, 5), (0x06, 120, 7), (0x07, 248, 8), (0x08, 1014, 10)] ++
    [(0x09, 65410, 16), (0x0A, 65411, 16), (0x11, 12, 4), (0x12, 27, 5), (0x13, 121, 7), (0x14, 502, 9), (0x15, 2038, 11), (0x16, 65412, 16), (0x17, 65413, 16)] ++
    [(0x18, 65414, 16), (0x19, 65415, 16), (0x1A, 65416, 16), (0x21, 28, 5), (0x22, 249, 8), (0x23, 1015, 10), (0x24, 4084, 12), (0x25, 65417, 16), (0x26, 65418, 16)] ++
    [(0x27, 65419, 16), (0x28, 65420, 16), (0x29, 65421, 16), (0x2A, 65422, 16), (0x31, 58, 6), (0x32, 503, 9), (0x33, 4085, 12), (0x34, 65423, 16), (0x35, 65424, 16)] ++
    [(0x36, 65425, 16), (0x37, 65426, 16), (0x38, 65427, 16), (0x39, 65428, 16), (0x3A, 65429, 16), (0x41, 59, 6), (0x42, 1016, 10), (0x43, 65430, 16), (0x44, 65431, 16)] ++
    [(0x45, 65432, 16), (0x46, 65433, 16), (0x47, 65434, 16), (0x48, 65435, 16), (0x49, 65436, 16), (0x4A, 65437, 16), (0x51, 122, 7), (0x52, 2039, 11), (0x53, 65438, 16)] ++
    [(0x54, 65439, 16), (0x55, 65440, 16), (0x56, 65441, 16), (0x57, 65442, 16), (0x58, 65443, 16), (0x59, 65444, 16), (0x5A, 65445, 16), (0x61, 123, 7), (0x62, 4086, 12)] ++
    [(0x63, 65446, 16), (0x64, 65447, 16), (0x65, 65448, 16), (0x66, 65449, 16), (0x67, 65450, 16), (0x68, 65451, 16), (0x69, 65452, 16), (0x6A, 65453, 16), (0x71, 250, 8)] ++
    [(0x72, 4087, 12), (0x73, 65454, 16), (0x74, 65455, 16), (0x75, 65456, 16), (0x76, 65457, 16), (0x77, 65458, 16), (0x78, 65459, 16), (0x79, 65460, 16), (0x7A, 65461, 16)] ++
    [(0x81, 504, 9), (0x82, 32704, 15), (0x83, 65462, 16), (0x84, 65463, 16), (0x85, 65464, 16), (0x86, 65465, 16), (0x87, 65466, 16), (0x88, 65467, 16), (0x89, 65468, 16)] ++
    [(0x8A, 65469, 16), (0x91, 505, 9), (0x92, 65470, 16), (0x93, 65471, 16), (0x94, 65472, 16), (0x95, 65473, 16), (0x96, 65474, 16), (0x97, 65475, 16), (0x98, 65476, 16)] ++
    [(0x99, 65477, 16), (0x9A, 65478, 16), (0xA1, 506, 9), (0xA2, 65479, 16), (0xA3, 65480, 16), (0xA4, 65481, 16), (0xA5, 65482, 16), (0xA6, 65483, 16), (0xA7, 65484, 16)] ++
    [(0xA8, 65485, 16), (0xA9, 65486, 16), (0xAA, 65487, 16), (0xB1, 1017, 10), (0xB2, 65488, 16), (0xB3, 65489, 16), (0xB4, 65490, 16), (0xB5, 65491, 16), (0xB6, 65492, 16)] ++
    [(0xB7, 65493, 16), (0xB8, 65494, 16), (0xB9, 65495, 16), (0xBA, 65496, 16), (0xC1, 1018, 10), (0xC2, 65497, 16), (0xC3, 65498, 16), (0xC4, 65499, 16), (0xC5, 65500, 16)] ++
    [(0xC6, 65501, 16), (0xC7, 65502, 16), (0xC8, 65503, 16), (0xC9, 65504, 16), (0xCA, 65505, 16), (0xD1, 2040, 11), (0xD2, 65506, 16), (0xD3, 65507, 16), (0xD4, 65508, 16)] ++
    [(0xD5, 65509, 16), (0xD6, 65510, 16), (0xD7, 65511, 16), (0xD8, 65512, 16), (0xD9, 65513, 16), (0xDA, 65514, 16), (0xE1, 65515, 16), (0xE2, 65516, 16), (0xE3, 65517, 16)] ++
    [(0xE4, 65518, 16), (0xE5, 65519, 16), (0xE6, 65520, 16), (0xE7, 65521, 16), (0xE8, 65522, 16), (0xE9, 65523, 16), (0xEA, 65524, 16), (0xF0, 2041, 11), (0xF1, 65525, 16)] ++
    [(0xF2, 65526, 16), (0xF3, 65527, 16), (0xF4, 65528, 16), (0xF5, 65529, 16), (0xF6, 65530, 16), (0xF7, 65531, 16), (0xF8, 65532, 16), (0xF9, 65533, 16), (0xFA, 65534, 16)]

/-- Rule R390, by symbol. -/
def acChromaExpected : List (Nat × Nat × Nat) :=
    [(0x00, 0, 2), (0x01, 1, 2), (0x02, 4, 3), (0x03, 10, 4), (0x04, 24, 5), (0x05, 25, 5), (0x06, 56, 6), (0x07, 120, 7), (0x08, 500, 9)] ++
    [(0x09, 1014, 10), (0x0A, 4084, 12), (0x11, 11, 4), (0x12, 57, 6), (0x13, 246, 8), (0x14, 501, 9), (0x15, 2038, 11), (0x16, 4085, 12), (0x17, 65416, 16)] ++
    [(0x18, 65417, 16), (0x19, 65418, 16), (0x1A, 65419, 16), (0x21, 26, 5), (0x22, 247, 8), (0x23, 1015, 10), (0x24, 4086, 12), (0x25, 32706, 15), (0x26, 65420, 16)] ++
    [(0x27, 65421, 16), (0x28, 65422, 16), (0x29, 65423, 16), (0x2A, 65424, 16), (0x31, 27, 5), (0x32, 248, 8), (0x33, 1016, 10), (0x34, 4087, 12), (0x35, 65425, 16)] ++
    [(0x36, 65426, 16), (0x37, 65427, 16), (0x38, 65428, 16), (0x39, 65429, 16), (0x3A, 65430, 16), (0x41, 58, 6), (0x42, 502, 9), (0x43, 65431, 16), (0x44, 65432, 16)] ++
    [(0x45, 65433, 16), (0x46, 65434, 16), (0x47, 65435, 16), (0x48, 65436, 16), (0x49, 65437, 16), (0x4A, 65438, 16), (0x51, 59, 6), (0x52, 1017, 10), (0x53, 65439, 16)] ++
    [(0x54, 65440, 16), (0x55, 65441, 16), (0x56, 65442, 16), (0x57, 65443, 16), (0x58, 65444, 16), (0x59, 65445, 16), (0x5A, 65446, 16), (0x61, 121, 7), (0x62, 2039, 11)] ++
    [(0x63, 65447, 16), (0x64, 65448, 16), (0x65, 65449, 16), (0x66, 65450, 16), (0x67, 65451, 16), (0x68, 65452, 16), (0x69, 65453, 16), (0x6A, 65454, 16), (0x71, 122, 7)] ++
    [(0x72, 2040, 11), (0x73, 65455, 16), (0x74, 65456, 16), (0x75, 65457, 16), (0x76, 65458, 16), (0x77, 65459, 16), (0x78, 65460, 16), (0x79, 65461, 16), (0x7A, 65462, 16)] ++
    [(0x81, 249, 8), (0x82, 65463, 16), (0x83, 65464, 16), (0x84, 65465, 16), (0x85, 65466, 16), (0x86, 65467, 16), (0x87, 65468, 16), (0x88, 65469, 16), (0x89, 65470, 16)] ++
    [(0x8A, 65471, 16), (0x91, 503, 9), (0x92, 65472, 16), (0x93, 65473, 16), (0x94, 65474, 16), (0x95, 65475, 16), (0x96, 65476, 16), (0x97, 65477, 16), (0x98, 65478, 16)] ++
    [(0x99, 65479, 16), (0x9A, 65480, 16), (0xA1, 504, 9), (0xA2, 65481, 16), (0xA3, 65482, 16), (0xA4, 65483, 16), (0xA5, 65484, 16), (0xA6, 65485, 16), (0xA7, 65486, 16)] ++
    [(0xA8, 65487, 16), (0xA9, 65488, 16), (0xAA, 65489, 16), (0xB1, 505, 9), (0xB2, 65490, 16), (0xB3, 65491, 16), (0xB4, 65492, 16), (0xB5, 65493, 16), (0xB6, 65494, 16)] ++
    [(0xB7, 65495, 16), (0xB8, 65496, 16), (0xB9, 65497, 16), (0xBA, 65498, 16), (0xC1, 506, 9), (0xC2, 65499, 16), (0xC3, 65500, 16), (0xC4, 65501, 16), (0xC5, 65502, 16)] ++
    [(0xC6, 65503, 16), (0xC7, 65504, 16), (0xC8, 65505, 16), (0xC9, 65506, 16), (0xCA, 65507, 16), (0xD1, 2041, 11), (0xD2, 65508, 16), (0xD3, 65509, 16), (0xD4, 65510, 16)] ++
    [(0xD5, 65511, 16), (0xD6, 65512, 16), (0xD7, 65513, 16), (0xD8, 65514, 16), (0xD9, 65515, 16), (0xDA, 65516, 16), (0xE1, 16352, 14), (0xE2, 65517, 16), (0xE3, 65518, 16)] ++
    [(0xE4, 65519, 16), (0xE5, 65520, 16), (0xE6, 65521, 16), (0xE7, 65522, 16), (0xE8, 65523, 16), (0xE9, 65524, 16), (0xEA, 65525, 16), (0xF0, 1018, 10), (0xF1, 32707, 15)] ++
    [(0xF2, 65526, 16), (0xF3, 65527, 16), (0xF4, 65528, 16), (0xF5, 65529, 16), (0xF6, 65530, 16), (0xF7, 65531, 16), (0xF8, 65532, 16), (0xF9, 65533, 16), (0xFA, 65534, 16)]

theorem test_ac_luma : acLumaExpected.all (fun p => codeOf (htAc .luma) p.1 == ⟨p.2.1, p.2.2⟩) = true := by
  decide +kernel
theorem test_ac_chroma : acChromaExpected.all (fun p => codeOf (htAc .chroma) p.1 == ⟨p.2.1, p.2.2⟩) = true := by
  decide +kernel

/-! ### The window (vectors A1 to A21, T1, T2) -/

/-- A5 -/
theorem test_quality_clamps : [0, 1, 50, 100, 101, 0x7FFFFFFF, 0x80000000, 0xFFFFFFFF].map
    (fun v => readOf 0x010 (wr 0x010 v .reset)) =
    [some 1, some 1, some 50, some 100, some 100, some 100, some 1, some 1] := by decide
/-- A6, A9 -/
theorem test_entries_sign_extend : readOf 0x100 (wr 0x100 0x180 .reset) = some 0xFFFFFF80 ∧
    readOf 0x3FC (wr 0x3FC 0x8000 .reset) = some 0xFFFF8000 := by decide
/-- A11, A12 -/
theorem test_int_status_clears : (wr 0x020 2 { State.reset with intStatus := 7 }).intStatus = 5 ∧
    (wr 0x020 0xFFFFFFF8 { State.reset with intStatus := 7 }).intStatus = 7 := by decide
/-- A15 -/
theorem test_out_data_pops : readOf 0x04C { State.reset with fifo := [0x28, 0x03] } = some 0x128 ∧
    nextOf (hostAccess (.read 0x04C 4) { State.reset with fifo := [0x28, 0x03] }) State.fifo = some [0x03] := by decide
/-- A16, A17 -/
theorem test_busy_write_is_dropped :
    (wr 0x100 5 { State.reset with busy := true }).intStatus = 4 ∧
    (wr 0x100 5 { State.reset with busy := true }).sample = [] ∧
    (wr 0x00C 0 { State.reset with busy := true, cmdLatch := 1 }).cmdLatch = 1 := by decide
/-- A21 -/
theorem test_halfword_is_refused : hostAccess (.read 0x002 2) .reset = .refused (.notAnAccess 2 2) ∧
    hostAccess (.read 0x002 4) .reset = .refused (.notAnAccess 2 4) := ⟨rfl, rfl⟩
/-- T2 -/
theorem test_unwritten_read_faults : hostAccess (.read (0x200 + 4 * 17) 4) .reset = .fault (.hostReadUnwritten .coef 17) ∧
    readOf 0x100 (wr 0x100 3 .reset) = some 3 ∧
    hostAccess (.read 0x104 4) (wr 0x100 3 .reset) = .fault (.hostReadUnwritten .sample 1) :=
  ⟨rfl, by decide, rfl⟩

/-! ### The instructions -/

/-- S1 in ERROR -/
theorem test_nop : exec .nop { State.reset with phase := .error, busy := true } =
    .next { State.reset with phase := .error, intStatus := 1 } := rfl

/-- I1, row 80; I2's last DC entries -/
theorem test_init_q80 : nextOf (exec .init .reset) (fun t =>
    (t.scale, t.qt0.toList.take 8, t.qt1.toList.take 8, t.fs0[0])) =
    some (40, [6, 4, 5, 6, 5, 4, 6, 6], [7, 7, 7, 10, 8, 10, 19, 10], 0x3F95555555555555) := by decide +kernel
/-- I1, row 49 -/
theorem test_init_q49 : nextOf (exec .init { State.reset with quality := 49 }) (fun t =>
    (t.scale, t.qt0.toList.take 8, t.qt1.toList.take 8)) =
    some (102, [16, 11, 12, 14, 12, 10, 16, 14], [17, 18, 18, 24, 21, 24, 48, 27]) := by decide +kernel

/-- R3 -/
theorem test_header_wide : nextOf (exec .header { q80 with width := 65535, height := 1 }) (fun t =>
    (t.fifo.length, (t.fifo.drop 159).take 4, t.mcuTotal, t.outTotal, statusWord t)) =
    some (607, [0x00, 0x01, 0xFF, 0xFF], 8192, 607, 0x00000004) := by decide +kernel
/-- 45_container.md rule R285: where DHT's four tables begin, at 173 + 4, and 29, 179 and 29 bytes on, and its last byte. -/
theorem test_dht_tables : nextOf (exec .header { q80 with width := 1, height := 1 }) (fun t =>
    [173, 174, 177, 206, 385, 414, 592].map (t.fifo[·]?)) =
    some ([0xFF, 0xC4, 0x00, 0x10, 0x01, 0x11, 0xFA].map some) := by decide +kernel
/-- R7 -/
theorem test_header_zero_height : nextOf (exec .header { q80 with width := 5 }) errView = some (0x0000020A, 2) := by
  decide +kernel

/-- F18, luma -/
theorem test_fdctq0_checkerboard : nextOf (exec .fdctq0
    { q80 with sample := bufFill (tabulate fun i => if (i.val / 8 + i.val % 8) % 2 = 0 then 127 else 128) })
    (fun t => [0, 9, 15, 31, 63].map (bufRead t.coef)) =
    some [some 0xFFFF, some 7, some 8, some 8, some 21] := by decide +kernel
/-- F15, chroma -/
theorem test_fdctq1_ramp : nextOf (exec .fdctq1
    { q80 with sample := bufFill (tabulate fun i => BitVec.ofInt 8 (16 * ((i.val % 8 : Nat) : Int) - 64)) })
    (fun t => [0, 1, 3, 8].map (bufRead t.coef)) =
    some [some (BitVec.ofInt 16 (-9)), some (BitVec.ofInt 16 (-42)), some (BitVec.ofInt 16 (-2)), some 0] := by
  decide +kernel
/-- F20 -/
theorem test_round_half_away : roundHalfAway (ofDecimal 5 2) = some 3 ∧ roundHalfAway (neg64 (ofDecimal 5 2)) = some (-3) ∧
    roundHalfAway (ofDecimal 4999 10000) = some 0 ∧
    roundHalfAway (ofDecimal 49999999999999994 100000000000000000) = some 1 ∧
    roundHalfAway (neg64 0) = some 0 := by decide +kernel

/-- Z4, row 0 column 7 and row 7 column 0 -/
theorem test_zigzag_corners :
    nextOf (exec .zigzag { q80 with coef := bufFill (sparse [(7, 1), (56, 2)]) }) (fun t => t.zz) =
    some (bufFill (sparse [(28, 1), (35, 2)])) := by decide +kernel
/-- Z6 -/
theorem test_zigzag_after_reset : exec .zigzag .reset = .fault (.commandReadUnwritten .coef 0) := rfl

/-- H14 -/
theorem test_huffY_three_zrl : nextOf (exec .huffY (withZz .y [(63, 1)])) huffView =
    some ([0x3F, 0xCF, 0xF9, 0xFF, 0x00, 0x3F, 0xFD], 0x70, 4, 0) := by decide +kernel
/-- H21 -/
theorem test_huffY_fatal : nextOf (exec .huffY { withZz .y [] with predY := BitVec.ofInt 16 (-2048) }) errView =
    some (0x0000030A, 0x00000C00) := by decide +kernel
/-- H13 -/
theorem test_huffCb_category_11 : nextOf (exec .huffCb (withZz .cb [(0, 2047)])) huffView =
    some ([0xFF, 0x00, 0xDF, 0xFC], 0, 0, 0) := by decide +kernel
/-- H24 -/
theorem test_huffCb_fatal : nextOf (exec .huffCb (withZz .cb [(0, 2047), (5, 1024)])) (fun t => t.errDetail) =
    some 0x00010B05 := by decide +kernel
/-- H15 -/
theorem test_huffCr_no_eob : nextOf (exec .huffCr (withZz .cr [(63, 1)])) (fun t => (t.fifo, t.acc, t.count, t.mcuDone)) =
    some ([0x3F, 0xAF, 0xEB, 0xFA, 0xFF, 0x00], 0x82, 7, 1) := by decide +kernel
/-- H25 -/
theorem test_huffCr_fatal : nextOf (exec .huffCr (withZz .cr [(63, BitVec.ofInt 16 (-1024))])) (fun t => t.errDetail) =
    some 0x00020B3F := by decide +kernel

/-- K1 -/
theorem test_encblkY : nextOf (exec .encblkY { scan with sample := bufFill (flat 100) }) (fun t =>
    (huffView t, statusWord t)) = some (([0xFA, 0x16], 0x80, 2, 133), 0x00000016) := by decide +kernel
/-- P2, MCU 0 Cb -/
theorem test_encblkCb : nextOf (exec .encblkCb { scan with nextComp := .cb, sample := bufFill (flat 0xD5) }) (fun t =>
    (t.fifo, bitAccWord t, t.predCb)) = some ([0xF8], 0x6E0, BitVec.ofInt 16 (-49)) := by decide +kernel
/-- P2, MCU 0 Cr -/
theorem test_encblkCr : nextOf (exec .encblkCr
    { scan with nextComp := .cr, acc := 0xE0, count := 6, sample := bufFill (flat 0x7F) })
    (fun t => (t.fifo, bitAccWord t, t.predCr)) = some ([0xE3, 0xFA, 0x44], 0, 145) := by decide +kernel
/-- K4 -/
theorem test_encblkY_after_last : nextOf (exec .encblkY { scan with mcuDone := 1 }) errView = some (0x0000050A, 0) := by
  decide +kernel

/-- B6, B8 -/
theorem test_finish_pads :
    nextOf (exec .finish { scan with phase := .scanning, mcuDone := 1, count := 6 }) (fun t => (t.fifo, t.phase)) =
      some ([0x03, 0xFF, 0xD9], .finalized) ∧
    nextOf (exec .finish { scan with phase := .scanning, mcuDone := 1, acc := 0xFE, count := 7 }) (fun t => t.fifo) =
      some [0xFF, 0x00, 0xFF, 0xD9] := by decide +kernel
/-- S14 -/
theorem test_finish_needs_scanning : nextOf (exec .finish scan) (fun t => t.errCode) = some .sequenceError := by
  decide +kernel

/-- P3: HEADER in IDLE -/
theorem test_header_in_idle : nextOf (step (State.reset.withFetchWord 32 2)) (fun t =>
    (statusWord t, t.errCmd, t.intStatus)) = some (0x0000050A, 2, 3) := by decide
/-- S17 -/
theorem test_error_in_error : coreStep
    { State.reset with phase := .error, errCode := .sequenceError, errCmd := 2, busy := true, cmdLatch := 8 } =
    .next { State.reset with phase := .error, errCode := .sequenceError, errCmd := 2, cmdLatch := 8, intStatus := 3 } :=
  rfl
/-- 47_host_contract.md rule R364, by ERRCODE (60_exceptions.md rule R400), codes 2 to 6. -/
theorem test_host_actions : [2, 3, 4, 5, 6].map hostAction =
    [.invalidInputError, .fatalInvariantError, .abort, .abort, .drainAndReissue] := by decide
/-- 47_host_contract.md rule R352: the default, and what QUALITY stores of 0 and 101; the last two by log 22. -/
theorem test_quality_word : [none, some 0, some 101, some (2 ^ 32 + 50), some (-2 ^ 40)].map
    (fun q => clampQuality (qualityWord ⟨[], 1, 1, 3, q⟩)) = [80, 1, 100, 100, 1] := by decide
/-- CHECK (47_host_contract.md rule R360): ERR = 0 only clears INT_STATUS; ERR = 1 has ERRCODE read. -/
theorem test_check : (afterOp (.check .header) [.drain] 1 ⟨[], [], none⟩).ops = [.write 0x020 7, .drain] ∧
    (afterOp (.check .header) [.drain] 3 ⟨[], [], none⟩).ops = [.readCode .header, .drain] := by decide
/-- The same rule: on OUT_OVERFLOW the FIFO is drained and HEADER reissued; on SEQUENCE_ERROR the image is aborted. -/
theorem test_check_acts : (afterOp (.readCode .header) [.drain] 0x602 ⟨[], [], none⟩).ops =
      [.write 0x020 7, .drain, .issue .header, .wait, .check .header, .drain] ∧
    afterOp (.readCode .header) [.drain] 0x50A ⟨[], [], none⟩ = ⟨[.write 0x020 7], [], some .aborted⟩ := by decide
/-- The same rule: WAIT and DRAIN go round until BUSY, respectively VALID, reads 0. -/
theorem test_host_loops : (afterOp .wait [.drain] 1 ⟨[], [], none⟩).ops = [.wait, .drain] ∧
    (afterOp .wait [.drain] 0x266 ⟨[], [], none⟩).ops = [.drain] ∧
    afterOp .drain [.wait] 0x1FF ⟨[], [0x28], none⟩ = ⟨[.drain, .wait], [0x28, 0xFF], none⟩ ∧
    (afterOp .drain [.wait] 0 ⟨[], [0x28], none⟩).ops = [.wait] := by decide
/-- 2.10 -/
theorem test_colour_transform : ycc 255 0 0 = ⟨-52, -43, 127⟩ ∧ ycc 0 255 0 = ⟨22, -84, -107⟩ ∧
    ycc 0 0 255 = ⟨-99, 127, -21⟩ ∧ ycc 128 128 128 = ⟨0, 0, 0⟩ := by decide

/-! ### Witnesses: states and operands that meet each obligation's hypotheses, one per clause, at the ends of its range -/

/-- A busy state with the given command latched and the core's turn next. -/
def issued (w : Word) : State := { State.reset with cmdLatch := w, busy := true, agenda := [.core] }

/-- The reset state, BUSY. -/
def busyState : State := { State.reset with busy := true }

/-- The reset state with these turns to come. -/
def turns (a : List Turn) : State := { State.reset with agenda := a }

/-- Every buffer written with zeros, tables built, in INITIALIZED. -/
def filled : State := { q80 with sample := bufFill (flat 0), coef := bufFill (sparse []), zz := bufFill (sparse []) }

/-- The same, in HEADER_WRITTEN with one MCU to come, component k due. -/
def coding (k : Comp) : State := { filled with phase := .headerWritten, mcuTotal := 1, outTotal := 607, nextComp := k }

/-- The same with the last MCU done. -/
def allDone : State := { coding .y with phase := .scanning, mcuDone := 1 }

/-- The codes of an all-zero block: DC category 0, then EOB. -/
def zeroCodes (k : Comp) : List Code := [codeOf (htDc (classOf k)) 0, codeOf (htAc (classOf k)) 0]

theorem zeroCodes_eq (k : Comp) : blockCodes k (sparse []) 0 = .ok (zeroCodes k) := by
  cases k <;> decide +kernel

theorem filled_sample (i : Fin 64) : bufRead filled.sample i.val = some (flat 0)[i] := bufRead_bufFill _ i
theorem filled_coef (i : Fin 64) : bufRead filled.coef i.val = some (sparse [])[i] := bufRead_bufFill _ i
theorem filled_zz (i : Fin 64) : bufRead filled.zz i.val = some (sparse [])[i] := bufRead_bufFill _ i

theorem room (n : Nat) (h : n ≤ 1024) : n ≤ Config.outDepth := Nat.le_trans h outDepth_ge

theorem witness_IllegalWordsAreTheFiveCases :
    decode { State.reset with cmdLatch := 8 }.cmdLatch = .error .reservedOpcode := rfl

theorem witness_StepRunsTheDecodedCommand :
    ((issued 1).busy = true ∧ (issued 1).agenda = .core :: [] ∧ decode (issued 1).cmdLatch = .ok .init) ∧
    (busyState.busy = true ∧ busyState.agenda = [] ∧ decode busyState.cmdLatch = .ok .nop) ∧
    ((issued 0x80).busy = true ∧ (issued 0x80).agenda = .core :: [] ∧
      decode (issued 0x80).cmdLatch = .error .reservedBits) ∧
    { busyState with cmdLatch := 8 }.agenda = [] ∧ decode { busyState with cmdLatch := 8 }.cmdLatch = .error .reservedOpcode := by
  decide

theorem witness_HostAndResetTurnsAreTaken :
    (turns [.host (.read 0 4)]).agenda = .host (.read 0 4) :: [] ∧ (turns [.reset, .core]).agenda = .reset :: [.core] ∧
    (turns [.core]).busy = false ∧ (turns [.core]).agenda = .core :: [] ∧
    State.reset.busy = false ∧ State.reset.agenda = [] := by decide

theorem witness_RegistersReadTheirFields :
    filled.busy = false ∧ bufRead filled.sample 0 = some 0 ∧ bufRead filled.sample 63 = some 0 ∧
    bufRead filled.coef 0 = some 0 ∧ bufRead filled.coef 63 = some 0 ∧ bufRead filled.zz 0 = some 0 ∧
    bufRead filled.zz 63 = some 0 := by decide +kernel

theorem witness_AccessesOutsideTheInterfaceAreRefused :
    (2 ≠ 4 ∨ 0 % 4 ≠ 0 ∨ 0xFFF < 0) ∧ (4 ≠ 4 ∨ 0xFFD % 4 ≠ 0 ∨ 0xFFF < 0xFFD) ∧
    (4 ≠ 4 ∨ 0x1000 % 4 ≠ 0 ∨ 0xFFF < 0x1000) ∧ (0 % 4 = 0 ∧ 0 ≤ 0xFFC) ∧ (0xFFC % 4 = 0 ∧ 0xFFC ≤ 0xFFC) := by decide

theorem witness_InputRegisterWrites : State.reset.busy = false := rfl

theorem witness_BufferWriteThenRead : 0 < 64 ∧ 63 < 64 ∧ State.reset.busy = false := by decide

theorem witness_DroppedWritesSetWovr :
    busyState.busy = true ∧ 0x018 ∈ [0x00C, 0x010, 0x014, 0x018] ∧
    (0x100 ≤ 0x100 ∧ 0x100 < 0x400 ∧ 0x100 % 4 = 0) ∧ (0x100 ≤ 0x3FC ∧ 0x3FC < 0x400 ∧ 0x3FC % 4 = 0) := by decide

theorem witness_CmdWriteIssuesTheCommand : State.reset.busy = false := rfl

theorem witness_ReadOnlyWritesAreIgnored :
    0x054 ∈ [0x000, 0x004, 0x008, 0x01C, 0x028, 0x02C, 0x030, 0x034, 0x038, 0x03C, 0x040, 0x044, 0x048, 0x04C, 0x050,
      0x054] ∧
    (0x400 ≤ 0x400 ∧ 0x400 < 0x600 ∧ 0x400 % 4 = 0) ∧ (0x400 ≤ 0x5FC ∧ 0x5FC < 0x600 ∧ 0x5FC % 4 = 0) := by decide

theorem witness_ReservedOffsetsReadZero :
    (0x058 % 4 = 0 ∧ 0x058 ≤ 0x058 ∧ 0x058 ≤ 0x0FC) ∧ (0x0FC % 4 = 0 ∧ 0x058 ≤ 0x0FC ∧ 0x0FC ≤ 0x0FC) ∧
    (0x600 % 4 = 0 ∧ 0x600 ≤ 0x600 ∧ 0x600 ≤ 0xFFC) ∧ (0xFFC % 4 = 0 ∧ 0x600 ≤ 0xFFC ∧ 0xFFC ≤ 0xFFC) := by decide

theorem witness_OutDataPopsTheOldestByte :
    (State.reset.busy = false ∧ { State.reset with fifo := [0x28] }.fifo = 0x28 :: []) ∧ busyState.busy = true ∧
    State.reset.fifo = [] := by decide

theorem witness_BusyReadsChangeNothing :
    busyState.busy = true ∧ [0x008, 0x010, 0x0FC, 0x200, 0x3FC, 0x400, 0x5FC, 0x600, 0xFFC].all
      (fun off => off % 4 == 0 && off ≤ 0xFFC && !(0x100 ≤ off && off < 0x200)) = true := by decide

theorem witness_BusyReadsChangeNothing_sample :
    let s : State := { filled with busy := true }
    s.busy = true ∧ bufRead s.sample 0 = some 0 ∧ bufRead s.sample 63 = some 0 := by decide +kernel

theorem witness_UnwrittenEntriesFault :
    (63 < 64 ∧ bufRead State.reset.sample 63 = none ∧ bufRead State.reset.coef 63 = none ∧
      bufRead State.reset.zz 63 = none ∧ State.reset.busy = false) ∧
    (bufRead q80.sample 0 = none ∧ admitted .fdctq0 q80 = true ∧ bufRead scan.sample 0 = none ∧
      admitted .encblkY scan = true) ∧
    (bufRead q80.coef 0 = none ∧ admitted .zigzag q80 = true) ∧
    (bufRead scan.zz 0 = none ∧ admitted .huffY scan = true) ∧ admitted .finish State.reset = false := by decide +kernel

theorem witness_InitBuildsTheTables : qualityInv State.reset ∧ qualityInv { State.reset with quality := 1 } ∧
    qualityInv { State.reset with quality := 49 } ∧ qualityInv { State.reset with quality := 50 } ∧
    qualityInv { State.reset with quality := 100 } := by
  unfold qualityInv
  decide

theorem witness_QuantTablesAreMonotone :
    (1 ≤ (1#7).toNat ∧ (1#7).toNat < (2#7).toNat ∧ (2#7).toNat ≤ 100) ∧
    (1 ≤ (49#7).toNat ∧ (49#7).toNat < (50#7).toNat ∧ (50#7).toNat ≤ 100) ∧
    (1 ≤ (99#7).toNat ∧ (99#7).toNat < (100#7).toNat ∧ (100#7).toNat ≤ 100) := by decide

/-- q80 with a size. -/
def sized (w h : BitVec 16) : State := { q80 with width := w, height := h }

theorem witness_HeaderCompletes : (sized 1 0xFFFF).phase = .initialized ∧ (sized 1 0xFFFF).width ≠ 0 ∧
    (sized 1 0xFFFF).height ≠ 0 ∧ (sized 1 0xFFFF).fifo.length + 607 ≤ Config.outDepth :=
  ⟨rfl, by decide, by decide, room 607 (by decide)⟩

theorem witness_HeaderRejectsZeroSizes : (sized 0 1).phase = .initialized ∧ (sized 0 1).width = 0 ∧
    (sized 1 0).phase = .initialized ∧ (sized 1 0).height = 0 := ⟨rfl, rfl, rfl, rfl⟩

theorem witness_HeaderLayout : ¬(25 ≤ 24 ∧ 24 ≤ 88) ∧ ¬(90 ≤ 24 ∧ 24 ≤ 153) ∧ ¬(159 ≤ 24 ∧ 24 ≤ 162) ∧
    ¬(25 ≤ 163 ∧ 163 ≤ 88) ∧ ¬(90 ≤ 163 ∧ 163 ≤ 153) ∧ ¬(159 ≤ 163 ∧ 163 ≤ 162) := by decide

theorem witness_FdctqCompletes : (∀ i : Fin 64, bufRead filled.sample i.val = some (flat 0)[i]) ∧
    filled.phase ≠ .idle ∧ filled.phase ≠ .error := ⟨filled_sample, by decide, by decide⟩

theorem witness_ConstantBlockHasOnlyDc : ∀ i : Fin 64, isFinite (flat 0 |>.map fun _ => (0 : Binary64))[i] = true := by
  decide +kernel

theorem witness_HalvesRoundAwayFromZero : 0 < 2 ^ 51 ∧ 2 ^ 51 - 1 < 2 ^ 51 := by decide

theorem witness_ZigzagPermutesTheCoefficients :
    (∀ i : Fin 64, bufRead filled.coef i.val = some (sparse [])[i]) ∧ filled.phase ≠ .error :=
  ⟨filled_coef, by decide⟩

theorem witness_CategoryIsTheBitLength : (-1024 : Int) ≠ 0 ∧ (-1024 : Int).natAbs < 2 ^ 11 := by decide

theorem witness_MagnitudeBits : (1 : Int) ≠ 0 ∧ (-1 : Int) ≠ 0 ∧ (-32768 : Int) ≠ 0 := by decide

theorem witness_InterruptRegisterWrites : 0 < 3 ∧ 2 < 3 := by decide

theorem witness_BlockCodesFollowTheRunLengthRules_codes :
    blockCodes .y (sparse []) 0 = .ok (zeroCodes .y) ∧
    (∃ cs, blockCodes .cr (sparse [(63, 1)]) 5 = .ok cs) ∧ zerosBefore (sparse [(63, 1)]) 63 = 62 ∧
    zerosBefore (sparse [(0, 7), (1, 3)]) 1 = 0 ∧ zerosBefore (sparse [(1, 3)]) 18 = 16 := by
  refine ⟨zeroCodes_eq .y, ?_, by decide +kernel, by decide +kernel, by decide +kernel⟩
  have h : (blockCodes .cr (sparse [(63, 1)]) 5).isOk = true := by decide +kernel
  cases hb : blockCodes .cr (sparse [(63, 1)]) 5 with
  | ok cs => exact ⟨cs, rfl⟩
  | error e =>
    rw [hb] at h
    cases h

theorem witness_BlockCodesFollowTheRunLengthRules :
    cat ((sparse [])[0].toInt - (0#16).toInt) ≤ 11 ∧ ∀ j : Fin 64, j ≠ 0 → cat (sparse [])[j].toInt ≤ 10 := by
  decide +kernel

theorem witness_HuffCompletes (k : Comp) :
    (∀ i : Fin 64, bufRead (coding k).zz i.val = some (sparse [])[i]) ∧ (coding k).phase = .headerWritten ∧
    (coding k).mcuDone.toNat < (coding k).mcuTotal.toNat ∧
    (coding k).fifo.length + (emitAll ⟨(coding k).acc, (coding k).count, []⟩ (zeroCodes k)).pending.length ≤
      Config.outDepth ∧
    (coding k).nextComp = k ∧ blockCodes k (sparse []) (predOf k (coding k)) = .ok (zeroCodes k) := by
  refine ⟨filled_zz, rfl, (by decide : (0#32).toNat < (1#32).toNat), room _ ?_, rfl, ?_⟩
  · cases k <;> decide +kernel
  · cases k <;> exact zeroCodes_eq _

/-- An all-zero block is transformed, and reordered, to an all-zero block. -/
theorem zero_block (c : TableClass) : fdctqResult (flat 0) (fsOf c filled) = sparse [] ∧
    sparse [] = tabulate fun j => (sparse [])[unzigzag j] := by cases c <;> decide +kernel

theorem witness_FatalInvariantNamesTheFirstOffender :
    let z : Block (BitVec 16) := sparse [(0, 2048)]
    let y : Block (BitVec 16) := sparse [(63, 1024)]
    let s : State := { coding .y with zz := bufFill z }
    let t : State := { coding .y with zz := bufFill y }
    codesBlock .huffY .y s z ∧ admitted .huffY s = true ∧ 11 < cat (z[0].toInt - (predOf .y s).toInt) ∧
    codesBlock .huffY .y t y ∧ admitted .huffY t = true ∧
    cat (y[0].toInt - (predOf .y t).toInt) ≤ 11 ∧ 10 < cat y[(63 : Fin 64)].toInt ∧
    ∀ i : Fin 64, i ≠ 0 → i < 63 → cat y[i].toInt ≤ 10 :=
  ⟨.inl ⟨rfl, fun i => bufRead_bufFill _ i⟩, by decide +kernel, by decide +kernel,
    .inl ⟨rfl, fun i => bufRead_bufFill _ i⟩, by decide +kernel, by decide +kernel, by decide +kernel,
    by decide +kernel⟩

/-- A horizontal ramp of samples. -/
def ramp : Block Byte := tabulate fun i => BitVec.ofInt 8 (16 * ((i.val % 8 : Nat) : Int) - 64)

/-- ENCBLK Y due on the ramp, with a scale table of 64 times 1.0. -/
def unscaled : State := { coding .y with sample := bufFill ramp, fs0 := Vector.replicate 64 0x3FF0000000000000 }

/-- What ENCBLK k codes of its samples. -/
def encblkZz (x : Block Byte) (fs : Block Binary64) : Block (BitVec 16) :=
  tabulate fun j => (fdctqResult x fs)[unzigzag j]

theorem witness_FatalInvariantNamesTheFirstOffender_encblk (k : Comp) :
    (codesBlock (encblkInstr k) k (setPred k (-2048) (coding k)) (sparse []) ∧
      admitted (encblkInstr k) (setPred k (-2048) (coding k)) = true ∧
      11 < cat ((sparse [])[0].toInt - (predOf k (setPred k (-2048) (coding k))).toInt)) ∧
    codesBlock .encblkY .y unscaled (encblkZz ramp unscaled.fs0) ∧ admitted .encblkY unscaled = true ∧
    cat ((encblkZz ramp unscaled.fs0)[0].toInt - (predOf .y unscaled).toInt) ≤ 11 ∧
    10 < cat (encblkZz ramp unscaled.fs0)[(1 : Fin 64)].toInt ∧
    ∀ m : Fin 64, m ≠ 0 → m < 1 → cat (encblkZz ramp unscaled.fs0)[m].toInt ≤ 10 := by
  refine ⟨⟨.inr ⟨rfl, flat 0, ?_, ?_⟩, ?_, ?_⟩, .inr ⟨rfl, ramp, fun j => bufRead_bufFill _ j, rfl⟩, by decide +kernel,
    by decide +kernel, by decide +kernel, fun m h0 h1 => absurd h1 (by omega)⟩
  · cases k <;> exact filled_sample
  · have h := zero_block (classOf k)
    have hf : fsOf (classOf k) (setPred k (-2048) (coding k)) = fsOf (classOf k) filled := by cases k <;> rfl
    rw [hf, h.1]
    exact h.2
  · cases k <;> rfl
  · cases k <;> decide +kernel

theorem witness_BitWriterAppendsTheEmittedBits : accClear 0xFE 7 ∧ accClear 0 0 := by
  unfold accClear
  decide

theorem witness_BlockPushesAtMost416Bytes : blockCodes .y (sparse []) 0 = .ok (zeroCodes .y) := zeroCodes_eq .y

/-- Seven bits waiting and a full FIFO, component k due. -/
def fullFifo (k : Comp) : State := { coding k with count := 7, fifo := List.replicate Config.outDepth 0 }

theorem witness_OverflowKeepsTheStateAndRetries (k : Comp) :
    codesBlock (huffInstr k) k (fullFifo k) (sparse []) ∧ admitted (huffInstr k) (fullFifo k) = true ∧
    codesBlock (encblkInstr k) k (fullFifo k) (sparse []) ∧ admitted (encblkInstr k) (fullFifo k) = true ∧
    blockCodes k (sparse []) (predOf k (fullFifo k)) = .ok (zeroCodes k) ∧
    (emitAll ⟨(fullFifo k).acc, (fullFifo k).count, []⟩ (zeroCodes k)).pending.length = 1 ∧
    Config.outDepth < (fullFifo k).fifo.length + 1 ∧ ([] : List Byte).length + 1 ≤ Config.outDepth := by
  have h := zero_block (classOf k)
  have hf : fsOf (classOf k) (fullFifo k) = fsOf (classOf k) filled := by cases k <;> rfl
  refine ⟨.inl ⟨rfl, filled_zz⟩, ?_, .inr ⟨rfl, flat 0, filled_sample, ?_⟩, ?_, ?_, ?_, by simp [fullFifo],
    room 1 (by decide)⟩
  · cases k <;> rfl
  · rw [hf, h.1]
    exact h.2
  · cases k <;> rfl
  · cases k <;> exact zeroCodes_eq _
  · cases k <;> decide +kernel

theorem witness_OverflowKeepsTheStateAndRetries_container :
    (let s := { sized 1 1 with fifo := List.replicate Config.outDepth 0 }
     s.phase = .initialized ∧ s.width ≠ 0 ∧ s.height ≠ 0 ∧ Config.outDepth < s.fifo.length + 607) ∧
    (let s := { allDone with fifo := List.replicate Config.outDepth 0 }
     bitAccInv s ∧ s.phase = .scanning ∧ s.mcuDone = s.mcuTotal ∧ s.nextComp = .y ∧ s.count = 0 ∧
      Config.outDepth < s.fifo.length + 0 + 2) ∧
    (let s := { allDone with acc := 0xFE, count := 7, fifo := List.replicate Config.outDepth 0 }
     bitAccInv s ∧ s.phase = .scanning ∧ s.mcuDone = s.mcuTotal ∧ s.nextComp = .y ∧
      s.acc ||| BitVec.ofNat 8 (2 ^ (8 - s.count.toNat) - 1) = 0xFF ∧
      Config.outDepth < s.fifo.length + [0xFF#8, 0x00#8].length + 2) := by
  dsimp only
  exact ⟨⟨rfl, by decide, by decide, by simp⟩, ⟨rfl, rfl, rfl, rfl, rfl, by simp⟩, rfl, rfl, rfl, rfl, by decide, by
    simp
    omega⟩

theorem witness_RejectionEffect : State.reset.phase ≠ .error ∧ { State.reset with phase := .error }.phase = .error := by
  decide

theorem witness_ErrorDetailLayout : 63 < 64 ∧ 16 ≤ 16 ∧ 607 ≤ 607 := by decide

theorem witness_NotAdmittedIsSequenceError :
    State.reset.phase ≠ .initialized ∧ { State.reset with phase := .error }.phase = .error ∧
    ((coding .cr).phase = .headerWritten ∧ Comp.y ≠ (coding .cr).nextComp) ∧
    allDone.mcuTotal.toNat ≤ allDone.mcuDone.toNat ∧
    (allDone.phase = .scanning ∧ allDone.mcuDone = allDone.mcuTotal ∧ allDone.nextComp = .y) := by decide +kernel

theorem exists_next {o : Host.Outcome State Fault Refusal} (h : (nextOf o id).isSome = true) : ∃ t, o = .next t := by
  cases o with
  | next t => exact ⟨t, rfl⟩
  | fault f => cases h
  | refused r => cases h

theorem witness_TransformFrames :
    (∃ t, exec .fdctq0 filled = .next t) ∧ (∃ t, exec .fdctq1 filled = .next t) ∧
    (∃ t, exec .fdctq0 .reset = .next t) ∧ ∃ t, exec .zigzag filled = .next t :=
  ⟨exists_next (by decide +kernel), exists_next (by decide +kernel), exists_next (by decide +kernel),
    exists_next (by decide +kernel)⟩

theorem witness_CodingFrames (k : Comp) :
    (∃ t, exec (huffInstr k) (coding k) = .next t) ∧ ∃ t, exec (encblkInstr k) .reset = .next t := by
  have hh : (nextOf (exec (huffInstr k) (coding k)) id).isSome = true := by cases k <;> decide +kernel
  have he : (nextOf (exec (encblkInstr k) .reset) id).isSome = true := by cases k <;> decide +kernel
  exact ⟨exists_next hh, exists_next he⟩

theorem witness_ContainerFrames : (∃ t, exec .header .reset = .next t) ∧ (∃ t, exec .header (sized 1 1) = .next t) ∧
    (∃ t, exec .finish .reset = .next t) ∧ ∃ t, exec .finish allDone = .next t :=
  ⟨exists_next (by decide +kernel), exists_next (by decide +kernel), exists_next (by decide +kernel),
    exists_next (by decide +kernel)⟩

theorem witness_EncblkCompletes (k : Comp) :
    (∀ i : Fin 64, bufRead (coding k).sample i.val = some (flat 0)[i]) ∧ (coding k).phase = .headerWritten ∧
    (coding k).mcuDone.toNat < (coding k).mcuTotal.toNat ∧
    (coding k).fifo.length + (emitAll ⟨(coding k).acc, (coding k).count, []⟩ (zeroCodes k)).pending.length ≤
      Config.outDepth ∧
    sparse [] = fdctqResult (flat 0) (fsOf (classOf k) (coding k)) ∧
    (sparse [] = tabulate fun j => (sparse [])[unzigzag j]) ∧
    (coding k).nextComp = k ∧ blockCodes k (sparse []) (predOf k (coding k)) = .ok (zeroCodes k) := by
  obtain ⟨_, _, h1, h2, h3, h4⟩ := witness_HuffCompletes k
  have hf : fsOf (classOf k) (coding k) = fsOf (classOf k) filled := by cases classOf k <;> rfl
  rw [hf]
  exact ⟨filled_sample, rfl, h1, h2, (zero_block (classOf k)).1.symm, (zero_block .luma).2, h3, h4⟩

theorem witness_EncblkIsTheThreeStages : ∃ s1 s2 s3, exec .fdctq0 (coding .y) = .next s1 ∧
    exec .zigzag s1 = .next s2 ∧ exec .huffY s2 = .next s3 ∧ s3.intStatus.getLsbD 1 = false := by
  have h : nextOf (exec .fdctq0 (coding .y)) (fun s1 => nextOf (exec .zigzag s1) fun s2 =>
      nextOf (exec .huffY s2) fun s3 => s3.intStatus.getLsbD 1) = some (some (some false)) := by decide +kernel
  obtain ⟨s1, h1⟩ := exists_next (o := exec .fdctq0 (coding .y)) (by decide +kernel)
  rw [h1] at h
  cases h2 : exec .zigzag s1 with
  | fault f => simp [nextOf, h2] at h
  | refused r => simp [nextOf, h2] at h
  | next s2 =>
    cases h3 : exec .huffY s2 with
    | fault f => simp [nextOf, h2, h3] at h
    | refused r => simp [nextOf, h2, h3] at h
    | next s3 => exact ⟨s1, s2, s3, h1, h2, h3, by simpa [nextOf, h2, h3] using h⟩

theorem witness_FinishCompletes :
    (let s := { allDone with count := 6 }
     bitAccInv s ∧ s.phase = .scanning ∧ s.mcuDone = s.mcuTotal ∧ s.nextComp = .y ∧ s.count ≠ 0 ∧
      s.fifo.length + [0x03#8].length + 2 ≤ Config.outDepth) ∧
    (bitAccInv allDone ∧ allDone.count = 0 ∧ allDone.fifo.length + 0 + 2 ≤ Config.outDepth) :=
  ⟨⟨rfl, rfl, rfl, rfl, by decide, room 3 (by decide)⟩, rfl, rfl, room 2 (by decide)⟩

theorem witness_StateTransitions (i : Instr) : ∃ t, exec i { State.reset with phase := .error } = .next t := by
  cases i <;> exact exists_next (by decide +kernel)

theorem witness_ErrorIsLeftOnlyByInitOrReset :
    let s : State := { issued 1 with phase := .error }
    let r : State := { turns [.reset] with phase := .error }
    (s.phase = .error ∧ ∃ t, step s = .next t) ∧ r.phase = .error ∧ ∃ t, step r = .next t :=
  ⟨⟨rfl, _, rfl⟩, rfl, _, rfl⟩

theorem witness_ErrorIsLeftOnlyByInitOrReset_counters :
    (∃ t, step (issued 2) = .next t ∧ t.phase = .error) ∧
    ∃ t, step { issued 0 with phase := .error } = .next t ∧ t.phase = .error := ⟨⟨_, rfl, rfl⟩, _, rfl, rfl⟩

theorem witness_FifoIsFirstInFirstOut :
    (∃ t, step { turns [.host (.read 0x04C 4)] with fifo := [0x28] } = .next t) ∧ (∃ t, step (issued 1) = .next t) ∧
    ∃ t, step (turns [.reset]) = .next t := ⟨⟨_, rfl⟩, ⟨_, rfl⟩, _, rfl⟩

theorem witness_CommandCoherence :
    let s : State := { busyState with agenda := [.host (.write 0x010 4 5)] }
    s.busy = true ∧ s.agenda = .host (.write 0x010 4 5) :: [] ∧ ∃ t, step s = .next t := ⟨rfl, rfl, _, rfl⟩

theorem witness_StepKeepsMemoryCanonical :
    memoryInv .reset ∧ ∃ t, step (turns [.host (.write 0x1FC 4 1)]) = .next t := ⟨⟨rfl, rfl, rfl⟩, _, rfl⟩

theorem witness_StepKeepsTheSequencingInvariants :
    (sequencingInv (issued 1) ∧ bitAccInv (issued 1)) ∧ ∃ t, step (issued 1) = .next t := by
  refine ⟨⟨⟨by decide, room 0 (by decide), fun _ => ⟨rfl, ⟨rfl, rfl⟩, ⟨rfl, rfl⟩, ⟨rfl, rfl, rfl⟩, rfl, rfl⟩, ?_, ?_, ?_⟩,
    rfl⟩, _, rfl⟩ <;> intro h <;> cases h

theorem witness_StepKeepsTablesAndRegisters :
    (qualityInv (issued 1) ∧ tablesInv (issued 1) ∧ (issued 1).errCode ≠ .configError) ∧
    ∃ t, step (issued 1) = .next t := by
  refine ⟨⟨⟨by decide, by decide⟩, fun h => ?_, by decide⟩, _, rfl⟩
  exact absurd h (by decide)

end Sys2Proof.Machine.Tests
end

section
/-! PROOFS. The built tables, QUALITY and ERRCODE from step to step (10_state.md rules R38, R70; 40_tables.md rules R150,
R153). -/

namespace Sys2Proof.Machine

theorem admitted_fdctq0_iff (s : State) : admitted .fdctq0 s = true ↔ s.phase ≠ .idle ∧ s.phase ≠ .error := by
  simp [admitted]

/-! ### What leaves the tables as they are -/

/-- `t` holds the same SCALE, QT and FS as `s`. -/
def sameTables (s t : State) : Prop :=
  t.scale = s.scale ∧ t.qt0 = s.qt0 ∧ t.qt1 = s.qt1 ∧ t.fs0 = s.fs0 ∧ t.fs1 = s.fs1

theorem tablesBuilt_of_sameTables {s t : State} (h : sameTables s t) (hs : tablesBuilt s) : tablesBuilt t := by
  obtain ⟨hscale, hqt0, hqt1, hfs0, hfs1⟩ := h
  simpa only [tablesBuilt, hscale, hqt0, hqt1, hfs0, hfs1] using hs

/-- The tables invariant goes over to a state with the same tables that admits FDCTQ only where the first does. -/
theorem tablesInv_of_sameTables {s t : State} (h : sameTables s t)
    (ha : admitted .fdctq0 t = true → admitted .fdctq0 s = true) (hs : tablesInv s) : tablesInv t :=
  fun ht => tablesBuilt_of_sameTables h (hs (ha ht))

/-- A coded block commits nothing of the tables, QUALITY or ERRCODE. -/
theorem codeBlock_ok_keeps_tables {k : Comp} {zz : Block (BitVec 16)} {s u : State} (h : codeBlock k zz s = .ok u) :
    sameTables s u ∧ u.quality = s.quality ∧ u.errCode = s.errCode := by
  obtain ⟨cs, _, _, rfl⟩ := codeBlock_eq_ok h
  simp [sameTables]

theorem huffBody_ok_keeps_tables {k : Comp} {s u : State} (h : huffBody k s = .ok u) :
    sameTables s u ∧ u.quality = s.quality ∧ u.errCode = s.errCode := by
  obtain ⟨zz, _, hu⟩ := huffBody_ok h
  exact codeBlock_ok_keeps_tables hu

theorem encblkBody_ok_keeps_tables {k : Comp} {s u : State} (h : encblkBody k s = .ok u) :
    sameTables s u ∧ u.quality = s.quality ∧ u.errCode = s.errCode := by
  obtain ⟨x, v, _, hv, rfl⟩ := encblkBody_ok h
  simpa only [sameTables] using codeBlock_ok_keeps_tables hv

/-- Of the thirteen commands only INIT commits SCALE, QT, FS or ERRCODE, and none commits QUALITY. -/
theorem bodyOf_ok_keeps_tables {i : Instr} {s u : State} (hi : i ≠ .init) (h : bodyOf i s = .ok u) :
    sameTables s u ∧ u.quality = s.quality ∧ u.errCode = s.errCode := by
  cases i with
  | nop =>
    obtain rfl := Except.ok.inj h
    simp [sameTables]
  | init => exact absurd rfl hi
  | header =>
    obtain ⟨_, _, _, rfl⟩ := headerBody_ok h
    simp [sameTables]
  | fdctq0 | fdctq1 =>
    obtain ⟨x, _, rfl⟩ := fdctqBody_ok h
    simp [sameTables]
  | zigzag =>
    obtain ⟨x, _, rfl⟩ := zigzagBody_ok h
    simp [sameTables]
  | huffY | huffCb | huffCr => exact huffBody_ok_keeps_tables h
  | encblkY | encblkCb | encblkCr => exact encblkBody_ok_keeps_tables h
  | finish =>
    obtain ⟨_, rfl⟩ := finishBody_ok h
    simp [sameTables]

/-! ### No command but INIT makes FDCTQ admitted (46_sequencing.md rules R322, R327) -/

theorem admitted_fdctq0_of_blockAdmitted {k : Comp} {s : State} (h : blockAdmitted k s = true) :
    admitted .fdctq0 s = true := by
  simp only [blockAdmitted, Bool.and_eq_true, Bool.or_eq_true, beq_iff_eq] at h
  obtain ⟨⟨hp | hp, _⟩, _⟩ := h <;> simp [admitted_fdctq0_iff, hp]

/-- A command that commits keeps STATE, or was admitted where FDCTQ is. -/
theorem bodyOf_ok_phase {i : Instr} {s u : State} (hi : i ≠ .init) (ha : admitted i s = true)
    (h : bodyOf i s = .ok u) : u.phase = s.phase ∨ admitted .fdctq0 s = true := by
  cases i with
  | nop => exact .inl (congrArg State.phase (Except.ok.inj h).symm)
  | init => exact absurd rfl hi
  | header =>
    have hp : s.phase = .initialized := by simpa [admitted] using ha
    simp [admitted_fdctq0_iff, hp]
  | fdctq0 | fdctq1 => exact .inr ha
  | zigzag =>
    obtain ⟨x, _, rfl⟩ := zigzagBody_ok h
    exact .inl rfl
  | huffY | huffCb | huffCr | encblkY | encblkCb | encblkCr => exact .inr (admitted_fdctq0_of_blockAdmitted ha)
  | finish =>
    have hp : s.phase = .scanning := by
      simp only [admitted, Bool.and_eq_true, beq_iff_eq] at ha
      exact ha.1.1
    simp [admitted_fdctq0_iff, hp]

theorem bodyOf_ok_admits_fdctq0 {i : Instr} {s u : State} (hi : i ≠ .init) (ha : admitted i s = true)
    (h : bodyOf i s = .ok u) (hu : admitted .fdctq0 u = true) : admitted .fdctq0 s = true := by
  rcases bodyOf_ok_phase hi ha h with hp | hs
  · rwa [admitted_fdctq0_iff, hp, ← admitted_fdctq0_iff] at hu
  · exact hs

/-! ### INIT, rejections, host writes -/

/-- INIT builds the tables of the quality in the register (40_tables.md rule R150). -/
theorem initState_tablesBuilt {s : State} (h : qualityInv s) : tablesBuilt (initState s) :=
  ⟨s.quality, h.1, h.2, rfl, rfl, rfl, rfl, rfl⟩

theorem reject_errCode (e : CmdError) (s : State) :
    (reject e s).errCode = if s.phase = .error then s.errCode else e.code := by
  unfold reject
  split <;> rfl

/-- No error a command raises is CONFIG_ERROR (40_tables.md rule R153). -/
theorem code_ne_configError (e : CmdError) : e.code ≠ .configError := by
  cases e <;> simp [CmdError.code]

/-- A rejection enters ERROR or keeps STATE, so it does not make FDCTQ admitted. -/
theorem reject_admits_fdctq0 {e : CmdError} {s : State} (h : admitted .fdctq0 (reject e s) = true) :
    admitted .fdctq0 s = true := by
  rw [admitted_fdctq0_iff, reject_phase] at h
  split at h
  · exact absurd rfl h.2
  · exact (admitted_fdctq0_iff s).2 h

theorem clampQuality_range (v : Word) : 1 ≤ (clampQuality v).toNat ∧ (clampQuality v).toNat ≤ 100 := by
  have := clampQuality_toNat v
  omega

/-- A write leaves QUALITY as it is or stores a clamped word there (10_state.md rule R38). -/
theorem writeLoc_quality (l : Loc) (v : Word) (s : State) :
    (writeLoc l v s).quality = s.quality ∨ (writeLoc l v s).quality = clampQuality v := by
  cases hb : s.busy with
  | true => exact .inl (by rw [writeLoc_busy hb])
  | false =>
    cases l with
    | reg r =>
      cases r with
      | quality => exact .inr (by simp only [writeLoc, writeReg, guardedWrite_idle _ hb])
      | cmd | width | height => exact .inl (by simp only [writeLoc, writeReg, guardedWrite_idle _ hb])
      | _ => exact .inl rfl
    | sample | coef | zz => exact .inl (by simp only [writeLoc, guardedWrite_idle _ hb])
    | qt | reserved => exact .inl rfl

theorem writeLoc_qualityInv (l : Loc) (v : Word) {s : State} (h : qualityInv s) : qualityInv (writeLoc l v s) := by
  unfold qualityInv
  rcases writeLoc_quality l v s with hq | hq <;> rw [hq]
  · exact h
  · exact clampQuality_range v

/-- A write changes nothing of the tables, STATE or ERRCODE. -/
theorem writeLoc_keeps_tables (l : Loc) (v : Word) (s : State) :
    sameTables s (writeLoc l v s) ∧ (writeLoc l v s).phase = s.phase ∧ (writeLoc l v s).errCode = s.errCode := by
  rw [writeLoc_frame]
  simp [sameTables]

/-! ### The invariant -/

/-- QUALITY in 1..100, the tables built wherever FDCTQ is admitted, CONFIG_ERROR not recorded. -/
def tablesAndRegistersInv (s : State) : Prop := qualityInv s ∧ tablesInv s ∧ s.errCode ≠ .configError

/-- Carries the invariant over to a state that differs in none of the fields it speaks of but, perhaps, STATE. -/
theorem tablesAndRegistersInv_of_sameTables {s t : State}
    (h : sameTables s t ∧ t.quality = s.quality ∧ t.errCode = s.errCode)
    (ha : admitted .fdctq0 t = true → admitted .fdctq0 s = true) (hs : tablesAndRegistersInv s) :
    tablesAndRegistersInv t := by
  obtain ⟨htab, hq, he⟩ := h
  obtain ⟨hqual, hinv, herr⟩ := hs
  exact ⟨by rwa [qualityInv, hq], tablesInv_of_sameTables htab ha hinv, by rwa [he]⟩

theorem reject_keeps_tablesAndRegistersInv (e : CmdError) {s : State} (hs : tablesAndRegistersInv s) :
    tablesAndRegistersInv (reject e s) := by
  obtain ⟨hqual, hinv, herr⟩ := hs
  refine ⟨by rwa [qualityInv, reject_quality], ?_, ?_⟩
  · exact tablesInv_of_sameTables (by simp [sameTables]) reject_admits_fdctq0 hinv
  · rw [reject_errCode]
    split
    · exact herr
    · exact code_ne_configError e

theorem commit_keeps_tablesAndRegistersInv {i : Instr} {s u : State} (ha : admitted i s = true)
    (h : bodyOf i s = .ok u) (hs : tablesAndRegistersInv s) : tablesAndRegistersInv u := by
  by_cases hi : i = .init
  · subst hi
    obtain rfl := Except.ok.inj h
    exact ⟨hs.1, fun _ => initState_tablesBuilt hs.1, by simp [initState]⟩
  · exact tablesAndRegistersInv_of_sameTables (bodyOf_ok_keeps_tables hi h) (bodyOf_ok_admits_fdctq0 hi ha h) hs

theorem coreStep_keeps_tablesAndRegistersInv {s t : State} (h : coreStep s = .next t)
    (hs : tablesAndRegistersInv s) : tablesAndRegistersInv t := by
  rcases coreStep_next h with ⟨e, rfl⟩ | ⟨i, _, ha, u, hu, rfl⟩
  · exact reject_keeps_tablesAndRegistersInv e hs
  · -- completing sets DONE and clears BUSY, of which the invariant does not speak
    have hc : tablesAndRegistersInv u := commit_keeps_tablesAndRegistersInv ha hu hs
    exact hc

theorem hostAccess_keeps_tablesAndRegistersInv {a : HostAccess} {s t : State} (h : hostAccess a s = .next t)
    (hs : tablesAndRegistersInv s) : tablesAndRegistersInv t := by
  rcases hostAccess_next h with ⟨off, _, _, hr⟩ | ⟨off, v, _, _, rfl⟩
  · rcases readLoc_next hr with ⟨w, n, rfl⟩ | ⟨_, b, rest, _, rfl⟩
    · exact hs
    · exact hs
  · obtain ⟨hqual, hinv, herr⟩ := hs
    obtain ⟨htab, hp, he⟩ := writeLoc_keeps_tables (locate off) v s
    refine ⟨writeLoc_qualityInv _ v hqual, tablesInv_of_sameTables htab ?_ hinv, by rwa [he]⟩
    rw [admitted_fdctq0_iff, hp, ← admitted_fdctq0_iff]
    exact id

theorem applyReset_tablesAndRegistersInv (s : State) : tablesAndRegistersInv (applyReset s) := by
  refine ⟨by simp [qualityInv, applyReset, State.reset], fun h => ?_, by simp [applyReset, State.reset]⟩
  exact absurd h (by simp [admitted, applyReset, State.reset])

/-- Settles O59: each way a step can go (host access, core step, wait, reset) keeps the invariant; the tables are written
by INIT alone, and no other command makes FDCTQ admitted. -/
theorem stepKeepsTablesAndRegisters : Obligations.StepKeepsTablesAndRegisters := by
  intro s t hs h
  -- taking the turn off the agenda changes nothing the invariant speaks of
  have hu : tablesAndRegistersInv { s with agenda := s.agenda.tail } := hs
  rcases step_cases h with ⟨a, rest, _, ha⟩ | ⟨_, hc⟩ | ⟨_, rfl⟩ | ⟨rest, _, rfl⟩
  · exact hostAccess_keeps_tablesAndRegistersInv ha hu
  · exact coreStep_keeps_tablesAndRegistersInv hc hu
  · exact hu
  · exact applyReset_tablesAndRegistersInv _

end Sys2Proof.Machine
end

section
/-! PROOFS. The host's reads and writes of the registers and buffer entries (10_state.md rules R33 to R63). -/

namespace Sys2Proof.Machine

/-! ### An access by what stands at its offset -/

theorem hostAccess_read {off : Nat} {l : Loc} (s : State) (hi : inInterface off 4 = true) (hl : locate off = l) :
    hostAccess (.read off 4) s = readLoc l s := by
  simp [hostAccess, hi, hl]

theorem hostAccess_write {off : Nat} {l : Loc} (v : Word) (s : State) (hi : inInterface off 4 = true)
    (hl : locate off = l) : hostAccess (.write off 4 v) s = .next (writeLoc l v s) := by
  simp [hostAccess, hi, hl]

@[simp] theorem locate_regOffset (r : Reg) : locate (regOffset r) = .reg r := by
  cases r <;> rfl

@[simp] theorem inInterface_regOffset (r : Reg) : inInterface (regOffset r) 4 = true := by
  cases r <;> rfl

/-! ### Registers -/

theorem hostRead_reg (r : Reg) (s : State) : hostAccess (.read (regOffset r) 4) s = .next (readReg r s) :=
  hostAccess_read s (inInterface_regOffset r) (locate_regOffset r)

theorem hostWrite_reg (r : Reg) (v : Word) (s : State) :
    hostAccess (.write (regOffset r) 4 v) s = .next (writeReg r v s) :=
  hostAccess_write v s (inInterface_regOffset r) (locate_regOffset r)

/-- A read while BUSY = 0 of any register but OUT_DATA returns its value and changes nothing. -/
theorem readReg_idle {r : Reg} {s : State} (hb : s.busy = false) (hr : r ≠ .outData) :
    readReg r s = reply (regValue s r) s := by
  unfold readReg
  rw [if_neg (by simp [hb])]
  split
  · exact absurd rfl hr
  · rfl

/-- A register that no command may change reads its value at any time (70_reset_and_hazards.md rule R452). -/
theorem readReg_anytime {r : Reg} (s : State) (hr : r ≠ .outData) (hd : drawsWhenBusy r = false) :
    readReg r s = reply (regValue s r) s := by
  cases hb : s.busy with
  | false => exact readReg_idle hb hr
  | true =>
    have hv : busyRegValue s (nextDraw s) r = regValue s r := by
      cases r with
      | id | version | cmd | quality | width | height | intStatus | intEnable | outData | outDepth => rfl
      | _ => cases hd
    simp [readReg, hb, hd, hv]

theorem hostRead_reg_idle {r : Reg} {s : State} (hb : s.busy = false) (hr : r ≠ .outData) :
    hostAccess (.read (regOffset r) 4) s = .next { s with replies := regValue s r :: s.replies } := by
  rw [hostRead_reg, readReg_idle hb hr, reply]

theorem hostRead_reg_anytime {r : Reg} (s : State) (hr : r ≠ .outData) (hd : drawsWhenBusy r = false) :
    hostAccess (.read (regOffset r) 4) s = .next { s with replies := regValue s r :: s.replies } := by
  rw [hostRead_reg, readReg_anytime s hr hd, reply]

/-! ### Buffer and table entries -/

theorem readEntry_written {w i : Nat} {b : Buffer w} {x : BitVec w} (name : BufName) (s : State)
    (h : bufRead b i = some x) :
    readEntry name b i s = .next { s with replies := x.signExtend 32 :: s.replies } := by
  simp only [readEntry, h, reply]

theorem hostRead_sample {i : Nat} (hi : i < 64) {s : State} {x : Byte} (h : bufRead s.sample i = some x) :
    hostAccess (.read (0x100 + 4 * i) 4) s = .next { s with replies := x.signExtend 32 :: s.replies } := by
  rw [hostAccess_read s (inInterface_aligned (by omega) (by omega)) (locate_sample hi)]
  exact readEntry_written .sample s h

theorem hostRead_coef {i : Nat} (hi : i < 64) {s : State} (hb : s.busy = false) {x : BitVec 16}
    (h : bufRead s.coef i = some x) :
    hostAccess (.read (0x200 + 4 * i) 4) s = .next { s with replies := x.signExtend 32 :: s.replies } := by
  rw [hostAccess_read s (inInterface_aligned (by omega) (by omega)) (locate_coef hi)]
  simp [readLoc, hb, readEntry_written .coef s h]

theorem hostRead_zz {i : Nat} (hi : i < 64) {s : State} (hb : s.busy = false) {x : BitVec 16}
    (h : bufRead s.zz i = some x) :
    hostAccess (.read (0x300 + 4 * i) 4) s = .next { s with replies := x.signExtend 32 :: s.replies } := by
  rw [hostAccess_read s (inInterface_aligned (by omega) (by omega)) (locate_zz hi)]
  simp [readLoc, hb, readEntry_written .zz s h]

theorem locate_qt_luma (k : Fin 64) : locate (0x400 + 4 * k.val) = .qt .luma k := by
  have h1 : (0x400 + 4 * k.val) / 4 = 256 + k.val := by omega
  have h2 : (256 + k.val) / 64 = 4 := by omega
  have h3 : (256 + k.val) % 64 = k.val := by omega
  simp [locate, h1, h2, h3]

theorem locate_qt_chroma (k : Fin 64) : locate (0x500 + 4 * k.val) = .qt .chroma k := by
  have h1 : (0x500 + 4 * k.val) / 4 = 320 + k.val := by omega
  have h2 : (320 + k.val) / 64 = 5 := by omega
  have h3 : (320 + k.val) % 64 = k.val := by omega
  simp [locate, h1, h2, h3]

theorem hostRead_qt {off : Nat} {c : TableClass} {k : Fin 64} {s : State} (hi : inInterface off 4 = true)
    (hl : locate off = .qt c k) (hb : s.busy = false) :
    hostAccess (.read off 4) s = .next { s with replies := (qtOf c s)[k].setWidth 32 :: s.replies } := by
  rw [hostAccess_read s hi hl]
  simp [readLoc, hb, reply]

theorem hostWrite_sample {i : Nat} (hi : i < 64) {s : State} (hb : s.busy = false) (v : Word) :
    hostAccess (.write (0x100 + 4 * i) 4 v) s = .next { s with sample := bufWrite s.sample i (v.setWidth 8) } := by
  rw [hostAccess_write v s (inInterface_aligned (by omega) (by omega)) (locate_sample hi), writeLoc,
    guardedWrite_idle _ hb]

theorem hostWrite_coef {i : Nat} (hi : i < 64) {s : State} (hb : s.busy = false) (v : Word) :
    hostAccess (.write (0x200 + 4 * i) 4 v) s = .next { s with coef := bufWrite s.coef i (v.setWidth 16) } := by
  rw [hostAccess_write v s (inInterface_aligned (by omega) (by omega)) (locate_coef hi), writeLoc,
    guardedWrite_idle _ hb]

theorem hostWrite_zz {i : Nat} (hi : i < 64) {s : State} (hb : s.busy = false) (v : Word) :
    hostAccess (.write (0x300 + 4 * i) 4 v) s = .next { s with zz := bufWrite s.zz i (v.setWidth 16) } := by
  rw [hostAccess_write v s (inInterface_aligned (by omega) (by omega)) (locate_zz hi), writeLoc,
    guardedWrite_idle _ hb]

/-! ### The fields of STATUS and BITACC -/

/-- STATUS as a number, and the ranges of its fields (10_state.md rule R36). -/
theorem statusWord_toNat (s : State) :
    (statusWord s).toNat =
      s.busy.toNat + 2 * phaseCode s.phase + 16 * compCode s.nextComp + 256 * errCodeNumber s.errCode ∧
    s.busy.toNat < 2 ∧ phaseCode s.phase < 8 ∧ compCode s.nextComp < 4 ∧ errCodeNumber s.errCode < 16 := by
  have hp : phaseCode s.phase < 8 := by cases s.phase <;> decide
  have hc : compCode s.nextComp < 4 := by cases s.nextComp <;> decide
  have he : errCodeNumber s.errCode < 16 := by cases s.errCode <;> decide
  have hb := Bool.toNat_lt s.busy
  refine ⟨?_, hb, hp, hc, he⟩
  rw [statusWord, BitVec.toNat_ofNat]
  omega

theorem statusWord_fields (s : State) :
    (statusWord s).getLsbD 0 = s.busy ∧ ((statusWord s).extractLsb' 1 3).toNat = phaseCode s.phase ∧
    ((statusWord s).extractLsb' 4 2).toNat = compCode s.nextComp ∧ (statusWord s).extractLsb' 6 2 = 0 ∧
    ((statusWord s).extractLsb' 8 4).toNat = errCodeNumber s.errCode ∧ (statusWord s).extractLsb' 12 20 = 0 := by
  obtain ⟨hn, hb, hp, hc, he⟩ := statusWord_toNat s
  refine ⟨?_, ?_, ?_, BitVec.eq_of_toNat_eq ?_, ?_, BitVec.eq_of_toNat_eq ?_⟩
  · rw [BitVec.getLsbD, Nat.testBit_zero, hn]
    cases s.busy <;> simp <;> omega
  all_goals
    simp only [BitVec.extractLsb'_toNat, hn, Nat.shiftRight_eq_div_pow, BitVec.ofNat_eq_ofNat, BitVec.toNat_ofNat]
    omega

theorem bitAccWord_fields (s : State) :
    (bitAccWord s).extractLsb' 0 8 = s.acc ∧ (bitAccWord s).extractLsb' 8 3 = s.count ∧
    (bitAccWord s).extractLsb' 11 21 = 0 := by
  have hacc := s.acc.isLt
  have hcount := s.count.isLt
  refine ⟨BitVec.eq_of_toNat_eq ?_, BitVec.eq_of_toNat_eq ?_, BitVec.eq_of_toNat_eq ?_⟩
  all_goals
    simp only [bitAccWord, BitVec.extractLsb'_toNat, Nat.shiftRight_eq_div_pow, BitVec.ofNat_eq_ofNat,
      BitVec.toNat_ofNat]
    omega

theorem outDepth_toNat : (BitVec.ofNat 32 Config.outDepth).toNat = Config.outDepth := by
  rw [BitVec.toNat_ofNat, Nat.mod_eq_of_lt outDepth_lt]

/-- Settles O8: each offset is a register's or an entry's, and a read there returns its word (the STATUS, BITACC and
OUT_DEPTH words by their fields). -/
theorem registersReadTheirFields : Obligations.RegistersReadTheirFields := by
  intro s
  refine ⟨fun v => ⟨hostRead_reg_anytime (r := .id) s (by decide) rfl, hostWrite_reg .id v s,
    hostRead_reg_anytime (r := .version) s (by decide) rfl, hostWrite_reg .version v s⟩, fun hb => ?_⟩
  have reads (r : Reg) (hr : r ≠ .outData) := hostRead_reg_idle hb hr
  obtain ⟨hbusy, hphase, hcomp, hzero, hcode, hupper⟩ := statusWord_fields s
  refine ⟨⟨statusWord s, reads .status (by decide), hbusy.trans hb, hphase, hcomp, hzero, hcode, hupper⟩,
    reads .cmd (by decide), reads .quality (by decide), reads .width (by decide), reads .height (by decide),
    reads .scale (by decide), reads .intStatus (by decide), reads .intEnable (by decide), reads .errCmd (by decide),
    reads .errDetail (by decide), reads .predY (by decide), reads .predCb (by decide), reads .predCr (by decide),
    ⟨bitAccWord s, reads .bitAcc (by decide), bitAccWord_fields s⟩, reads .mcuTotal (by decide),
    reads .mcuDone (by decide), reads .outLevel (by decide), reads .outTotal (by decide),
    ⟨BitVec.ofNat 32 Config.outDepth, reads .outDepth (by decide), outDepth_toNat, ?_⟩, fun k => ⟨?_, ?_⟩,
    fun i hi => ⟨fun x => hostRead_sample hi, fun x => hostRead_coef hi hb, fun x => hostRead_zz hi hb⟩⟩
  · rw [outDepth_toNat]
    exact outDepth_ge
  · exact hostRead_qt (inInterface_aligned (by omega) (by omega)) (locate_qt_luma k) hb
  · exact hostRead_qt (inInterface_aligned (by omega) (by omega)) (locate_qt_chroma k) hb

/-! ### OUT_DATA -/

/-- OUT_DATA's word with VALID set (10_state.md rule R51). -/
theorem ofNat_valid_byte (b : Byte) : BitVec.ofNat 32 (256 + b.toNat) = 0#23 ++ 1#1 ++ b := by
  revert b
  decide

/-- A read of OUT_DATA while BUSY = 0 pops the oldest byte. -/
theorem readReg_outData_pop {s : State} {b : Byte} {rest : List Byte} (hb : s.busy = false) (hf : s.fifo = b :: rest) :
    readReg .outData s = reply (BitVec.ofNat 32 (256 + b.toNat)) { s with fifo := rest } := by
  simp [readReg, hb, hf]

/-- A read of OUT_DATA while BUSY = 1 or with the FIFO empty returns 0. -/
theorem readReg_outData_none {s : State} (h : s.busy = true ∨ s.fifo = []) : readReg .outData s = reply 0 s := by
  unfold readReg
  split
  · rfl
  · rename_i hb
    have hf : s.fifo = [] := h.resolve_left hb
    simp [hf, regValue]

/-- Settles O17, from what a read of OUT_DATA does with and without a byte to return. -/
theorem outDataPopsTheOldestByte : Obligations.OutDataPopsTheOldestByte := by
  refine ⟨fun s b rest hb hf => ?_, fun s h => ?_, fun s v => hostWrite_reg .outData v s⟩
  · rw [← ofNat_valid_byte b]
    exact (hostRead_reg .outData s).trans (congrArg _ (readReg_outData_pop hb hf))
  · exact (hostRead_reg .outData s).trans (congrArg _ (readReg_outData_none h))

/-! ### Writes of CMD, the interrupt registers, the input registers and the buffers -/

/-- Settles O13: the write is no dropped one while BUSY = 0, and CMD reads 0 even while BUSY = 1. -/
theorem cmdWriteIssuesTheCommand : Obligations.CmdWriteIssuesTheCommand := by
  refine ⟨fun s v hb => ?_, fun s => hostRead_reg_anytime (r := .cmd) s (by decide) rfl⟩
  exact (hostWrite_reg .cmd v s).trans (congrArg _ (guardedWrite_idle _ hb))

/-- Settles O14: no command may change the two registers, so BUSY plays no part in their reads and writes. -/
theorem interruptRegisterWrites : Obligations.InterruptRegisterWrites := by
  intro s v
  refine ⟨⟨_, hostWrite_reg .intStatus v s, rfl, fun n hn => ?_⟩, ?_,
    hostRead_reg_anytime (r := .intStatus) s (by decide) rfl, hostRead_reg_anytime (r := .intEnable) s (by decide) rfl⟩
  · simp [writeReg, hn]
  · rw [← BitVec.setWidth_eq_extractLsb' (by decide)]
    exact hostWrite_reg .intEnable v s

/-- The low half of a word, read back. -/
theorem setWidth_low_half (v : Word) : (v.setWidth 16).setWidth 32 = v &&& 0xFFFF := by
  apply BitVec.eq_of_toNat_eq
  simp only [BitVec.toNat_setWidth, BitVec.toNat_and]
  exact (Nat.mod_eq_of_lt (by omega)).trans (Nat.and_two_pow_sub_one_eq_mod _ 16).symm

/-- `hostRead_reg_idle` with the word returned in any form that equals the register's value. -/
theorem hostRead_reg_value {r : Reg} {s : State} {w : Word} (hb : s.busy = false) (hr : r ≠ .outData)
    (hw : regValue s r = w) :
    hostAccess (.read (regOffset r) 4) s = .next { s with replies := w :: s.replies } := by
  rw [hostRead_reg_idle hb hr, hw]

/-- Settles O10: what each write stores is what the register then reads. -/
theorem inputRegisterWrites : Obligations.InputRegisterWrites := by
  intro s v hb
  rw [← BitVec.setWidth_eq_extractLsb' (by decide)]
  have writes (r : Reg) {t : State} (ht : writeReg r v s = guardedWrite s t) :
      hostAccess (.write (regOffset r) 4 v) s = .next t := by
    rw [hostWrite_reg, ht, guardedWrite_idle t hb]
  refine ⟨⟨clampQuality v, clampQuality_toNat v, writes .quality rfl, ?_⟩, ⟨_, rfl, writes .width rfl, ?_⟩,
    ⟨_, rfl, writes .height rfl, ?_⟩⟩
  · exact hostRead_reg_value (r := .quality) hb (by decide) (BitVec.ofNat_toNat 32 (clampQuality v)).symm
  · exact hostRead_reg_value (r := .width) hb (by decide) (setWidth_low_half v)
  · exact hostRead_reg_value (r := .height) hb (by decide) (setWidth_low_half v)

/-- Settles O11: a buffer is a map from index to value under its write and read. -/
theorem bufferWriteThenRead : Obligations.BufferWriteThenRead := by
  intro s i v hi hb
  rw [← BitVec.setWidth_eq_extractLsb' (by decide), ← BitVec.setWidth_eq_extractLsb' (by decide)]
  refine ⟨⟨_, hostWrite_sample hi hb v, rfl, hostRead_sample hi (bufRead_bufWrite_self _ i _), fun j hj => ?_⟩,
    ⟨_, hostWrite_coef hi hb v, rfl, hostRead_coef hi (by exact hb) (bufRead_bufWrite_self _ i _), fun j hj => ?_⟩,
    ⟨_, hostWrite_zz hi hb v, rfl, hostRead_zz hi (by exact hb) (bufRead_bufWrite_self _ i _), fun j hj => ?_⟩⟩
  all_goals exact bufRead_bufWrite_other _ _ hj

end Sys2Proof.Machine
end

section
/-! PROOFS. The interface's accesses, ignored writes, the FIFO's order and the coherence of the latched command
(20_memory.md rules R91 to R94, R105, R107). -/

namespace Sys2Proof.Machine

/-! ### Which accesses are refused -/

theorem inInterface_outside {off bytes : Nat} (h : bytes ≠ 4 ∨ off % 4 ≠ 0 ∨ 0xFFF < off) :
    inInterface off bytes = false := by
  simp only [inInterface, Bool.and_eq_false_iff, beq_eq_false_iff_ne, decide_eq_false_iff_not]
  omega

/-- Settles O9: an access is refused by the test of `inInterface` alone, since no read of what stands in the window is. -/
theorem accessesOutsideTheInterfaceAreRefused : Obligations.AccessesOutsideTheInterfaceAreRefused := by
  refine ⟨fun s off bytes v h => ?_, fun s off v h4 hle => ?_⟩
  · have hi := inInterface_outside h
    exact ⟨by simp [hostAccess, hi], by simp [hostAccess, hi]⟩
  · have hi := inInterface_aligned h4 hle
    refine ⟨⟨_, hostAccess_write v s hi rfl⟩, fun r => ?_⟩
    rw [hostAccess_read s hi rfl]
    exact readLoc_not_refused _ s r

/-! ### Writes that are ignored -/

/-- The registers that ignore writes, in the order of their offsets (20_memory.md rule R94). -/
def readOnlyRegs : List Reg :=
  [.id, .version, .status, .scale, .errCmd, .errDetail, .predY, .predCb, .predCr, .bitAcc, .mcuTotal, .mcuDone,
    .outLevel, .outData, .outTotal, .outDepth]

theorem writeReg_readOnly {r : Reg} (h : r ∈ readOnlyRegs) (v : Word) (s : State) : writeReg r v s = s := by
  cases r with
  | cmd | quality | width | height | intStatus | intEnable => exact absurd h (by decide)
  | _ => rfl

theorem hostWrite_readOnly {off : Nat} (h : off ∈ readOnlyRegs.map regOffset) (v : Word) (s : State) :
    hostAccess (.write off 4 v) s = .next s := by
  obtain ⟨r, hr, rfl⟩ := List.mem_map.1 h
  rw [hostWrite_reg, writeReg_readOnly hr]

/-- Settles O15: the offsets listed are those of the read-only registers, the others an entry of a QT. -/
theorem readOnlyWritesAreIgnored : Obligations.ReadOnlyWritesAreIgnored := by
  refine ⟨fun s off v h => ?_, fun s => hostRead_reg_anytime (r := .cmd) s (by decide) rfl⟩
  rcases h with hreg | ⟨hlo, hhi, h4⟩
  · exact hostWrite_readOnly hreg v s
  · obtain ⟨c, k, hl⟩ := locate_qt hlo hhi
    exact hostAccess_write v s (inInterface_aligned h4 (by omega)) hl

/-- Settles O16, from the window's map. -/
theorem reservedOffsetsReadZero : Obligations.ReservedOffsetsReadZero := by
  intro s off v h4 h
  have hi := inInterface_aligned h4 (by omega)
  have hl := locate_reserved h4 h
  exact ⟨hostAccess_read s hi hl, hostAccess_write v s hi hl⟩

/-! ### The FIFO from step to step -/

theorem codeBlock_ok_appends {k : Comp} {zz : Block (BitVec 16)} {s u : State} (h : codeBlock k zz s = .ok u) :
    s.fifo <+: u.fifo := by
  obtain ⟨cs, _, _, rfl⟩ := codeBlock_eq_ok h
  simp

/-- Of the thirteen commands only INIT takes bytes out of the FIFO. -/
theorem bodyOf_ok_appends {i : Instr} {s u : State} (hi : i ≠ .init) (h : bodyOf i s = .ok u) :
    s.fifo <+: u.fifo := by
  cases i with
  | init => exact absurd rfl hi
  | nop =>
    obtain rfl := Except.ok.inj h
    exact List.prefix_rfl
  | header =>
    obtain ⟨_, _, _, rfl⟩ := headerBody_ok h
    exact List.prefix_append _ _
  | fdctq0 | fdctq1 =>
    obtain ⟨x, _, rfl⟩ := fdctqBody_ok h
    exact List.prefix_rfl
  | zigzag =>
    obtain ⟨x, _, rfl⟩ := zigzagBody_ok h
    exact List.prefix_rfl
  | huffY | huffCb | huffCr =>
    obtain ⟨zz, _, hu⟩ := huffBody_ok h
    exact codeBlock_ok_appends hu
  | encblkY | encblkCb | encblkCr =>
    -- the COEF and ZZ it stores are no part of the FIFO
    obtain ⟨x, v, _, hv, rfl⟩ := encblkBody_ok h
    have hp : s.fifo <+: v.fifo := codeBlock_ok_appends hv
    exact hp
  | finish =>
    obtain ⟨_, rfl⟩ := finishBody_ok h
    exact List.prefix_append _ _

theorem coreStep_fifo {s t : State} (h : coreStep s = .next t) :
    s.fifo <+: t.fifo ∨ (t.fifo = [] ∧ decode s.cmdLatch = .ok .init) := by
  rcases coreStep_next h with ⟨e, rfl⟩ | ⟨i, hd, _, u, hu, rfl⟩
  · exact .inl (by rw [reject_fifo])
  · by_cases hi : i = .init
    · subst hi
      obtain rfl := Except.ok.inj hu
      exact .inr ⟨rfl, hd⟩
    · rw [complete_fifo]
      exact .inl (bodyOf_ok_appends hi hu)

/-- A host access keeps the FIFO or is the read of OUT_DATA that pops its oldest byte. -/
theorem hostAccess_fifo {a : HostAccess} {s t : State} (h : hostAccess a s = .next t) :
    t.fifo = s.fifo ∨
    ∃ b : Byte, s.fifo = b :: t.fifo ∧ s.busy = false ∧ t.replies = (0#23 ++ 1#1 ++ b) :: s.replies := by
  rcases hostAccess_next h with ⟨off, _, _, hr⟩ | ⟨off, v, _, _, rfl⟩
  · rcases readLoc_next hr with ⟨w, n, rfl⟩ | ⟨hb, b, rest, hf, rfl⟩
    · exact .inl rfl
    · exact .inr ⟨b, hf, hb, congrArg (· :: s.replies) (ofNat_valid_byte b)⟩
  · exact .inl (by rw [writeLoc_frame])

/-- Settles O55: each way a step can go (host access, core step, wait, reset) gives one of the three outcomes. -/
theorem fifoIsFirstInFirstOut : Obligations.FifoIsFirstInFirstOut := by
  intro s t h
  rcases step_cases h with ⟨a, rest, _, ha⟩ | ⟨hb, hc⟩ | ⟨_, rfl⟩ | ⟨rest, hr, rfl⟩
  · rcases hostAccess_fifo ha with hkept | hpopped
    · exact .inl ⟨[], by rw [hkept, List.append_nil]⟩
    · exact .inr (.inl hpopped)
  · rcases coreStep_fifo hc with ⟨bs, happended⟩ | ⟨hempty, hinit⟩
    · exact .inl ⟨bs, happended.symm⟩
    · exact .inr (.inr ⟨hempty, .inl ⟨hb, hinit⟩⟩)
  · exact .inl ⟨[], (List.append_nil _).symm⟩
  · exact .inr (.inr ⟨rfl, .inr ⟨rest, hr⟩⟩)

/-! ### Host accesses while BUSY = 1 -/

/-- The next turn being the host's, the step is its access. -/
theorem step_host {s : State} {a : HostAccess} {rest : List Turn} (h : s.agenda = .host a :: rest) :
    step s = hostAccess a { s with agenda := rest } := by
  simp only [step, stepOnce, h, takeTurn]

/-- While BUSY = 1 a host access changes nothing of the block but INT_STATUS and INT_ENABLE. -/
theorem hostAccess_busy {a : HostAccess} {s t : State} (hb : s.busy = true) (h : hostAccess a s = .next t) :
    t = { s with intStatus := t.intStatus, intEnable := t.intEnable, replies := t.replies, draws := t.draws } := by
  rcases hostAccess_next h with ⟨off, _, _, hr⟩ | ⟨off, v, _, _, rfl⟩
  · rcases readLoc_next hr with ⟨w, n, rfl⟩ | ⟨hidle, _⟩
    · rfl
    · exact absurd (hidle.symm.trans hb) (by decide)
  · rw [writeLoc_busy hb]

/-- Settles O56: BUSY stands when the access is made, so the access drops what would change the command's inputs. -/
theorem commandCoherence : Obligations.CommandCoherence := by
  intro s t a rest hb ha h
  rw [step_host ha] at h
  exact hostAccess_busy (s := { s with agenda := rest }) hb h

end Sys2Proof.Machine
end

section
/-! PROOFS. The decoder and the encoder on every word, and what the core does with a word that is no command
(30_encoding.md rules R120 to R127). -/

namespace Sys2Proof

/-! ### The legal fields are those of the thirteen instructions -/

/-- No field is in one of rule R125's five cases. -/
theorem CmdFields.wellFormed_iff (f : CmdFields) : f.wellFormed = true ↔
    f.op.toNat < 8 ∧ f.res = 0 ∧ f.comp ≠ 3 ∧ (f.comp = 0 ∨ f.op = 5 ∨ f.op = 6) ∧ (f.cls = 0 ∨ f.op = 3) := by
  simp [wellFormed, opDefined, reservedZero, compLegal, compUsed, clsUsed, or_assoc, and_assoc]

/-- The defined opcodes by the fields they use: CLS, COMP or none (rule R121). -/
theorem opcode_cases : ∀ op : BitVec 4, op.toNat < 8 →
    op = 3 ∨ (op = 5 ∨ op = 6) ∨ (op = 0 ∨ op = 1 ∨ op = 2 ∨ op = 4 ∨ op = 7) := by decide

theorem comp_cases : ∀ comp : BitVec 2, comp ≠ 3 → comp = 0 ∨ comp = 1 ∨ comp = 2 := by decide

/-- Legal fields are an instruction's: a field that the command does not use is 0, and the values of the one it uses
are the rows of rule R127. -/
theorem exists_fieldsOf_eq {f : CmdFields} (h : f.wellFormed = true) : ∃ i, fieldsOf i = f := by
  obtain ⟨hop, hres, hcomp, hcompUsed, hclsUsed⟩ := f.wellFormed_iff.mp h
  obtain ⟨op, comp, cls, res⟩ := f
  dsimp only at hop hres hcomp hcompUsed hclsUsed
  subst hres
  rcases opcode_cases op hop with rfl | hcoder | hplain
  · obtain rfl : comp = 0 := by simpa using hcompUsed
    rcases BitVec.eq_zero_or_eq_one cls with rfl | rfl
    · exact ⟨.fdctq0, rfl⟩
    · exact ⟨.fdctq1, rfl⟩
  · rcases hcoder with rfl | rfl
    all_goals obtain rfl : cls = 0 := by simpa using hclsUsed
    · rcases comp_cases comp hcomp with rfl | rfl | rfl
      · exact ⟨.huffY, rfl⟩
      · exact ⟨.huffCb, rfl⟩
      · exact ⟨.huffCr, rfl⟩
    · rcases comp_cases comp hcomp with rfl | rfl | rfl
      · exact ⟨.encblkY, rfl⟩
      · exact ⟨.encblkCb, rfl⟩
      · exact ⟨.encblkCr, rfl⟩
  · rcases hplain with rfl | rfl | rfl | rfl | rfl
    all_goals obtain ⟨rfl, rfl⟩ : comp = 0 ∧ cls = 0 := by simpa using And.intro hcompUsed hclsUsed
    · exact ⟨.nop, rfl⟩
    · exact ⟨.init, rfl⟩
    · exact ⟨.header, rfl⟩
    · exact ⟨.zigzag, rfl⟩
    · exact ⟨.finish, rfl⟩

/-! ### Words -/

/-- The four fields are the whole word. -/
@[simp] theorem joinWord_splitWord (w : Word) : joinWord (splitWord w) = w := by
  have append (start len len' : Nat) : w.extractLsb' (start + len) len' ++ w.extractLsb' start len =
      w.extractLsb' start (len' + len) := BitVec.extractLsb'_append_extractLsb'_eq_extractLsb' rfl
  calc joinWord (splitWord w)
    _ = w.extractLsb' 7 25 ++ w.extractLsb' 6 1 ++ w.extractLsb' 4 2 ++ w.extractLsb' 0 4 := rfl
    _ = w.extractLsb' 0 32 := by rw [append 6 1 25, append 4 2 26, append 0 4 28]
    _ = w := BitVec.extractLsb'_eq_self

/-- A word whose fields are legal is one of the thirteen. -/
theorem exists_eq_encode {w : Word} (h : (splitWord w).wellFormed = true) : ∃ i, w = encode i := by
  obtain ⟨i, hi⟩ := exists_fieldsOf_eq h
  exact ⟨i, by rw [encode, hi, joinWord_splitWord]⟩

/-- The decoder's five tests let only words with legal fields pass. -/
theorem wellFormed_of_decode_ok {w : Word} {i : Instr} (h : decode w = .ok i) : (splitWord w).wellFormed = true := by
  unfold decode decodeFields at h
  iterate 5
    split at h
    · cases h
  rename_i hres hop hcomp hcompUsed hclsUsed
  rw [CmdFields.wellFormed_iff]
  exact ⟨by omega, by tauto, hcomp, by tauto, by tauto⟩

open Laws.RoundTrip in
theorem decode_encode (i : Instr) : decode (encode i) = .ok i := by
  have hrow : Statement i := by
    cases i
    case nop => exact nop
    case init => exact init
    case header => exact header
    case fdctq0 => exact fdctq0
    case fdctq1 => exact fdctq1
    case zigzag => exact zigzag
    case huffY => exact huffY
    case huffCb => exact huffCb
    case huffCr => exact huffCr
    case encblkY => exact encblkY
    case encblkCb => exact encblkCb
    case encblkCr => exact encblkCr
    case finish => exact finish
  obtain ⟨-, -, hdecode⟩ := hrow
  exact hdecode

theorem decode_eq_ok_iff {w : Word} {i : Instr} : decode w = .ok i ↔ w = encode i := by
  refine ⟨fun h => ?_, fun h => h ▸ decode_encode i⟩
  obtain ⟨j, rfl⟩ := exists_eq_encode (wellFormed_of_decode_ok h)
  rw [Except.ok.inj ((decode_encode j).symm.trans h)]

theorem exists_decode_error_iff {w : Word} : (∃ e, decode w = .error e) ↔ ¬ (splitWord w).wellFormed = true := by
  constructor
  · rintro ⟨e, he⟩ hlegal
    obtain ⟨i, rfl⟩ := exists_eq_encode hlegal
    cases (decode_encode i).symm.trans he
  · intro hill
    cases hd : decode w with
    | error e => exact ⟨e, rfl⟩
    | ok i => exact absurd (wellFormed_of_decode_ok hd) hill

/-- Settles O1: a word that decodes has legal fields, so it is some instruction's word, and the decoder reads that
instruction back. -/
theorem legalWordsAreExactlyThirteen : Obligations.LegalWordsAreExactlyThirteen :=
  ⟨by decide, fun _ _ => decode_eq_ok_iff⟩

/-! ### Illegal words -/

/-- The core rejects an illegal word before it looks at anything else. -/
theorem coreStep_illegal {s : Machine.State} {e : IllegalWord} (h : decode s.cmdLatch = .error e) :
    Machine.coreStep s = .next (Machine.reject .illegalCommand s) := by
  simp only [Machine.coreStep, h]

/-- Settles O2: the decoder fails exactly on fields that are not legal, and the five cases are what legal denies. -/
theorem illegalWordsAreTheFiveCases : Obligations.IllegalWordsAreTheFiveCases := by
  refine ⟨fun w => ?_, fun _ _ => coreStep_illegal⟩
  have hcls : w.extractLsb' 6 1 = 1 ↔ w.extractLsb' 6 1 ≠ 0 :=
    (by decide : ∀ c : BitVec 1, c = 1 ↔ c ≠ 0) _
  rw [exists_decode_error_iff, CmdFields.wellFormed_iff, hcls, ← Nat.not_lt]
  simp only [splitWord]
  tauto

/-- Settles O3: each word is evaluated by the decoder. -/
theorem wordsDecodeAsWritten : Obligations.WordsDecodeAsWritten := by
  unfold Obligations.WordsDecodeAsWritten
  decide

end Sys2Proof
end

section
/-! PROOFS. The Table Builder's SCALE, QT and FS, and INIT (40_tables.md rules R150 to R156). -/

namespace Sys2Proof.Machine

/-! ### SCALE -/

/-- For a quality in 1..100, 13 bits hold SCALE: no quality has more than the 5000 of quality 1 (rule R151). -/
theorem scaleFactor_toNat {q : BitVec 7} (hlo : 1 ≤ q.toNat) (hhi : q.toNat ≤ 100) :
    (scaleFactor q).toNat = if q.toNat < 50 then 5000 / q.toNat else 200 - 2 * q.toNat := by
  unfold scaleFactor
  by_cases hq : q.toNat < 50
  · have : 5000 / q.toNat ≤ 5000 := Nat.div_le_self 5000 _
    rw [if_pos ⟨hlo, hq⟩, if_pos hq, BitVec.toNat_ofNat, Nat.mod_eq_of_lt (by omega)]
  · rw [if_neg (by omega), if_pos (by omega), if_neg hq, BitVec.toNat_ofNat, Nat.mod_eq_of_lt (by omega)]

/-- SCALE falls as the quality rises; from 49 to 50 it goes from 102 to 100. -/
theorem scaleFactor_antitone {q1 q2 : BitVec 7} (hlo : 1 ≤ q1.toNat) (hle : q1.toNat ≤ q2.toNat)
    (hhi : q2.toNat ≤ 100) : (scaleFactor q2).toNat ≤ (scaleFactor q1).toNat := by
  rw [scaleFactor_toNat hlo (by omega), scaleFactor_toNat (by omega) hhi]
  by_cases h1 : q1.toNat < 50
  · by_cases h2 : q2.toNat < 50
    · rw [if_pos h1, if_pos h2]
      exact Nat.div_le_div_left hle hlo
    · have : 5000 / 50 ≤ 5000 / q1.toNat := Nat.div_le_div_left (by omega) hlo
      rw [if_pos h1, if_neg h2]
      omega
  · rw [if_neg h1, if_neg (by omega)]
    omega

/-! ### QT -/

theorem clampNat_eq_min_max {x lo hi : Nat} (h : lo ≤ hi) : clampNat x lo hi = min (max x lo) hi := by
  unfold clampNat
  split
  · omega
  · split <;> omega

/-- A quantizer fits the byte of QT, since it is clamped to 255 (rule R154). -/
theorem quantEntry_toNat (b sf : Nat) : (quantEntry b sf).toNat = min (max ((b * sf + 50) / 100) 1) 255 := by
  rw [quantEntry, clampNat_eq_min_max (by decide), BitVec.toNat_ofNat]
  exact Nat.mod_eq_of_lt (by omega)

theorem quantEntry_mono (b : Nat) {sf sf' : Nat} (h : sf ≤ sf') :
    (quantEntry b sf).toNat ≤ (quantEntry b sf').toNat := by
  rw [quantEntry_toNat, quantEntry_toNat]
  gcongr

theorem quantTable_getElem (c : TableClass) (sf : Nat) (k : Fin 64) :
    (quantTable c sf)[k] = quantEntry (base c (unzigzag k)) sf := tabulate_getElem _ k.val k.isLt

theorem unzigzag_zigzag : ∀ i : Fin 64, unzigzag (zigzag i) = i := by decide

/-- The entry of natural index i stands at zigzag index ZIGZAG[i] (rule R154). -/
theorem quantTable_zigzag_toNat (c : TableClass) (sf : Nat) (i : Fin 64) :
    (quantTable c sf)[zigzag i].toNat = min (max ((base c i * sf + 50) / 100) 1) 255 := by
  rw [quantTable_getElem, unzigzag_zigzag, quantEntry_toNat]

/-- Settles O23: SCALE falls as the quality rises, and an entry rises with SCALE. -/
theorem quantTablesAreMonotone : Obligations.QuantTablesAreMonotone := by
  intro q1 q2 c k hlo hlt hhi
  rw [quantTable_getElem, quantTable_getElem]
  exact quantEntry_mono _ (scaleFactor_antitone hlo hlt.le hhi)

/-! ### FS and INIT -/

theorem scaleTable_getElem (qt : Block Byte) (i : Fin 64) :
    (scaleTable qt)[i] = scaleEntry qt[zigzag i] i := tabulate_getElem _ i.val i.isLt

/-- INIT is admitted in every STATE, so it always completes (46_sequencing.md rule R322). -/
theorem exec_init (s : State) : exec .init s = .next (complete (initState s)) := exec_commit rfl rfl

/-- Settles O22: INIT completes with the three tables computed from SCALE and every other field it sets fixed. -/
theorem initBuildsTheTables : Obligations.InitBuildsTheTables := by
  rintro s ⟨hlo, hhi⟩
  refine ⟨complete (initState s), exec_init s, scaleFactor_toNat hlo hhi, fun i => ⟨?_, ?_, ?_, ?_⟩, rfl⟩
  · exact quantTable_zigzag_toNat .luma _ i
  · exact quantTable_zigzag_toNat .chroma _ i
  · exact scaleTable_getElem (initState s).qt0 i
  · exact scaleTable_getElem (initState s).qt1 i

end Sys2Proof.Machine
end

section
/-! PROOFS. Binary64 on whole numbers: integers and their sums are exact, and an exact half rounds away from zero
(00_scope.md rule R10; 41_fdct_quant.md rules R184, R186). -/

namespace Sys2Proof.Machine

/-! ### Encodings -/

theorem withSign_toNat (neg : Bool) {bits : Nat} (h : bits < 2 ^ 63) :
    (withSign neg bits).toNat = (if neg then 2 ^ 63 else 0) + bits := by
  rw [withSign, BitVec.toNat_ofNat]
  exact Nat.mod_eq_of_lt (by split <;> omega)

theorem magBits_withSign (neg : Bool) {bits : Nat} (h : bits < 2 ^ 63) : magBits (withSign neg bits) = bits := by
  rw [magBits, withSign_toNat neg h]
  split <;> omega

theorem isNeg_withSign (neg : Bool) {bits : Nat} (h : bits < 2 ^ 63) : isNeg (withSign neg bits) = neg := by
  rw [isNeg, BitVec.msb_eq_decide, withSign_toNat neg h]
  cases neg
  · simp
    omega
  · simp

theorem magBits_lt (x : Binary64) : magBits x < 2 ^ 63 := Nat.mod_lt _ (by decide)

/-- The magnitude that an exponent field and a significand encode; at exponent field 0 there is no hidden bit. -/
theorem magUnits_of_magBits {x : Binary64} {e q : Nat} (h : magBits x = e * 2 ^ 52 + q) (hq : q < 2 ^ 53)
    (he : e = 0 ∨ 2 ^ 52 ≤ q) : magUnits x = q * 2 ^ e := by
  simp only [magUnits, h, Nat.shiftRight_eq_div_pow, Nat.shiftLeft_eq]
  by_cases hlow : q < 2 ^ 52
  · obtain rfl : e = 0 := by omega
    rw [if_pos (by omega)]
    omega
  · have hexp : (e * 2 ^ 52 + q) / 2 ^ 52 = e + 1 := by omega
    have hfrac : (e * 2 ^ 52 + q) % 2 ^ 52 + 2 ^ 52 = q := by omega
    rw [hexp, hfrac, if_neg (by omega), Nat.add_sub_cancel]

/-! ### Rounding is exact on the numbers binary64 holds -/

/-- A number of units that binary64 holds: at most 53 significant bits, below infinity. -/
def holdsUnits (n : Nat) : Prop := 2 ^ (Nat.log2 n - 52) ∣ n ∧ Nat.log2 n ≤ 2097

theorem holdsUnits_mul_two_pow {m k : Nat} (hm : m < 2 ^ 53) (hk : k ≤ 2045) : holdsUnits (m * 2 ^ k) := by
  by_cases h0 : m = 0
  · subst h0
    simp [holdsUnits]
  · have hlog : Nat.log2 (m * 2 ^ k) < 53 + k := by
      refine (Nat.log2_lt (by positivity)).2 ?_
      rw [Nat.pow_add]
      gcongr
    exact ⟨Dvd.dvd.mul_left (Nat.pow_dvd_pow 2 (by omega)) m, by omega⟩

/-- The significand and exponent of a number that binary64 holds. -/
theorem holdsUnits_significand {n : Nat} (h : holdsUnits n) :
    ∃ q, n = q * 2 ^ (Nat.log2 n - 52) ∧ q < 2 ^ 53 ∧ (Nat.log2 n - 52 = 0 ∨ 2 ^ 52 ≤ q) := by
  obtain ⟨⟨q, hq⟩, -⟩ := h
  rw [Nat.mul_comm] at hq
  refine ⟨q, hq, ?_, ?_⟩
  · refine Nat.lt_of_mul_lt_mul_right (a := 2 ^ (Nat.log2 n - 52)) ?_
    calc q * 2 ^ (Nat.log2 n - 52) = n := hq.symm
      _ < 2 ^ (Nat.log2 n + 1) := Nat.lt_log2_self
      _ ≤ 2 ^ (53 + (Nat.log2 n - 52)) := Nat.pow_le_pow_right (by decide) (by omega)
      _ = 2 ^ 53 * 2 ^ (Nat.log2 n - 52) := Nat.pow_add ..
  · refine or_iff_not_imp_left.2 fun he => Nat.le_of_mul_le_mul_right ?_ (Nat.two_pow_pos (Nat.log2 n - 52))
    have hn : n ≠ 0 := fun h0 => he (by simp [h0])
    calc 2 ^ 52 * 2 ^ (Nat.log2 n - 52) = 2 ^ Nat.log2 n := by rw [← Nat.pow_add]; congr 1; omega
      _ ≤ n := Nat.log2_self_le hn
      _ = q * 2 ^ (Nat.log2 n - 52) := hq

/-- A quotient that binary64 holds is encoded with nothing shifted out and no rounding. -/
theorem roundMag_exact {n q den : Nat} (hd : 0 < den) (hlog : Nat.log2 n ≤ 2097)
    (hn : n = q * 2 ^ (Nat.log2 n - 52)) (hq : q < 2 ^ 53) :
    roundMag (n * den) den = (Nat.log2 n - 52) * 2 ^ 52 + q := by
  have htop : topBit n = Nat.log2 n :=
    topBit_eq_log2 n (Nat.lt_log2_self.trans_le (Nat.pow_le_pow_right (by decide) (by omega)))
  generalize hdd : den * 2 ^ (Nat.log2 n - 52) = d
  have hdpos : 0 < d := by rw [← hdd]; positivity
  have hnum : n * den = q * d := by
    rw [← hdd]
    nth_rw 1 [hn]
    ring
  simp only [roundMag, Nat.mul_div_cancel n hd, htop, Nat.shiftLeft_eq, hdd]
  rw [hnum, Nat.mul_div_cancel q hdpos, Nat.mul_mod_left, if_neg (by omega), infBits, Nat.min_eq_left (by omega)]

/-- A sign put on the encoding of a quotient that binary64 holds: the finite value of that sign and magnitude. -/
theorem withSign_roundMag_exact (neg : Bool) {n den : Nat} (hd : 0 < den) (h : holdsUnits n) :
    isFinite (withSign neg (roundMag (n * den) den)) = true ∧ isNeg (withSign neg (roundMag (n * den) den)) = neg ∧
    magUnits (withSign neg (roundMag (n * den) den)) = n := by
  obtain ⟨q, hn, hq, he⟩ := holdsUnits_significand h
  have hlog := h.2
  have hround := roundMag_exact hd hlog hn hq
  have hlt : roundMag (n * den) den < infBits := by rw [hround, infBits]; omega
  have hmag := magBits_withSign neg (hlt.trans (by decide))
  refine ⟨by simpa [isFinite, hmag] using hlt, isNeg_withSign neg (hlt.trans (by decide)), ?_⟩
  rw [magUnits_of_magBits (hmag.trans hround) hq he, ← hn]

/-! ### Values in units -/

/-- Only an exact zero takes the sign given; every other number of units has its own. -/
theorem roundUnits_eq (b : Bool) (z : Int) :
    roundUnits b z = withSign (if z = 0 then b else decide (z < 0)) (roundMag z.natAbs 1) := by
  match z with
  | 0 => simp [roundUnits, show roundMag 0 1 = 0 by decide]
  | (n + 1 : Nat) =>
    rw [if_neg (by omega), decide_eq_false (by omega)]
    rfl
  | .negSucc n => simp [roundUnits]

theorem units_natAbs (x : Binary64) : (units x).natAbs = magUnits x := by
  unfold units
  split <;> simp

theorem units_of_isNeg {x : Binary64} {z : Int} (hneg : isNeg x = decide (z < 0)) (hmag : magUnits x = z.natAbs) :
    units x = z := by
  simp only [units, hneg, hmag, decide_eq_true_eq]
  split <;> omega

/-- 1 in units; irreducible, so that nothing evaluates the power. -/
@[irreducible] def oneUnits : Nat := 2 ^ unitExp

theorem oneUnits_eq : oneUnits = 2 ^ unitExp := by
  unfold oneUnits
  exact Eq.refl _

theorem oneUnits_pos : 0 < oneUnits := by
  rw [oneUnits_eq]
  exact Nat.two_pow_pos unitExp

theorem ofInt64_eq (z : Int) : ofInt64 z = roundUnits false (z * oneUnits) := by
  rw [ofInt64, oneUnits_eq]
  generalize unitExp = k
  push_cast
  rfl

theorem holdsUnits_int {z : Int} (h : z.natAbs < 2 ^ 53) : holdsUnits (z * oneUnits).natAbs := by
  rw [Int.natAbs_mul, Int.natAbs_natCast, oneUnits_eq]
  exact holdsUnits_mul_two_pow h (by decide)

/-- An integer of at most 53 bits is converted exactly, with its own sign (+0 for 0). -/
theorem ofInt64_exact {z : Int} (h : z.natAbs < 2 ^ 53) :
    isFinite (ofInt64 z) = true ∧ isNeg (ofInt64 z) = decide (z < 0) ∧ units (ofInt64 z) = z * oneUnits := by
  have hsign : decide (z * (oneUnits : Int) < 0) = decide (z < 0) := by
    simp [mul_neg_iff, oneUnits_pos]
  have hof : ofInt64 z = withSign (decide (z < 0)) (roundMag ((z * oneUnits).natAbs * 1) 1) := by
    rw [ofInt64_eq, roundUnits_eq, hsign, Nat.mul_one]
    congr 1
    split <;> simp_all [oneUnits_pos.ne']
  obtain ⟨hf, hneg, hmag⟩ := withSign_roundMag_exact (decide (z < 0)) Nat.one_pos (holdsUnits_int h)
  rw [← hof] at hf hneg hmag
  exact ⟨hf, hneg, units_of_isNeg (hneg.trans hsign.symm) hmag⟩

@[simp] theorem isNeg_neg64 (x : Binary64) : isNeg (neg64 x) = !isNeg x := isNeg_withSign _ (magBits_lt x)

@[simp] theorem magBits_neg64 (x : Binary64) : magBits (neg64 x) = magBits x := magBits_withSign _ (magBits_lt x)

@[simp] theorem isFinite_neg64 (x : Binary64) : isFinite (neg64 x) = isFinite x := by simp [isFinite]

@[simp] theorem units_neg64 (x : Binary64) : units (neg64 x) = -units x := by
  cases h : isNeg x <;> simp [units, magUnits, h]

theorem add64_finite {x y : Binary64} (hx : isFinite x = true) (hy : isFinite y = true) :
    add64 x y = roundUnits (isNeg x && isNeg y) (units x + units y) := if_pos ⟨hx, hy⟩

/-- The sign given matters to an exact zero only. -/
theorem roundUnits_zero_sign (b c : Bool) {z : Int} (h : z = 0 → b = c) : roundUnits b z = roundUnits c z := by
  rw [roundUnits_eq, roundUnits_eq]
  split
  · rw [h ‹_›]
  · rfl

/-- A sum that is a whole number is that integer, rounded, unless it is the zero sum of two negative zeros. -/
theorem add64_eq_ofInt64 {x y : Binary64} {z : Int} (hx : isFinite x = true) (hy : isFinite y = true)
    (hsum : units x + units y = z * oneUnits) (hzero : z = 0 → (isNeg x && isNeg y) = false) :
    add64 x y = ofInt64 z := by
  rw [add64_finite hx hy, hsum, ofInt64_eq]
  exact roundUnits_zero_sign _ _ fun h => hzero (by simpa [oneUnits_pos.ne'] using h)

/-- The sum of two integers is exact while they have at most 53 bits (41_fdct_quant.md rule R186). -/
theorem add64_ofInt64 {a b : Int} (ha : a.natAbs < 2 ^ 53) (hb : b.natAbs < 2 ^ 53) :
    add64 (ofInt64 a) (ofInt64 b) = ofInt64 (a + b) := by
  obtain ⟨hfa, hna, hua⟩ := ofInt64_exact ha
  obtain ⟨hfb, hnb, hub⟩ := ofInt64_exact hb
  refine add64_eq_ofInt64 hfa hfb (by rw [hua, hub, add_mul]) fun h => ?_
  simp only [hna, hnb, Bool.and_eq_false_iff, decide_eq_false_iff_not]
  omega

theorem sub64_ofInt64 {a b : Int} (ha : a.natAbs < 2 ^ 53) (hb : b.natAbs < 2 ^ 53) :
    sub64 (ofInt64 a) (ofInt64 b) = ofInt64 (a - b) := by
  obtain ⟨hfa, hna, hua⟩ := ofInt64_exact ha
  obtain ⟨hfb, hnb, hub⟩ := ofInt64_exact hb
  refine add64_eq_ofInt64 hfa (by rwa [isFinite_neg64]) ?_ fun h => ?_
  · rw [units_neg64, hua, hub, sub_mul, sub_eq_add_neg]
  · simp only [hna, isNeg_neg64, hnb, Bool.and_eq_false_iff, Bool.not_eq_false', decide_eq_false_iff_not,
      decide_eq_true_eq]
    omega

theorem truncZ_ofInt64 {z : Int} (h : z.natAbs < 2 ^ 53) : truncZ (ofInt64 z) = some z := by
  obtain ⟨hf, hneg, hunits⟩ := ofInt64_exact h
  have hmag : magUnits (ofInt64 z) / 2 ^ unitExp = z.natAbs := by
    rw [← units_natAbs, hunits, Int.natAbs_mul, ← oneUnits_eq]
    exact Nat.mul_div_cancel _ oneUnits_pos
  simp only [truncZ, hf, if_true, hmag, hneg, decide_eq_true_eq]
  congr 1
  split <;> omega

/-! ### RoundHalfAway of an exact half (41_fdct_quant.md rule R184) -/

/-- `n + 1/2` is held exactly: twice it is 2n + 1. -/
theorem ofDecimal_half {n : Nat} (h : n < 2 ^ 52) :
    isFinite (ofDecimal (2 * n + 1) 2) = true ∧ isNeg (ofDecimal (2 * n + 1) 2) = false ∧
    2 * units (ofDecimal (2 * n + 1) 2) = (2 * n + 1) * oneUnits := by
  have hdouble : (2 * n + 1) * 2 ^ (unitExp - 1) * 2 = (2 * n + 1) * oneUnits := by
    rw [Nat.mul_assoc, Nat.two_pow_pred_mul_two (by decide), oneUnits_eq]
  obtain ⟨hf, hneg, hmag⟩ := withSign_roundMag_exact false Nat.two_pos
    (holdsUnits_mul_two_pow (m := 2 * n + 1) (k := unitExp - 1) (by omega) (by decide))
  rw [hdouble, oneUnits_eq, ← ofDecimal] at hf hneg hmag
  have hnat : 2 * magUnits (ofDecimal (2 * n + 1) 2) = (2 * n + 1) * oneUnits := by
    rw [hmag, Nat.mul_comm, hdouble]
  refine ⟨hf, hneg, ?_⟩
  rw [units, hneg, if_neg Bool.false_ne_true]
  exact_mod_cast hnat

/-- The 0.5 that RoundHalfAway adds or subtracts. -/
theorem ofDecimal_one_half : isFinite (ofDecimal 1 2) = true ∧ 2 * units (ofDecimal 1 2) = oneUnits := by
  obtain ⟨hf, -, hunits⟩ := ofDecimal_half (n := 0) (by decide)
  exact ⟨hf, hunits.trans (one_mul _)⟩

theorem isPos_of_units {x : Binary64} (hf : isFinite x = true) (hneg : isNeg x = false) (h : units x ≠ 0) :
    isPos x = true := by
  have hnan : isNaN x = false := by
    simp only [isFinite, isNaN, decide_eq_true_eq, decide_eq_false_iff_not] at hf ⊢
    omega
  have hmag : magBits x ≠ 0 := fun h0 => h (by simp [units, magUnits, h0])
  simp [isPos, hneg, hnan, hmag]

/-- Settles O31: the sum with 0.5 is the whole number one further from 0, exact, so truncating keeps it. -/
theorem halvesRoundAwayFromZero : Obligations.HalvesRoundAwayFromZero := by
  intro n hn
  obtain ⟨hf, hneg, hunits⟩ := ofDecimal_half (n := n) (by omega)
  obtain ⟨hfhalf, hhalf⟩ := ofDecimal_one_half
  have hsum : units (ofDecimal (2 * n + 1) 2) + units (ofDecimal 1 2) = (n + 1) * oneUnits := by
    linarith
  have hpos : isPos (ofDecimal (2 * n + 1) 2) = true := by
    refine isPos_of_units hf hneg fun h0 => ?_
    rw [h0] at hunits
    exact mul_ne_zero (by omega) (by exact_mod_cast oneUnits_pos.ne') hunits.symm
  have hnegpos : isPos (neg64 (ofDecimal (2 * n + 1) 2)) ≠ true := by simp [isPos, hneg]
  have hup : halfAway (ofDecimal (2 * n + 1) 2) = ofInt64 (n + 1) := by
    rw [halfAway, if_pos hpos]
    exact add64_eq_ofInt64 hf hfhalf hsum (by omega)
  have hdown : halfAway (neg64 (ofDecimal (2 * n + 1) 2)) = ofInt64 (-(n + 1)) := by
    rw [halfAway, if_neg hnegpos]
    refine add64_eq_ofInt64 ((isFinite_neg64 _).trans hf) ((isFinite_neg64 _).trans hfhalf) ?_ (by omega)
    rw [units_neg64, units_neg64, ← neg_add, hsum, neg_mul]
  rw [roundHalfAway, roundHalfAway, hup, hdown]
  exact ⟨truncZ_ofInt64 (by omega), truncZ_ofInt64 (by omega)⟩

end Sys2Proof.Machine
end

section
/-! PROOFS. The transform: its entries, its DC output, and the block of equal samples (41_fdct_quant.md rules R181,
R182, R186, R190). -/

namespace Sys2Proof.Machine

/-! ### The passes, entry by entry (rules R181, R182) -/

theorem rowPass_getElem (D : Block Binary64) (i : Fin 64) :
    (rowPass D)[i] = vecGet (butterfly8 (rowVec D (rowOf i))) (colOf i) := by simp [rowPass]

theorem colPass_getElem (D : Block Binary64) (i : Fin 64) :
    (colPass D)[i] = vecGet (butterfly8 (colVec D (colOf i))) (rowOf i) := by simp [colPass]

@[simp] theorem rowOf_natIndex (r c : Fin 8) : rowOf (natIndex r c) = r := by
  simp only [rowOf, natIndex, Fin.ext_iff]
  omega

@[simp] theorem colOf_natIndex (r c : Fin 8) : colOf (natIndex r c) = c := by
  simp only [colOf, natIndex, Fin.ext_iff]
  omega

/-- Coefficient (r, c) is output r of the butterfly of the eight row butterflies' outputs c. -/
theorem dct8x8_getElem (x : Block Byte) (i : Fin 64) :
    (dct8x8 x)[i] = vecGet (butterfly8 (vecOf fun r =>
      vecGet (butterfly8 (vecOf fun c => ofInt64 x[natIndex r c].toInt)) (colOf i))) (rowOf i) := by
  rw [dct8x8, colPass_getElem]
  simp only [colVec, rowPass_getElem, rowVec, rowOf_natIndex, colOf_natIndex]
  simp only [Fin.getElem_fin, tabulate_getElem]

/-! ### The DC output (rule R186) -/

/-- The butterfly's output 0 is the exact sum of its inputs: every addition on its way is exact. -/
theorem butterfly8_d0 {a : Fin 8 → Int} (h : ∀ j, (a j).natAbs < 2 ^ 50) :
    (butterfly8 (vecOf fun j => ofInt64 (a j))).d0 = ofInt64 (∑ j, a j) := by
  have hb (j : Fin 8) : -2 ^ 50 < a j ∧ a j < 2 ^ 50 := by
    have := h j
    omega
  have h0 := hb 0
  have h1 := hb 1
  have h2 := hb 2
  have h3 := hb 3
  have h4 := hb 4
  have h5 := hb 5
  have h6 := hb 6
  have h7 := hb 7
  simp only [butterfly8, vecOf]
  rw [add64_ofInt64 (a := a 0) (by omega) (by omega), add64_ofInt64 (a := a 1) (by omega) (by omega),
    add64_ofInt64 (a := a 2) (by omega) (by omega), add64_ofInt64 (a := a 3) (by omega) (by omega),
    add64_ofInt64 (a := a 0 + _) (by omega) (by omega), add64_ofInt64 (a := a 1 + _) (by omega) (by omega),
    add64_ofInt64 (by omega) (by omega)]
  congr 1
  simp only [Fin.sum_univ_eight]
  ring

/-- Summing row by row sums the block. -/
theorem sum_natIndex (f : Fin 64 → Int) : ∑ r, ∑ c, f (natIndex r c) = ∑ i, f i := by
  rw [← Fintype.sum_prod_type' fun r c => f (natIndex r c)]
  exact Fintype.sum_equiv (finProdFinEquiv (m := 8) (n := 8)) _ _ fun p => congrArg f (Fin.ext (Nat.add_comm ..))

theorem sum_toList (x : Block Byte) : (x.toList.map BitVec.toInt).sum = ∑ i : Fin 64, x[i].toInt := by
  have hx : x.toList = List.ofFn fun i : Fin 64 => x[i] :=
    List.ext_getElem (by rw [Vector.length_toList, List.length_ofFn]) fun i _ _ => by rw [List.getElem_ofFn]; rfl
  rw [hx, List.map_ofFn, List.sum_ofFn]
  rfl

theorem natAbs_toInt_le (b : Byte) : b.toInt.natAbs ≤ 128 := by
  have := b.toInt_lt
  have := b.le_toInt
  omega

theorem natAbs_sum_le {a : Fin 8 → Int} {m : Nat} (h : ∀ j, (a j).natAbs ≤ m) : (∑ j, a j).natAbs ≤ 8 * m :=
  calc (∑ j, a j).natAbs
      ≤ ∑ j, (a j).natAbs := Int.natAbs_sum_le ..
    _ ≤ 8 * m := by simpa using Finset.sum_le_card_nsmul Finset.univ _ m fun j _ => h j

/-- Settles O29: output 0 of the column butterfly sums the eight row sums. -/
theorem dcIsTheSampleSum : Obligations.DcIsTheSampleSum := by
  intro x
  have hrow (r : Fin 8) : (butterfly8 (vecOf fun c => ofInt64 x[natIndex r c].toInt)).d0 =
      ofInt64 (∑ c, x[natIndex r c].toInt) :=
    butterfly8_d0 fun c => (natAbs_toInt_le _).trans_lt (by decide)
  have hcol := butterfly8_d0 (a := fun r => ∑ c, x[natIndex r c].toInt) fun r =>
    (natAbs_sum_le fun c => natAbs_toInt_le _).trans_lt (by decide)
  calc (dct8x8 x)[0]
      = (butterfly8 (vecOf fun r => (butterfly8 (vecOf fun c => ofInt64 x[natIndex r c].toInt)).d0)).d0 :=
        dct8x8_getElem x 0
    _ = ofInt64 (∑ r, ∑ c, x[natIndex r c].toInt) := by simp only [hrow, hcol]
    _ = ofInt64 (x.toList.map BitVec.toInt).sum := by rw [sum_natIndex fun i => x[i].toInt, sum_toList]

/-! ### A constant block (rule R190) -/

/-- What the butterfly makes of equal inputs: output 0 alone is not +0. -/
def dcOnly (z : Int) : Vec8 := ⟨ofInt64 z, 0, 0, 0, 0, 0, 0, 0⟩

@[simp] theorem ofInt64_zero : ofInt64 0 = 0 := by rw [ofInt64_eq, zero_mul]; rfl

theorem vecGet_dcOnly (z : Int) (j : Fin 8) : vecGet (dcOnly z) j = ofInt64 (if j = 0 then z else 0) :=
  match j with
  | 0 => rfl
  | 1 | 2 | 3 | 4 | 5 | 6 | 7 => ofInt64_zero.symm

theorem add64_ofInt64_self {a : Int} (h : a.natAbs < 2 ^ 53) : add64 (ofInt64 a) (ofInt64 a) = ofInt64 (2 * a) := by
  rw [add64_ofInt64 h h, two_mul]

theorem sub64_ofInt64_self {a : Int} (h : a.natAbs < 2 ^ 53) : sub64 (ofInt64 a) (ofInt64 a) = 0 := by
  rw [sub64_ofInt64 h h, sub_self, ofInt64_zero]

/-- Every difference of equal inputs is +0, and so is everything the constants multiply. -/
theorem butterfly8_constant {z : Int} (h : z.natAbs < 2 ^ 50) :
    butterfly8 (vecOf fun _ => ofInt64 z) = dcOnly (8 * z) := by
  have hzero : add64 0 0 = 0 ∧ sub64 0 0 = 0 ∧ mul64 0 constC4 = 0 ∧ mul64 0 constC6 = 0 ∧ mul64 constC2mC6 0 = 0 ∧
    mul64 constC2pC6 0 = 0 := by decide +kernel
  have h8 : 2 * (2 * (2 * z)) = 8 * z := by ring
  simp only [butterfly8, vecOf, dcOnly]
  rw [add64_ofInt64_self (a := z) (by omega), sub64_ofInt64_self (a := z) (by omega),
    add64_ofInt64_self (a := 2 * z) (by omega), sub64_ofInt64_self (a := 2 * z) (by omega),
    add64_ofInt64_self (a := 2 * (2 * z)) (by omega), sub64_ofInt64_self (a := 2 * (2 * z)) (by omega), h8]
  simp only [hzero]

/-- Each row gives 8v in column 0, so column 0 gives 64v in row 0. -/
theorem dct8x8_constant (v : Byte) (i : Fin 64) :
    (dct8x8 (Vector.replicate 64 v))[i] = ofInt64 (if i = 0 then 64 * v.toInt else 0) := by
  have hv := natAbs_toInt_le v
  rw [dct8x8_getElem]
  simp only [Fin.getElem_fin, Vector.getElem_replicate]
  rw [butterfly8_constant (by omega)]
  simp only [vecGet_dcOnly]
  rw [butterfly8_constant (by split <;> omega), vecGet_dcOnly]
  have hi : i = 0 ↔ rowOf i = 0 ∧ colOf i = 0 := by
    simp only [rowOf, colOf, Fin.ext_iff]
    omega
  simp only [hi]
  by_cases hr : rowOf i = 0
  · by_cases hc : colOf i = 0
    · simp only [hr, hc, if_true, and_self, ← mul_assoc]
      rfl
    · simp only [hc, if_false, and_false, mul_zero, ite_self]
  · simp only [hr, if_false, false_and]

/-- A zero coefficient scaled is a zero of either sign, which rounds to 0 (rule R184). -/
theorem coefEntry_mul64_zero {y : Binary64} (h : isFinite y = true) : coefEntry (mul64 (ofInt64 0) y) = 0 := by
  have hmul : mul64 0 y = withSign (isNeg y) 0 := by
    have hround : roundMag 0 (2 ^ unitExp) = 0 := by decide +kernel
    have hmag : magUnits 0 = 0 := by decide
    have hneg : isNeg 0 = false := by decide
    rw [mul64, if_pos ⟨by decide, h⟩, hmag, Nat.zero_mul, hround, hneg, Bool.false_bne]
  have hzero : ∀ b, coefEntry (withSign b 0) = 0 := by decide +kernel
  rw [ofInt64_zero, hmul, hzero]

theorem fdctqResult_getElem (x : Block Byte) (fs : Block Binary64) (i : Fin 64) :
    (fdctqResult x fs)[i] = coefEntry (mul64 (dct8x8 x)[i] fs[i]) := tabulate_getElem _ i.val i.isLt

/-- Settles O30: the DC coefficient is 64v and every other one +0, whose product with a finite scale rounds to 0. -/
theorem constantBlockHasOnlyDc : Obligations.ConstantBlockHasOnlyDc := by
  intro v fs hfs
  have hcoef (i : Fin 64) : (fdctqResult (Vector.replicate 64 v) fs)[i] =
      coefEntry (mul64 (ofInt64 (if i = 0 then 64 * v.toInt else 0)) fs[i]) := by
    rw [fdctqResult_getElem, dct8x8_constant]
  refine ⟨hcoef 0, fun i hi => ?_, fun hv => ?_⟩
  · rw [hcoef, if_neg hi, coefEntry_mul64_zero (hfs i)]
  · subst hv
    exact (hcoef 0).trans (coefEntry_mul64_zero (hfs 0))

end Sys2Proof.Machine
end

section
/-! PROOFS. FDCTQ and ZIGZAG as commands: completion and frame (41_fdct_quant.md rule R190, 42_zigzag.md rule R210). -/

namespace Sys2Proof.Machine

theorem bodyOf_fdctqInstr (c : TableClass) : bodyOf (fdctqInstr c) = fdctqBody c := by cases c <;> rfl

/-- FDCTQ of either class, admitted and with SAMPLE written, commits its result (41_fdct_quant.md rule R190). -/
theorem exec_fdctq {s : State} {x : Block Byte} (c : TableClass) (hx : ∀ i : Fin 64, bufRead s.sample i.val = some x[i])
    (hi : s.phase ≠ .idle) (he : s.phase ≠ .error) :
    exec (fdctqInstr c) s = .next (complete { s with coef := bufFill (fdctqResult x (fsOf c s)) }) := by
  have ha : admitted (fdctqInstr c) s = true := by cases c <;> exact (admitted_fdctq0_iff s).2 ⟨hi, he⟩
  exact exec_commit ha (by rw [bodyOf_fdctqInstr]; exact fdctqBody_written hx)

/-- Settles O28: each class is a case of FDCTQ's commit. -/
theorem fdctqCompletes : Obligations.FdctqCompletes := by
  intro s x hx hi he
  exact ⟨exec_fdctq .luma hx hi he, exec_fdctq .chroma hx hi he⟩

/-- A rejection writes the record with STATE, INT_STATUS and BUSY, and nothing else (60_exceptions.md rule R410). -/
theorem reject_frame (e : CmdError) (s : State) :
    reject e s = { s with
      phase := (reject e s).phase, errCode := (reject e s).errCode, errCmd := (reject e s).errCmd
      errDetail := (reject e s).errDetail, intStatus := (reject e s).intStatus, busy := false } := by
  have h := reject_sameImageState e s
  rwa [sameImageState, reject_busy] at h

/-- A rejection sets ERR and DONE. -/
theorem reject_intStatus_bits (e : CmdError) (s : State) : (reject e s).intStatus = s.intStatus ||| 0b011 := by
  rw [reject_intStatus, BitVec.or_assoc]
  rfl

/-- Settles O47: a next state comes from a rejection, which keeps the buffers, or from the commit of one buffer. -/
theorem transformFrames : Obligations.TransformFrames := by
  refine ⟨fun i s t hi h => ?_, fun s t h => ?_⟩
  · obtain ⟨c, rfl⟩ : ∃ c, i = fdctqInstr c := by
      rcases hi with rfl | rfl
      · exact ⟨.luma, rfl⟩
      · exact ⟨.chroma, rfl⟩
    rcases exec_next h with ⟨e, rfl⟩ | ⟨_, u, hu, rfl⟩
    · refine ⟨?_, .inr ⟨reject_intStatus_bits e s, reject_coef e s⟩⟩
      rw [reject_coef]
      exact reject_frame e s
    · rw [bodyOf_fdctqInstr] at hu
      obtain ⟨x, _, rfl⟩ := fdctqBody_ok hu
      exact ⟨rfl, .inl ⟨rfl, rfl, rfl⟩⟩
  · rcases exec_next h with ⟨e, rfl⟩ | ⟨_, u, hu, rfl⟩
    · refine ⟨?_, .inr ⟨reject_intStatus_bits e s, reject_zz e s⟩⟩
      rw [reject_zz]
      exact reject_frame e s
    · obtain ⟨x, _, rfl⟩ := zigzagBody_ok hu
      exact ⟨rfl, .inl ⟨rfl, rfl, rfl⟩⟩

end Sys2Proof.Machine
end

section
/-! PROOFS. The zigzag permutation and ZIGZAG's result (42_zigzag.md rule R210, 48_rom_tables.md rule R381). -/

namespace Sys2Proof.Machine

theorem zigzag_unzigzag : ∀ k : Fin 64, zigzag (unzigzag k) = k := by decide

theorem zigzagBlock_getElem (coef : Block (BitVec 16)) (k : Fin 64) : (zigzagBlock coef)[k] = coef[unzigzag k] :=
  tabulate_getElem _ k.val k.isLt

/-- The reorder puts entry i at index ZIGZAG[i], where UNZIGZAG leads back to i. -/
theorem zigzagBlock_getElem_zigzag (coef : Block (BitVec 16)) (i : Fin 64) : (zigzagBlock coef)[zigzag i] = coef[i] :=
  (zigzagBlock_getElem coef (zigzag i)).trans (congrArg (fun k : Fin 64 => coef[k]) (unzigzag_zigzag i))

theorem admitted_zigzag_iff (s : State) : admitted .zigzag s = true ↔ s.phase ≠ .error := by simp [admitted]

/-- ZIGZAG, admitted and with COEF written, commits its reorder (42_zigzag.md rule R210). -/
theorem exec_zigzag {s : State} {x : Block (BitVec 16)} (hx : ∀ i : Fin 64, bufRead s.coef i.val = some x[i])
    (he : s.phase ≠ .error) : exec .zigzag s = .next (complete { s with zz := bufFill (zigzagBlock x) }) :=
  exec_commit ((admitted_zigzag_iff s).2 he) (zigzagBody_written hx)

/-- Settles O32: the committed ZZ is the reorder of COEF, and each table inverts the other. -/
theorem zigzagPermutesTheCoefficients : Obligations.ZigzagPermutesTheCoefficients := by
  refine ⟨fun s x hx he => ?_, fun k => ⟨zigzag_unzigzag k, unzigzag_zigzag k⟩⟩
  refine ⟨_, exec_zigzag hx he, fun i => ?_, rfl⟩
  calc bufRead (bufFill (zigzagBlock x)) (zigzag i).val
      = some (zigzagBlock x)[zigzag i] := bufRead_bufFill _ (zigzag i)
    _ = some x[i] := by rw [zigzagBlock_getElem_zigzag]

end Sys2Proof.Machine
end

section
/-! PROOFS. The entropy coder's categories, magnitudes and run-length codes (43_entropy.md rules R220 to R226). -/

namespace Sys2Proof.Machine

/-! ### cat (rule R220) -/

@[simp] theorem cat_zero : cat 0 = 0 := rfl

@[simp] theorem cat_neg (v : Int) : cat (-v) = cat v := by simp [cat]

/-- The exponents that serve are those from cat(v) on. -/
theorem cat_le_iff (v : Int) (s : Nat) : cat v ≤ s ↔ v.natAbs < 2 ^ s := by
  by_cases hv : v = 0
  · simp [hv]
  · rw [cat, if_neg hv, Nat.succ_le_iff, Nat.log2_lt (Int.natAbs_ne_zero.2 hv)]

theorem natAbs_lt_two_pow_cat (v : Int) : v.natAbs < 2 ^ cat v := (cat_le_iff v _).1 le_rfl

theorem cat_pos {v : Int} (hv : v ≠ 0) : 0 < cat v := by
  rw [cat, if_neg hv]
  exact Nat.succ_pos _

theorem two_pow_cat_sub_one_le {v : Int} (hv : v ≠ 0) : 2 ^ (cat v - 1) ≤ v.natAbs := by
  have hlt : ¬ cat v ≤ cat v - 1 := by have := cat_pos hv; omega
  rwa [cat_le_iff, not_lt] at hlt

/-- Settles O33: cat(v) is at most s exactly when |v| is below 2^s. -/
theorem categoryIsTheBitLength : Obligations.CategoryIsTheBitLength :=
  ⟨cat_zero, fun v _ => ⟨natAbs_lt_two_pow_cat v, fun s hs => (cat_le_iff v s).2 hs⟩⟩

/-! ### mag (rule R221) -/

theorem two_pow_cat_cast (v : Int) : ((2 ^ cat v : Nat) : Int) = 2 ^ cat v := Nat.cast_pow 2 _

theorem mag_of_pos {v : Int} (hv : 0 < v) : mag v = v.natAbs := by
  rw [mag, if_pos hv]
  omega

/-- The magnitude of a negative v is the complement of |v| in cat(v) bits. -/
theorem mag_of_neg {v : Int} (hv : v < 0) : mag v = 2 ^ cat v - (v.natAbs + 1) := by
  have hlt := natAbs_lt_two_pow_cat v
  rw [mag, if_neg (by omega), ← two_pow_cat_cast]
  omega

theorem mag_cast {v : Int} (hv : v ≠ 0) : (mag v : Int) = if 0 < v then v else v + 2 ^ cat v - 1 := by
  have hlt := natAbs_lt_two_pow_cat v
  split
  · rw [mag_of_pos ‹_›]
    omega
  · rw [mag_of_neg (by omega), ← two_pow_cat_cast]
    omega

theorem mag_lt {v : Int} (hv : v ≠ 0) : mag v < 2 ^ cat v := by
  have hlt := natAbs_lt_two_pow_cat v
  rcases lt_or_gt_of_ne hv with h | h
  · rw [mag_of_neg h]
    omega
  · rwa [mag_of_pos h]

/-- The magnitudes of v and -v add up to 2^cat(v) - 1. -/
theorem mag_neg {v : Int} (hv : v ≠ 0) : mag (-v) = 2 ^ cat v - (mag v + 1) := by
  have hlt := natAbs_lt_two_pow_cat v
  rcases lt_or_gt_of_ne hv with h | h
  · rw [mag_of_pos (by omega), mag_of_neg h, Int.natAbs_neg]
    omega
  · rw [mag_of_neg (by omega), mag_of_pos h, Int.natAbs_neg, cat_neg]

/-- The first of the cat(v) magnitude bits tells the sign. -/
theorem mag_testBit_top {v : Int} (hv : v ≠ 0) : (mag v).testBit (cat v - 1) = true ↔ 0 < v := by
  have hlo := two_pow_cat_sub_one_le hv
  have hlt := natAbs_lt_two_pow_cat v
  have hpow : 2 ^ cat v = 2 * 2 ^ (cat v - 1) := by
    rw [← Nat.pow_succ', Nat.succ_eq_add_one, Nat.sub_add_cancel (cat_pos hv)]
  rcases lt_or_gt_of_ne hv with h | h
  · rw [mag_of_neg h, Nat.testBit_lt_two_pow (by omega)]
    simp only [Bool.false_eq_true, false_iff]
    omega
  · rw [mag_of_pos h, Nat.testBit_of_two_pow_le_and_two_pow_add_one_gt hlo
      (by rw [Nat.sub_add_cancel (cat_pos hv)]; exact hlt)]
    simpa using h

/-- The low bits of the s-bit complement are the bits inverted. -/
theorem codeBits_complement {x s n : Nat} (hx : x < 2 ^ s) (hn : n ≤ s) :
    codeBits (2 ^ s - (x + 1)) n = (codeBits x n).map not := by
  induction n with
  | zero => rfl
  | succ n ih =>
    have hbit : (2 ^ s - (x + 1)).testBit n = !x.testBit n := by
      rw [Nat.testBit_two_pow_sub_succ hx, decide_eq_true (show n < s by omega), Bool.true_and]
    rw [codeBits, codeBits, hbit, ih (by omega), List.map_cons]

/-- Settles O34: mag(v) is |v| or its complement in cat(v) bits, and |v| has its top bit set. -/
theorem magnitudeBits : Obligations.MagnitudeBits := by
  intro v hv
  refine ⟨mag_cast hv, mag_lt hv, mag_testBit_top hv, ?_⟩
  rw [mag_neg hv]
  exact codeBits_complement (mag_lt hv) le_rfl

end Sys2Proof.Machine
end

section
/-! PROOFS. The codes of a block: the DC code, the run-length codes of the AC entries and EOB (43_entropy.md rules R222 and
R224 to R226). -/

namespace Sys2Proof.Machine

/-! ### Runs of zeros -/

/-- How many zeros end a list of entries. -/
def trailingZeros (p : List (BitVec 16)) : Nat := (p.reverse.takeWhile (· == 0)).length

theorem trailingZeros_nil : trailingZeros [] = 0 := rfl

theorem trailingZeros_append_zero (p : List (BitVec 16)) : trailingZeros (p ++ [0]) = trailingZeros p + 1 := by
  simp [trailingZeros]

theorem trailingZeros_append_nonzero (p : List (BitVec 16)) {v : BitVec 16} (hv : v ≠ 0) :
    trailingZeros (p ++ [v]) = 0 := by
  have hv : v ≠ 0#16 := hv
  simp [trailingZeros, hv]

/-- The run before position i + 1 is the zeros that end the first i AC entries. -/
theorem zerosBefore_succ (zz : Block (BitVec 16)) (i : Fin 63) :
    zerosBefore zz i.succ.val = trailingZeros ((zz.toList.drop 1).take i.val) := by
  rw [zerosBefore, trailingZeros, List.drop_take, Fin.val_succ, Nat.add_sub_cancel]

/-! ### The codes the run-length rule gives (rule R225) -/

/-- The codes of an AC entry v of component k with a run of r zeros before it. -/
def entryCodes (k : Comp) (r : Nat) (v : BitVec 16) : List Code :=
  if v = 0 then []
  else List.replicate (r / 16) (codeOf (htAc (classOf k)) 0xF0) ++
    [codeOf (htAc (classOf k)) (16 * (r % 16) + cat v.toInt), ⟨mag v.toInt, cat v.toInt⟩]

/-- The codes of the AC entries `vs` that follow the entries `p`, position by position. -/
def runLengthCodes (k : Comp) (p vs : List (BitVec 16)) : List Code :=
  (List.range vs.length).flatMap fun i => entryCodes k (trailingZeros (p ++ vs.take i)) (vs.getD i 0)

theorem entryCodes_zero (k : Comp) (r : Nat) : entryCodes k r 0 = [] := if_pos rfl

theorem runLengthCodes_nil (k : Comp) (p : List (BitVec 16)) : runLengthCodes k p [] = [] := rfl

theorem runLengthCodes_cons (k : Comp) (p : List (BitVec 16)) (v : BitVec 16) (vs : List (BitVec 16)) :
    runLengthCodes k p (v :: vs) = entryCodes k (trailingZeros p) v ++ runLengthCodes k (p ++ [v]) vs := by
  simp [runLengthCodes, List.range_succ_eq_map, List.flatMap_map]

/-! ### The walk gives those codes -/

/-- The walk succeeds at a nonzero entry exactly when its category has a code and the rest of the walk succeeds. -/
theorem acWalk_nonzero_eq_ok_iff (k : Comp) (j run : Nat) {v : BitVec 16} (vs : List (BitVec 16)) (hv : v ≠ 0)
    (cs : List Code) : acWalk k j run (v :: vs) = .ok cs ↔
      cat v.toInt ≤ 10 ∧ ∃ rest, acWalk k (j + 1) 0 vs = .ok rest ∧ cs = entryCodes k run v ++ rest := by
  rw [entryCodes, if_neg hv]
  rcases acWalk_nonzero k j run vs hv with ⟨hcat, hw⟩ | ⟨hcat, e, he, hw⟩ | ⟨hcat, rest, hr, hw⟩
  · simp [hw, hcat]
  · simp [hw, he]
  · simp [hw, hr, hcat, eq_comm]

/-- The walk succeeds exactly when every entry's category has a code, and then gives the run-length codes. -/
theorem acWalk_eq_ok_iff (k : Comp) (j : Nat) (p vs : List (BitVec 16)) (cs : List Code) :
    acWalk k j (trailingZeros p) vs = .ok cs ↔ (∀ v ∈ vs, cat v.toInt ≤ 10) ∧ cs = runLengthCodes k p vs := by
  induction vs generalizing j p cs with
  | nil => simp [acWalk, runLengthCodes_nil, eq_comm]
  | cons v vs ih =>
    rw [runLengthCodes_cons, List.forall_mem_cons]
    by_cases hv : v = 0
    · subst hv
      rw [acWalk_zero, ← trailingZeros_append_zero, ih, entryCodes_zero]
      simp
    · have hrest := ih (j + 1) (p ++ [v])
      rw [trailingZeros_append_nonzero p hv] at hrest
      rw [acWalk_nonzero_eq_ok_iff k j _ vs hv]
      simp only [hrest, and_assoc, exists_and_left, exists_eq_left]

/-- The zeros from the end of block position on emit nothing. -/
theorem acWalk_take_endPos (k : Comp) (j run : Nat) (vs : List (BitVec 16)) :
    acWalk k j run (vs.take (endPos vs)) = acWalk k j run vs := by
  induction vs generalizing j run with
  | nil => rfl
  | cons v vs ih =>
    by_cases he : endPos vs = 0
    · -- nothing but zeros follows v
      rw [he, List.take_zero] at ih
      by_cases hv : v = 0#16 <;> simp [endPos, he, hv, acWalk, ← ih]
    · simp [endPos, he, acWalk, ih]

/-! ### DC, AC and the block (rules R222, R224, R226) -/

/-- The codes of a DC difference d of component k (rule R222). -/
def dcDifferenceCodes (k : Comp) (d : Int) : List Code :=
  if d = 0 then [codeOf (htDc (classOf k)) 0] else [codeOf (htDc (classOf k)) (cat d), ⟨mag d, cat d⟩]

theorem dcCodes_eq_ok_iff (k : Comp) (zz0 pred : BitVec 16) (cs : List Code) : dcCodes k zz0 pred = .ok cs ↔
    cat (zz0.toInt - pred.toInt) ≤ 11 ∧ cs = dcDifferenceCodes k (zz0.toInt - pred.toInt) := by
  unfold dcCodes dcDifferenceCodes
  generalize zz0.toInt - pred.toInt = d
  by_cases hd : d = 0
  · simp [hd, eq_comm]
  · by_cases hc : 11 < cat d
    · simp [hd, hc]
    · simp [hd, hc, Nat.not_lt.1 hc, eq_comm]

/-- EOB, unless the last of the 63 AC entries is nonzero (rules R224, R226). -/
def eobCodes (k : Comp) (last : BitVec 16) : List Code := if last = 0 then [codeOf (htAc (classOf k)) 0x00] else []

/-- AC coding is the walk over all the AC entries, then EOB. -/
theorem acCodes_eq_ok_iff (k : Comp) {ac : List (BitVec 16)} (hl : ac.length = 63) (cs : List Code) :
    acCodes k ac = .ok cs ↔
      (∀ v ∈ ac, cat v.toInt ≤ 10) ∧ cs = runLengthCodes k [] ac ++ eobCodes k (ac.getD 62 0) := by
  have hlast : endPos ac = 63 ↔ ac.getD 62 0 ≠ 0#16 := endPos_eq_last ac 62 hl
  have hcodes : acCodes k ac = .ok cs ↔
      ∃ ws, acWalk k 1 (trailingZeros []) ac = .ok ws ∧ cs = ws ++ eobCodes k (ac.getD 62 0) := by
    unfold acCodes eobCodes
    simp only [acWalk_take_endPos, trailingZeros_nil]
    cases acWalk k 1 0 ac with
    | error e => simp
    | ok ws =>
      generalize ac.getD 62 0 = last at hlast
      by_cases hz : last = 0#16 <;> simp [hlast, hz, eq_comm]
  simp only [hcodes, acWalk_eq_ok_iff, and_assoc, exists_and_left, exists_eq_left]

/-- A block is coded exactly when its DC and its AC entries are, and its codes are theirs in that order (rule R230). -/
theorem blockCodes_eq_ok_iff (k : Comp) (zz : Block (BitVec 16)) (pred : BitVec 16) (cs : List Code) :
    blockCodes k zz pred = .ok cs ↔
      ∃ dc, dcCodes k zz[0] pred = .ok dc ∧ ∃ ac, acCodes k (zz.toList.drop 1) = .ok ac ∧ cs = dc ++ ac := by
  unfold blockCodes
  cases dcCodes k zz[0] pred with
  | error e => simp
  | ok dc =>
    cases acCodes k (zz.toList.drop 1) with
    | error e => simp
    | ok ac => simp [eq_comm]

/-! ### The AC entries by their positions in the block -/

theorem length_drop_one (zz : Block (BitVec 16)) : (zz.toList.drop 1).length = 63 := by simp

theorem getElem_drop_one (zz : Block (BitVec 16)) (i : Fin 63) :
    (zz.toList.drop 1).getD i.val 0 = zz[i.succ] := by
  simp

theorem forall_mem_drop_one (zz : Block (BitVec 16)) (P : BitVec 16 → Prop) :
    (∀ v ∈ zz.toList.drop 1, P v) ↔ ∀ j : Fin 64, j ≠ 0 → P zz[j] := by
  simp only [List.forall_mem_iff_getElem, length_drop_one, Fin.forall_fin_succ (n := 63), ne_eq]
  simp [Fin.forall_iff]

/-- The run-length codes, position by position of the block. -/
theorem runLengthCodes_block (k : Comp) (zz : Block (BitVec 16)) :
    runLengthCodes k [] (zz.toList.drop 1) =
      (List.finRange 64).flatMap fun j : Fin 64 => if j = 0 then [] else entryCodes k (zerosBefore zz j.val) zz[j] := by
  rw [runLengthCodes, length_drop_one, ← List.map_coe_finRange_eq_range, List.flatMap_map,
    List.finRange_succ (n := 63), List.flatMap_cons, List.flatMap_map, if_pos rfl, List.nil_append]
  refine congrArg (List.flatMap · _) (funext fun i => ?_)
  rw [if_neg (Fin.succ_ne_zero i), zerosBefore_succ, getElem_drop_one, List.nil_append]

/-- A block is coded exactly when every category has a code, and its codes are the DC codes, the run-length codes and
EOB. -/
theorem blockCodes_eq_ok_iff_categories (k : Comp) (zz : Block (BitVec 16)) (pred : BitVec 16) (cs : List Code) :
    blockCodes k zz pred = .ok cs ↔
      (cat (zz[0].toInt - pred.toInt) ≤ 11 ∧ ∀ j : Fin 64, j ≠ 0 → cat zz[j].toInt ≤ 10) ∧
      cs = dcDifferenceCodes k (zz[0].toInt - pred.toInt) ++ runLengthCodes k [] (zz.toList.drop 1) ++
        eobCodes k zz[63] := by
  have hlast : (zz.toList.drop 1).getD 62 0 = zz[63] := getElem_drop_one zz 62
  have hac := forall_mem_drop_one zz fun v => cat v.toInt ≤ 10
  simp only [blockCodes_eq_ok_iff, dcCodes_eq_ok_iff, acCodes_eq_ok_iff k (length_drop_one zz), hlast, hac, and_assoc,
    exists_and_left, exists_eq_left, List.append_assoc]

/-- Settles O37: the DC codes, the walk's codes position by position, and EOB. -/
theorem blockCodesFollowTheRunLengthRules : Obligations.BlockCodesFollowTheRunLengthRules := by
  intro k zz pred dc ac d
  refine ⟨by simp [blockCodes_eq_ok_iff_categories, d], fun cs h => ?_⟩
  obtain ⟨_, rfl⟩ := (blockCodes_eq_ok_iff_categories k zz pred cs).1 h
  rw [runLengthCodes_block]
  simp only [entryCodes, ← ite_or]
  rfl

end Sys2Proof.Machine
end

section
/-! PROOFS. The commands that code a block: HUFF's completion, and the frame of HUFF and ENCBLK (43_entropy.md rules R223,
R230; 46_sequencing.md rules R326, R331). -/

namespace Sys2Proof.Machine

theorem bodyOf_huffInstr (k : Comp) : bodyOf (huffInstr k) = huffBody k := by cases k <;> rfl

theorem bodyOf_encblkInstr (k : Comp) : bodyOf (encblkInstr k) = encblkBody k := by cases k <;> rfl

theorem admitted_huffInstr (k : Comp) : admitted (huffInstr k) = blockAdmitted k := by cases k <;> rfl

theorem blockAdmitted_iff (k : Comp) (s : State) : blockAdmitted k s = true ↔
    (s.phase = .headerWritten ∨ s.phase = .scanning) ∧ k = s.nextComp ∧ s.mcuDone.toNat < s.mcuTotal.toNat := by
  simp [blockAdmitted, and_assoc]

/-! ### HUFF completes -/

/-- HUFF k of any component, admitted, with ZZ written, codes for the block and room for what the bit writer then holds,
completes (rule R230). -/
theorem exec_huff {k : Comp} {s : State} {zz : Block (BitVec 16)} {cs : List Code} {w : BitWriter}
    (hw : emitAll (writerOf s) cs = w) (hz : ∀ i : Fin 64, bufRead s.zz i.val = some zz[i])
    (ha : blockAdmitted k s = true) (hc : blockCodes k zz (predOf k s) = .ok cs)
    (hr : outLevel s + w.pending.length ≤ Config.outDepth) :
    exec (huffInstr k) s = .next (complete (advance k (setPred k zz[0] (commitWriter w s)))) := by
  subst hw
  refine exec_commit (by rwa [admitted_huffInstr]) ?_
  rw [bodyOf_huffInstr, huffBody_written hz, codeBlock_ok hc hr]

/-- Settles O36: each component is a case of HUFF's commit. -/
theorem huffCompletes : Obligations.HuffCompletes := by
  intro s zz cs hz hp hm
  generalize hw : emitAll _ cs = w
  intro _ hr
  have ha (k : Comp) (hk : s.nextComp = k) : blockAdmitted k s = true :=
    (blockAdmitted_iff k s).2 ⟨hp, hk.symm, hm⟩
  refine ⟨fun hk hc => ?_, fun hk hc => ?_, fun hk hc => ?_⟩
  all_goals
    have h := exec_huff hw hz (ha _ hk) hc hr
    dsimp only [complete, advance, setPred, commitWriter, pushBytes] at h
    exact h

/-! ### The frame of HUFF and ENCBLK -/

/-- What the coding of a block of component k with DC entry `dc` and codes `cs` commits, COEF and ZZ becoming the buffers
given: HUFF leaves them (rule R230), ENCBLK stores its own (46_sequencing.md rule R331). -/
def codedState (k : Comp) (dc : BitVec 16) (cs : List Code) (coef zz : Buffer 16) (s : State) : State :=
  { advance k (setPred k dc (commitWriter (emitAll (writerOf s) cs) s)) with coef := coef, zz := zz }

theorem codedState_keeping_buffers (k : Comp) (dc : BitVec 16) (cs : List Code) (s : State) :
    codedState k dc cs s.coef s.zz s = advance k (setPred k dc (commitWriter (emitAll (writerOf s) cs) s)) := by
  cases k <;> rfl

theorem huffBody_eq_codedState {k : Comp} {s u : State} (h : huffBody k s = .ok u) :
    ∃ dc cs, u = codedState k dc cs s.coef s.zz s := by
  obtain ⟨zz, _, hu⟩ := huffBody_ok h
  obtain ⟨cs, _, _, rfl⟩ := codeBlock_eq_ok hu
  exact ⟨zz[0], cs, (codedState_keeping_buffers ..).symm⟩

theorem encblkBody_eq_codedState {k : Comp} {s u : State} (h : encblkBody k s = .ok u) :
    ∃ dc cs coef zz, u = codedState k dc cs coef zz s := by
  obtain ⟨x, v, _, hv, rfl⟩ := encblkBody_ok h
  obtain ⟨cs, _, _, rfl⟩ := codeBlock_eq_ok hv
  exact ⟨_, cs, _, _, rfl⟩

theorem exec_huffInstr_next {k : Comp} {s t : State} (h : exec (huffInstr k) s = .next t) :
    (∃ e, t = reject e s) ∨ ∃ dc cs, t = complete (codedState k dc cs s.coef s.zz s) := by
  rcases exec_next h with hrej | ⟨_, u, hu, rfl⟩
  · exact .inl hrej
  · rw [bodyOf_huffInstr] at hu
    obtain ⟨dc, cs, rfl⟩ := huffBody_eq_codedState hu
    exact .inr ⟨dc, cs, rfl⟩

theorem exec_encblkInstr_next {k : Comp} {s t : State} (h : exec (encblkInstr k) s = .next t) :
    (∃ e, t = reject e s) ∨ ∃ dc cs coef zz, t = complete (codedState k dc cs coef zz s) := by
  rcases exec_next h with hrej | ⟨_, u, hu, rfl⟩
  · exact .inl hrej
  · rw [bodyOf_encblkInstr] at hu
    obtain ⟨dc, cs, coef, zz, rfl⟩ := encblkBody_eq_codedState hu
    exact .inr ⟨dc, cs, coef, zz, rfl⟩

/-- Everything the coding of a block can do: a rejection, or the commit of its codes. -/
theorem exec_coding_next {k : Comp} {s t : State}
    (h : exec (huffInstr k) s = .next t ∨ exec (encblkInstr k) s = .next t) :
    (∃ e, t = reject e s) ∨ ∃ dc cs coef zz, t = complete (codedState k dc cs coef zz s) := by
  rcases h with h | h
  · rcases exec_huffInstr_next h with hrej | ⟨dc, cs, ht⟩
    · exact .inl hrej
    · exact .inr ⟨dc, cs, _, _, ht⟩
  · exact exec_encblkInstr_next h

theorem predOf_codedState_other {j k : Comp} (hj : j ≠ k) (dc : BitVec 16) (cs : List Code) (coef zz : Buffer 16)
    (s : State) : predOf j (complete (codedState k dc cs coef zz s)) = predOf j s := by
  cases k <;> cases j <;> simp [predOf, codedState] at hj ⊢

theorem predOf_reject (j : Comp) (e : CmdError) (s : State) : predOf j (reject e s) = predOf j s := by
  cases j <;> simp [predOf]

theorem codedState_fifo (k : Comp) (dc : BitVec 16) (cs : List Code) (coef zz : Buffer 16) (s : State) :
    (codedState k dc cs coef zz s).fifo = s.fifo ++ (emitAll (writerOf s) cs).pending := by
  simp [codedState]

/-- Settles O48: a next state comes from a rejection, which keeps the image state, or from the commit of the codes. -/
theorem codingFrames : Obligations.CodingFrames := by
  intro k s t
  refine ⟨fun h => ?_, fun h => ?_⟩
  · rcases exec_huffInstr_next h with ⟨e, rfl⟩ | ⟨dc, cs, rfl⟩
    · exact ⟨reject_coef e s, reject_zz e s⟩
    · exact ⟨rfl, rfl⟩
  · rcases exec_coding_next h with ⟨e, rfl⟩ | ⟨dc, cs, coef, zz, rfl⟩
    · refine ⟨?_, fun j _ => predOf_reject j e s, ⟨[], by simp⟩,
        .inr ⟨reject_intStatus_bits e s, reject_sameImageState e s⟩⟩
      simpa using reject_frame e s
    · refine ⟨?_, fun j hj => predOf_codedState_other hj dc cs coef zz s, ⟨_, codedState_fifo k dc cs coef zz s⟩, .inl ?_⟩
      · cases k <;> rfl
      · cases k <;> exact ⟨rfl, rfl, rfl, rfl⟩

end Sys2Proof.Machine
end

section
/-! PROOFS. The bit writer: the bits it holds, the stuffing of what it pushes, and the counts (44_bitstream.md). Each code
sequence is one run of `emitBit` over its bits (`emitAll_eq_foldl`), so the laws of such a run settle it. -/

namespace Sys2Proof.Machine

theorem writerBits_emitAll (cs : List Code) (w : BitWriter) (h : writerOk w) :
    writerBits (emitAll w cs) = writerBits w ++ codesBits cs := by
  rw [emitAll_eq_foldl, writerBits_foldl _ w h]

theorem stuffed_emitAll (cs : List Code) (w : BitWriter) (h : stuffed w.pending = true) :
    stuffed (emitAll w cs).pending = true := by
  rw [emitAll_eq_foldl]
  exact stuffed_foldl _ w h

/-- The padding is itself an emitted code, so a padding that completes 0xFF is stuffed too (rules R264, R266). -/
theorem stuffed_padToByte (w : BitWriter) (h : stuffed w.pending = true) :
    stuffed (padToByte w).pending = true := by
  unfold padToByte
  split
  · exact h
  · exact stuffed_foldl _ w h

theorem count_emitAll (cs : List Code) (w : BitWriter) (h : stuffed w.pending = true) :
    8 * (unstuff (emitAll w cs).pending).length + (emitAll w cs).count.toNat =
      8 * (unstuff w.pending).length + w.count.toNat + (codesBits cs).length := by
  rw [emitAll_eq_foldl, count_foldl _ w h]

/-- Settles O39: a fresh writer with clear free bits is a good writer, and every code appends its bits to a good writer's. -/
theorem bitWriterAppendsTheEmittedBits : Obligations.BitWriterAppendsTheEmittedBits := by
  intro acc count cs hclear
  exact writerBits_emitAll cs ⟨acc, count, []⟩ ⟨hclear, rfl⟩

/-- Settles O40: with nothing pending the bytes are stuffed, and neither a code nor the padding breaks that. -/
theorem everyFFIsStuffed : Obligations.EveryFFIsStuffed := by
  intro acc count cs
  have hcodes := stuffed_emitAll cs ⟨acc, count, []⟩ rfl
  exact ⟨hcodes, stuffed_padToByte _ hcodes⟩

/-- Settles O41: with L bytes completed, 8 L + COUNT is c + n and COUNT is below 8, which fixes both; the stuffing adds a byte
for each completed 0xFF. -/
theorem bitCountOfACommand : Obligations.BitCountOfACommand := by
  intro acc count cs w n
  have hbits : 8 * (unstuff w.pending).length + w.count.toNat = count.toNat + n := by
    simpa [unstuff] using count_emitAll cs ⟨acc, count, []⟩ rfl
  have hcount : w.count.toNat < 8 := w.count.isLt
  have hbytes : (unstuff w.pending).length = (count.toNat + n) / 8 := by omega
  have hpushed := length_unstuff w.pending (stuffed_emitAll cs ⟨acc, count, []⟩ rfl)
  exact ⟨by omega, hbytes, hbytes ▸ hpushed⟩

end Sys2Proof.Machine
end

section
/-! PROOFS. HEADER and FINISH as commands: completion, rejection and frame (45_container.md rules R290, R295). -/

namespace Sys2Proof.Machine

theorem admitted_header_iff (s : State) : admitted .header s = true ↔ s.phase = .initialized := by simp [admitted]

theorem admitted_finish_iff (s : State) : admitted .finish s = true ↔
    s.phase = .scanning ∧ s.mcuDone = s.mcuTotal ∧ s.nextComp = .y := by
  simp [admitted, and_assoc]

/-! ### HEADER -/

theorem mcuCount_eq (w h : BitVec 16) : mcuCount w h = ((w.toNat + 7) / 8) * ((h.toNat + 7) / 8) := by
  simp only [mcuCount, Nat.shiftRight_eq_div_pow, Nat.reducePow]

/-- What HEADER commits (rule R290). -/
def headerState (s : State) : State :=
  { pushBytes (headerBytes s.qt0 s.qt1 s.width s.height) s with
    mcuTotal := BitVec.ofNat 32 (mcuCount s.width s.height), phase := .headerWritten }

theorem headerBody_commits {s : State} (hw : s.width ≠ 0) (hh : s.height ≠ 0)
    (hr : outLevel s + 607 ≤ Config.outDepth) : headerBody s = .ok (headerState s) := by
  have hf : fits (headerBytes s.qt0 s.qt1 s.width s.height).length s = true := by
    rwa [fits_iff, headerBytes_length]
  rw [headerBody, if_neg (not_or.2 ⟨hw, hh⟩)]
  exact if_pos hf

theorem exec_header {s : State} (hp : s.phase = .initialized) (hw : s.width ≠ 0) (hh : s.height ≠ 0)
    (hr : outLevel s + 607 ≤ Config.outDepth) : exec .header s = .next (complete (headerState s)) :=
  exec_commit ((admitted_header_iff s).2 hp) (headerBody_commits hw hh hr)

/-- Settles O24: HEADER commits its bytes, of which there are 607. -/
theorem headerCompletes : Obligations.HeaderCompletes := by
  intro s hp hw hh hr
  rw [exec_header hp hw hh hr]
  simp [headerState, complete, pushBytes, headerBytes_length, mcuCount_eq, intDone]

/-- Settles O26: the size is tested before the room in the FIFO. -/
theorem headerRejectsZeroSizes : Obligations.HeaderRejectsZeroSizes := by
  intro s hp hzero
  exact exec_reject ((admitted_header_iff s).2 hp) (if_pos hzero)

/-! ### FINISH -/

/-- The bytes of PadToByte at FINISH: a partial byte filled with 1-bits, stuffed (44_bitstream.md rule R264). -/
def finishPadding (s : State) : List Byte :=
  if s.count = 0 then [] else completed (s.acc ||| BitVec.ofNat 8 (2 ^ (8 - s.count.toNat) - 1))

theorem finishWriter_eq {s : State} (h : bitAccInv s) : finishWriter s = ⟨0, 0, finishPadding s ++ eoiBytes⟩ := by
  rw [finishWriter, writerOf, padToByte_fresh _ _ h]
  rfl

/-- FINISH, admitted and with room for what its writer holds, commits it (rule R295). -/
theorem exec_finish {s : State} (hp : s.phase = .scanning) (hm : s.mcuDone = s.mcuTotal) (hc : s.nextComp = .y)
    (hr : outLevel s + (finishWriter s).pending.length ≤ Config.outDepth) :
    exec .finish s = .next (complete { commitWriter (finishWriter s) s with phase := .finalized }) :=
  exec_commit ((admitted_finish_iff s).2 ⟨hp, hm, hc⟩) (if_pos ((fits_iff _ _).2 hr))

/-- Settles O52: the writer FINISH commits holds the padding and EOI, and an empty bit accumulator. -/
theorem finishCompletes : Obligations.FinishCompletes := by
  intro s pad hacc hp hm hc hpad hr
  replace hpad : finishPadding s = pad := hpad.symm
  have hw : finishWriter s = ⟨0, 0, pad ++ eoiBytes⟩ := hpad ▸ finishWriter_eq hacc
  have hlen : (pad ++ eoiBytes).length = pad.length + 2 := by rw [List.length_append, eoiBytes_length]
  have hroom : outLevel s + (finishWriter s).pending.length ≤ Config.outDepth := by rwa [hw, hlen]
  rw [exec_finish hp hm hc hroom, hw]
  simp only [complete, commitWriter, pushBytes, hlen, List.append_assoc]
  rfl

/-! ### The frame of HEADER and FINISH -/

/-- Settles O49: a next state comes from a rejection, which keeps the image state, or from the commit of the bytes. -/
theorem containerFrames : Obligations.ContainerFrames := by
  refine ⟨fun s t h => ?_, fun s t h => ?_⟩
  · rcases exec_next h with ⟨e, rfl⟩ | ⟨_, u, hu, rfl⟩
    · exact ⟨by simpa using reject_frame e s, .inr ⟨reject_intStatus_bits e s, reject_sameImageState e s⟩⟩
    · obtain ⟨_, _, _, rfl⟩ := headerBody_ok hu
      exact ⟨rfl, .inl ⟨rfl, rfl⟩⟩
  · rcases exec_next h with ⟨e, rfl⟩ | ⟨_, u, hu, rfl⟩
    · exact ⟨by simpa using reject_frame e s, .inr ⟨reject_intStatus_bits e s, reject_sameImageState e s⟩⟩
    · obtain ⟨_, rfl⟩ := finishBody_ok hu
      exact ⟨rfl, .inl ⟨rfl, rfl⟩⟩

end Sys2Proof.Machine
end

section
/-! PROOFS. The layout of the header (45_container.md rules R280 to R287). Each claim about a segment splits the header into
what stands before it, the segment and what stands after it. -/

namespace Sys2Proof.Machine

/-! ### A part of a list -/

theorem take_drop_middle {α : Type} {l p m q : List α} {n k : Nat} (hl : l = p ++ m ++ q) (hn : p.length = n)
    (hk : m.length = k) : (l.drop n).take k = m := by
  rw [hl, List.append_assoc, List.drop_left' hn, List.take_left' hk]

/-- Replacing a part by one as long changes no entry outside it. -/
theorem getElem?_replace_middle {α : Type} {p m m' q : List α} {i : Nat} (hm : m'.length = m.length)
    (hi : ¬(p.length ≤ i ∧ i < p.length + m.length)) : (p ++ m' ++ q)[i]? = (p ++ m ++ q)[i]? := by
  by_cases hp : i < p.length
  · rw [List.append_assoc, List.append_assoc, List.getElem?_append_left hp, List.getElem?_append_left hp]
  · have hq : (p ++ m).length ≤ i := by rw [List.length_append]; omega
    have hq' : (p ++ m').length ≤ i := by rwa [List.length_append, hm, ← List.length_append]
    rw [List.getElem?_append_right hq, List.getElem?_append_right hq', List.length_append, List.length_append, hm]

/-! ### The segments -/

section
variable (qt0 qt1 : Block Byte) (w h : BitVec 16)

theorem headerBytes_soi : (headerBytes qt0 qt1 w h).take 2 = soiBytes := by
  simp only [headerBytes, List.append_assoc]
  exact List.take_left' soiBytes_length

theorem headerBytes_app0 : ((headerBytes qt0 qt1 w h).drop 2).take 18 = app0Bytes :=
  take_drop_middle (p := soiBytes) (q := dqtBytes qt0 qt1 ++ sof0Bytes w h ++ dhtBytes ++ sosBytes)
    (by simp only [headerBytes, List.append_assoc]) soiBytes_length app0Bytes_length

theorem headerBytes_dqt : ((headerBytes qt0 qt1 w h).drop 20).take 134 = dqtBytes qt0 qt1 :=
  take_drop_middle (p := soiBytes ++ app0Bytes) (q := sof0Bytes w h ++ dhtBytes ++ sosBytes)
    (by simp only [headerBytes, List.append_assoc]) rfl (dqtBytes_length qt0 qt1)

theorem headerBytes_sof0 : ((headerBytes qt0 qt1 w h).drop 154).take 19 = sof0Bytes w h :=
  take_drop_middle (p := soiBytes ++ app0Bytes ++ dqtBytes qt0 qt1) (q := dhtBytes ++ sosBytes)
    (by simp only [headerBytes, List.append_assoc])
    (by simp only [List.length_append, soiBytes_length, app0Bytes_length, dqtBytes_length]) (sof0Bytes_length w h)

theorem headerBytes_dht : ((headerBytes qt0 qt1 w h).drop 173).take 420 = dhtBytes :=
  take_drop_middle (p := soiBytes ++ app0Bytes ++ dqtBytes qt0 qt1 ++ sof0Bytes w h) (q := sosBytes) rfl
    (by simp only [List.length_append, soiBytes_length, app0Bytes_length, dqtBytes_length, sof0Bytes_length])
    dhtBytes_length

theorem headerBytes_sos : (headerBytes qt0 qt1 w h).drop 593 = sosBytes :=
  List.drop_left' (by
    simp only [List.length_append, soiBytes_length, app0Bytes_length, dqtBytes_length, sof0Bytes_length,
      dhtBytes_length])

end

/-! ### The parts that vary -/

/-- The bytes before the entries of QT 0: SOI, APP0 and the start of DQT. -/
def beforeQt0 : List Byte := soiBytes ++ app0Bytes ++ bytesOf [0xFF, 0xDB, 0x00, 0x84, 0x00]

theorem beforeQt0_length : beforeQt0.length = 25 := rfl

/-- The bytes before the size: all of DQT, and SOF0's start. -/
def beforeSize (qt0 qt1 : Block Byte) : List Byte :=
  beforeQt0 ++ qt0.toList ++ bytesOf [0x01] ++ qt1.toList ++ bytesOf [0xFF, 0xC0, 0x00, 0x11, 0x08]

theorem beforeSize_length (qt0 qt1 : Block Byte) : (beforeSize qt0 qt1).length = 159 := by
  simp [beforeSize, beforeQt0_length, bytesOf]

/-- The bytes after the size: SOF0's components, DHT and SOS. -/
def afterSize : List Byte :=
  bytesOf [0x03] ++ bytesOf ([0x01, 0x11, 0x00] ++ [0x02, 0x11, 0x01] ++ [0x03, 0x11, 0x01]) ++ dhtBytes ++ sosBytes

/-- The header as its fixed bytes around the entries of QT 0 and QT 1, the height and the width (rule R287). -/
theorem headerBytes_eq_parts (qt0 qt1 : Block Byte) (w h : BitVec 16) :
    headerBytes qt0 qt1 w h = beforeSize qt0 qt1 ++ (bigEndian16 h ++ bigEndian16 w) ++ afterSize := by
  simp only [headerBytes, dqtBytes, sof0Bytes, beforeSize, beforeQt0, afterSize, List.append_assoc]

theorem headerBytes_outside_qt0 (qt0 qt0' qt1 : Block Byte) (w h : BitVec 16) {i : Nat} (hi : ¬(25 ≤ i ∧ i ≤ 88)) :
    (headerBytes qt0' qt1 w h)[i]? = (headerBytes qt0 qt1 w h)[i]? := by
  have hsplit (qt : Block Byte) : headerBytes qt qt1 w h = beforeQt0 ++ qt.toList ++ (bytesOf [0x01] ++ qt1.toList ++
      bytesOf [0xFF, 0xC0, 0x00, 0x11, 0x08] ++ (bigEndian16 h ++ bigEndian16 w) ++ afterSize) := by
    simp only [headerBytes_eq_parts, beforeSize, List.append_assoc]
  rw [hsplit, hsplit]
  refine getElem?_replace_middle (by simp only [Vector.length_toList]) ?_
  rw [beforeQt0_length, Vector.length_toList]
  omega

theorem headerBytes_outside_qt1 (qt0 qt1 qt1' : Block Byte) (w h : BitVec 16) {i : Nat} (hi : ¬(90 ≤ i ∧ i ≤ 153)) :
    (headerBytes qt0 qt1' w h)[i]? = (headerBytes qt0 qt1 w h)[i]? := by
  have hsplit (qt : Block Byte) : headerBytes qt0 qt w h = (beforeQt0 ++ qt0.toList ++ bytesOf [0x01]) ++ qt.toList ++
      (bytesOf [0xFF, 0xC0, 0x00, 0x11, 0x08] ++ (bigEndian16 h ++ bigEndian16 w) ++ afterSize) := by
    simp only [headerBytes_eq_parts, beforeSize, List.append_assoc]
  have hbefore : (beforeQt0 ++ qt0.toList ++ bytesOf [0x01]).length = 90 := by
    simp [beforeQt0_length, bytesOf]
  rw [hsplit, hsplit]
  refine getElem?_replace_middle (by simp only [Vector.length_toList]) ?_
  rw [hbefore, Vector.length_toList]
  omega

theorem headerBytes_outside_size (qt0 qt1 : Block Byte) (w w' h h' : BitVec 16) {i : Nat} (hi : ¬(159 ≤ i ∧ i ≤ 162)) :
    (headerBytes qt0 qt1 w' h')[i]? = (headerBytes qt0 qt1 w h)[i]? := by
  have hsize : (bigEndian16 h ++ bigEndian16 w).length = 4 := rfl
  rw [headerBytes_eq_parts, headerBytes_eq_parts]
  refine getElem?_replace_middle rfl ?_
  rw [beforeSize_length, hsize]
  omega

/-- Settles O25: each segment's bytes are its definition's, and the header changes entry by entry with QT 0, QT 1 and the
size in turn. -/
theorem headerLayout : Obligations.HeaderLayout := by
  intro qt0 qt1 w h
  refine ⟨headerBytes_length qt0 qt1 w h, headerBytes_soi qt0 qt1 w h, headerBytes_app0 qt0 qt1 w h,
    headerBytes_dqt qt0 qt1 w h, headerBytes_sof0 qt0 qt1 w h, (headerBytes_dht qt0 qt1 w h).trans (by decide +kernel),
    headerBytes_sos qt0 qt1 w h, fun qt0' qt1' w' h' i hqt0 hqt1 hsize => ?_⟩
  calc (headerBytes qt0' qt1' w' h')[i]?
    _ = (headerBytes qt0 qt1' w' h')[i]? := headerBytes_outside_qt0 qt0 qt0' qt1' w' h' hqt0
    _ = (headerBytes qt0 qt1 w' h')[i]? := headerBytes_outside_qt1 qt0 qt1 qt1' w' h' hqt1
    _ = (headerBytes qt0 qt1 w h)[i]? := headerBytes_outside_size qt0 qt1 w w' h h' hsize

end Sys2Proof.Machine
end

section
/-! PROOFS. The sequencing invariants of the block from step to step (46_sequencing.md rules R325 to R328; 44_bitstream.md
rule R260), and the invariants at reset. -/

namespace Sys2Proof.Machine

/-- The sequencing invariants with the bit accumulator's. -/
def countersInv (s : State) : Prop := sequencingInv s ∧ bitAccInv s

/-! ### What leaves the counters as they are -/

/-- `t` holds the counters, BITACC and the predictors of `s`, and its bytes or the younger of them; STATE is kept or has
become ERROR. -/
def sameCounters (s t : State) : Prop :=
  (t.phase = s.phase ∨ t.phase = .error) ∧ t.fifo <:+ s.fifo ∧
  t.mcuTotal = s.mcuTotal ∧ t.mcuDone = s.mcuDone ∧ t.nextComp = s.nextComp ∧ t.acc = s.acc ∧ t.count = s.count ∧
  t.predY = s.predY ∧ t.predCb = s.predCb ∧ t.predCr = s.predCr ∧ t.outTotal = s.outTotal

theorem countersInv_of_sameCounters {s t : State} (h : sameCounters s t) (hs : countersInv s) : countersInv t := by
  obtain ⟨hphase, hfifo, htotal, hdone, hnext, hacc, hcount, hy, hcb, hcr, hout⟩ := h
  obtain ⟨⟨hmcus, hlevel, hfresh, hheader, hscan, hend⟩, hclear⟩ := hs
  have hlevel' : outLevel t ≤ Config.outDepth := hfifo.length_le.trans hlevel
  have hempty (h : s.fifo = []) : t.fifo = [] := List.suffix_nil.1 (h ▸ hfifo)
  simp only [countersInv, sequencingInv, noMcuBegun, bitAccZero, predsZero, bitAccInv, htotal, hdone, hnext, hacc,
    hcount, hy, hcb, hcr, hout] at *
  rcases hphase with hp | hp <;> rw [hp]
  · refine ⟨⟨hmcus, hlevel', fun h => ?_, hheader, hscan, hend⟩, hclear⟩
    obtain ⟨hzero, hbegun, hbits, hpreds, hpushed, hnone⟩ := hfresh h
    exact ⟨hzero, hbegun, hbits, hpreds, hpushed, hempty hnone⟩
  · simp [hmcus, hlevel', hclear]

theorem reject_keeps_countersInv (e : CmdError) {s : State} (hs : countersInv s) : countersInv (reject e s) := by
  refine countersInv_of_sameCounters ⟨?_, by simp⟩ hs
  rw [reject_phase]
  split <;> simp

theorem hostAccess_keeps_countersInv {a : HostAccess} {s t : State} (h : hostAccess a s = .next t)
    (hs : countersInv s) : countersInv t := by
  rcases hostAccess_next h with ⟨off, _, _, hr⟩ | ⟨off, v, _, _, rfl⟩
  · rcases readLoc_next hr with ⟨w, n, rfl⟩ | ⟨_, b, rest, hf, rfl⟩
    · exact hs
    · have hpopped : rest <:+ s.fifo := hf ▸ List.suffix_cons b rest
      exact countersInv_of_sameCounters (s := s) ⟨.inl rfl, hpopped, by simp⟩ hs
  · rw [writeLoc_frame]
    exact hs

/-! ### What each command commits -/

/-- Nothing is counted and nothing pushed, as after reset and INIT. -/
theorem countersInv_of_fresh {s : State} (hp : s.phase = .idle ∨ s.phase = .initialized) (htotal : s.mcuTotal = 0)
    (hbegun : noMcuBegun s) (hbits : bitAccZero s) (hpreds : predsZero s) (hout : s.outTotal = 0)
    (hfifo : s.fifo = []) : countersInv s := by
  have hlevel : outLevel s = 0 := by simp [outLevel, hfifo]
  have hclear : bitAccInv s := by simp [bitAccInv, accClear, hbits.1]
  refine ⟨⟨by simp [hbegun.1], by omega, fun _ => ⟨htotal, hbegun, hbits, hpreds, hout, hfifo⟩, ?_, ?_, ?_⟩, hclear⟩
  all_goals rcases hp with hp | hp <;> simp [hp]

theorem initState_countersInv (s : State) : countersInv (initState s) :=
  countersInv_of_fresh (.inr rfl) rfl ⟨rfl, rfl⟩ ⟨rfl, rfl⟩ ⟨rfl, rfl, rfl⟩ rfl rfl

theorem applyReset_countersInv (s : State) : countersInv (applyReset s) :=
  countersInv_of_fresh (.inl rfl) rfl ⟨rfl, rfl⟩ ⟨rfl, rfl⟩ ⟨rfl, rfl, rfl⟩ rfl rfl

/-- Blocks that cover 8 samples each cover a nonzero size in at least one and at most 2^13 (rule R325). -/
theorem blocks_range {d : BitVec 16} (h : d ≠ 0) : 1 ≤ (d.toNat + 7) / 8 ∧ (d.toNat + 7) / 8 ≤ 2 ^ 13 := by
  have hpos : d.toNat ≠ 0 := fun h0 => h (BitVec.eq_of_toNat_eq h0)
  have hlt := d.isLt
  omega

/-- MCU_TOTAL of a nonzero size is not 0: its 32 bits hold the number of MCUs (rule R325). -/
theorem one_le_mcuTotal {w h : BitVec 16} (hw : w ≠ 0) (hh : h ≠ 0) :
    1 ≤ (BitVec.ofNat 32 (mcuCount w h)).toNat := by
  obtain ⟨hw1, hw2⟩ := blocks_range hw
  obtain ⟨hh1, hh2⟩ := blocks_range hh
  have hlo := Nat.mul_le_mul hw1 hh1
  have hhi := Nat.mul_le_mul hw2 hh2
  rw [BitVec.toNat_ofNat, mcuCount_eq, Nat.mod_eq_of_lt (by omega)]
  exact hlo

theorem headerBody_keeps_countersInv {s u : State} (h : headerBody s = .ok u) (hp : s.phase = .initialized)
    (hs : countersInv s) : countersInv u := by
  obtain ⟨hw, hh, hroom, rfl⟩ := headerBody_ok h
  obtain ⟨⟨_, _, hfresh, _⟩, hclear⟩ := hs
  obtain ⟨-, hbegun, hbits, hpreds, hout, -⟩ := hfresh (.inr hp)
  have htotal := one_le_mcuTotal hw hh
  refine ⟨⟨?_, ?_, by simp, fun _ => ⟨htotal, hbegun, hbits, hpreds, ?_⟩, by simp, by simp⟩, hclear⟩
  · simp [hbegun.1]
  · rw [outLevel, pushBytes_fifo, List.length_append]
    exact hroom
  · rw [pushBytes_outTotal, headerBytes_length, hout]
    rfl

theorem emitAll_writerOf_clear {s : State} (h : bitAccInv s) (cs : List Code) :
    accClear (emitAll (writerOf s) cs).acc (emitAll (writerOf s) cs).count := by
  rw [emitAll_eq_foldl]
  exact (writerOk_foldl _ (writerOf s) ⟨h, rfl⟩).1

/-- A committed block leaves some of the image coded and not more MCUs done than there are (rule R326). -/
theorem advance_counts (k : Comp) {s : State} (hlt : s.mcuDone.toNat < s.mcuTotal.toNat) :
    (advance k s).mcuDone.toNat ≤ s.mcuTotal.toNat ∧
    1 ≤ 3 * (advance k s).mcuDone.toNat + compCode (advance k s).nextComp := by
  cases k with
  | y =>
    simp only [advance_y_mcuDone, advance_y_nextComp, compCode]
    omega
  | cb =>
    simp only [advance_cb_mcuDone, advance_cb_nextComp, compCode]
    omega
  | cr =>
    have htotal := s.mcuTotal.isLt
    have hdone : (s.mcuDone + 1).toNat = s.mcuDone.toNat + 1 := by
      rw [BitVec.toNat_add]
      exact Nat.mod_eq_of_lt (by simp; omega)
    simp only [advance_cr_mcuDone, hdone]
    omega

theorem codeBlock_keeps_countersInv {k : Comp} {zz : Block (BitVec 16)} {s u : State} (h : codeBlock k zz s = .ok u)
    (ha : blockAdmitted k s = true) (hs : countersInv s) : countersInv u := by
  obtain ⟨cs, _, hroom, rfl⟩ := codeBlock_eq_ok h
  obtain ⟨_, _, hlt⟩ := (blockAdmitted_iff k s).1 ha
  have hclear := emitAll_writerOf_clear hs.2 cs
  generalize emitAll (writerOf s) cs = w at hroom hclear ⊢
  obtain ⟨hdone, hcoded⟩ := advance_counts k (s := setPred k zz[0] (commitWriter w s)) (by simpa using hlt)
  refine ⟨⟨?_, ?_, by simp, by simp, fun _ => ⟨?_, hcoded⟩, by simp⟩, ?_⟩
  · simpa using hdone
  · simpa [outLevel] using hroom
  · simpa using Nat.one_le_of_lt hlt
  · simpa [bitAccInv] using hclear

theorem huffBody_keeps_countersInv {k : Comp} {s u : State} (h : huffBody k s = .ok u)
    (ha : blockAdmitted k s = true) (hs : countersInv s) : countersInv u := by
  obtain ⟨zz, _, hu⟩ := huffBody_ok h
  exact codeBlock_keeps_countersInv hu ha hs

theorem encblkBody_keeps_countersInv {k : Comp} {s u : State} (h : encblkBody k s = .ok u)
    (ha : blockAdmitted k s = true) (hs : countersInv s) : countersInv u := by
  obtain ⟨x, v, _, hv, rfl⟩ := encblkBody_ok h
  -- the COEF and ZZ it stores are none of the counters
  have hcoded : countersInv v := codeBlock_keeps_countersInv hv ha hs
  exact hcoded

theorem finishBody_keeps_countersInv {s u : State} (h : finishBody s = .ok u) (ha : admitted .finish s = true)
    (hs : countersInv s) : countersInv u := by
  obtain ⟨hroom, rfl⟩ := finishBody_ok h
  obtain ⟨-, hall, hnext⟩ := (admitted_finish_iff s).1 ha
  obtain ⟨⟨hmcus, _⟩, hclear⟩ := hs
  rw [finishWriter_eq hclear] at hroom ⊢
  refine ⟨⟨hmcus, ?_, by simp, by simp, by simp, fun _ => ⟨hall, hnext, rfl, rfl⟩⟩, rfl⟩
  simpa [outLevel] using hroom

/-- What an admitted command commits meets the invariant again. -/
theorem commit_keeps_countersInv {i : Instr} {s u : State} (ha : admitted i s = true) (h : bodyOf i s = .ok u)
    (hs : countersInv s) : countersInv u := by
  cases i with
  | nop =>
    obtain rfl := Except.ok.inj h
    exact hs
  | init =>
    obtain rfl := Except.ok.inj h
    exact initState_countersInv s
  | header => exact headerBody_keeps_countersInv h ((admitted_header_iff s).1 ha) hs
  | fdctq0 | fdctq1 =>
    obtain ⟨x, _, rfl⟩ := fdctqBody_ok h
    exact hs
  | zigzag =>
    obtain ⟨x, _, rfl⟩ := zigzagBody_ok h
    exact hs
  | huffY | huffCb | huffCr => exact huffBody_keeps_countersInv h ha hs
  | encblkY | encblkCb | encblkCr => exact encblkBody_keeps_countersInv h ha hs
  | finish => exact finishBody_keeps_countersInv h ha hs

theorem coreStep_keeps_countersInv {s t : State} (h : coreStep s = .next t) (hs : countersInv s) : countersInv t := by
  rcases coreStep_next h with ⟨e, rfl⟩ | ⟨i, _, ha, u, hu, rfl⟩
  · exact reject_keeps_countersInv e hs
  · -- completing a command touches none of the counters
    exact (commit_keeps_countersInv ha hu hs : countersInv u)

/-- Settles O58: each way a step can go (host access, core step, wait, reset) keeps the invariants, which say of IDLE and
INITIALIZED all that HEADER needs. -/
theorem stepKeepsTheSequencingInvariants : Obligations.StepKeepsTheSequencingInvariants := by
  intro s t hs h
  -- taking the turn off the agenda changes nothing the invariants speak of
  have hu : countersInv { s with agenda := s.agenda.tail } := hs
  rcases step_cases h with ⟨a, rest, _, ha⟩ | ⟨_, hc⟩ | ⟨_, rfl⟩ | ⟨rest, _, rfl⟩
  · exact hostAccess_keeps_countersInv ha hu
  · exact coreStep_keeps_countersInv hc hu
  · exact hu
  · exact applyReset_countersInv _

/-- Settles O7: at reset the buffers are empty, QUALITY is 80, nothing is counted, and FDCTQ is not admitted in IDLE. -/
theorem resetMeetsTheInvariants : Obligations.ResetMeetsTheInvariants := by
  obtain ⟨hseq, hacc⟩ := applyReset_countersInv State.reset
  obtain ⟨hqual, htab, _⟩ := applyReset_tablesAndRegistersInv State.reset
  exact ⟨⟨Memory.wf_nil, Memory.wf_nil, Memory.wf_nil⟩, hqual, hacc, hseq, htab⟩

end Sys2Proof.Machine
end

section
/-! PROOFS. The step's turns, the legality table, and the transitions of STATE (46_sequencing.md rules R320 to R324, R327,
R330; 70_reset_and_hazards.md rule R440). -/

namespace Sys2Proof.Machine

/-! ### The turns of the step -/

/-- The next turn being the core's, or none being left, the step is the core's turn. -/
theorem step_core {s : State} {rest : List Turn} (h : s.agenda = .core :: rest) :
    step s = coreTurn { s with agenda := rest } := by
  simp only [step, stepOnce, h, takeTurn]

theorem step_noTurn {s : State} (h : s.agenda = []) : step s = coreTurn s := by
  simp only [step, stepOnce, h]

theorem step_reset {s : State} {rest : List Turn} (h : s.agenda = .reset :: rest) :
    step s = .next (applyReset { s with agenda := rest }) := by
  simp only [step, stepOnce, h, takeTurn]

theorem coreTurn_busy {s : State} (hb : s.busy = true) : coreTurn s = coreStep s := if_pos hb

theorem coreTurn_idle {s : State} (hb : s.busy = false) : coreTurn s = .next s := by
  simp [coreTurn, hb]

theorem coreStep_legal {s : State} {i : Instr} (h : decode s.cmdLatch = .ok i) : coreStep s = exec i s := by
  simp only [coreStep, h]

/-- Settles O4: while BUSY = 1 the core's turn is its step, which decodes the latched word. -/
theorem stepRunsTheDecodedCommand : Obligations.StepRunsTheDecodedCommand := by
  intro s hb
  have turn (rest : List Turn) (ha : s.agenda = .core :: rest) : step s = coreStep { s with agenda := rest } :=
    (step_core ha).trans (coreTurn_busy hb)
  have noTurn (ha : s.agenda = []) : step s = coreStep s := (step_noTurn ha).trans (coreTurn_busy hb)
  refine ⟨fun rest i ha hd => ?_, fun i ha hd => ?_, fun rest e ha hd => ?_, fun e ha hd => ?_⟩
  · exact (turn rest ha).trans (coreStep_legal hd)
  · exact (noTurn ha).trans (coreStep_legal hd)
  · exact (turn rest ha).trans (coreStep_illegal hd)
  · exact (noTurn ha).trans (coreStep_illegal hd)

/-- Settles O5: each turn by what the step makes of it; the core's turn while BUSY = 0 is none. -/
theorem hostAndResetTurnsAreTaken : Obligations.HostAndResetTurnsAreTaken := by
  refine ⟨fun s a rest ha => step_host ha, fun s rest ha => step_reset ha, fun s rest hb ha => ?_, fun s hb ha => ?_⟩
  · exact (step_core ha).trans (coreTurn_idle hb)
  · exact (step_noTurn ha).trans (coreTurn_idle hb)

/-- Settles O21: NOP is admitted everywhere and commits the state as it is. -/
theorem nopCompletes : Obligations.NopCompletes := fun _ => exec_commit rfl rfl

/-! ### The legality table (rules R322 to R324) -/

/-- A command that is not admitted is rejected with SEQUENCE_ERROR, whatever its rule. -/
theorem exec_notAdmitted {i : Instr} {s : State} (h : ¬ admitted i s = true) :
    exec i s = .next (reject .sequenceError s) := by
  rw [exec_eq_run, runCommand_notAdmitted _ (Bool.eq_false_iff.2 h)]

theorem admitted_encblkInstr (k : Comp) : admitted (encblkInstr k) = blockAdmitted k := by cases k <;> rfl

/-- FDCTQ of either class has one row of the table. -/
theorem admitted_fdctqInstr_iff (c : TableClass) (s : State) :
    admitted (fdctqInstr c) s = true ↔ s.phase ≠ .idle ∧ s.phase ≠ .error := by
  cases c <;> exact admitted_fdctq0_iff s

/-- Settles O46: each row of the table says where its command is admitted; elsewhere the command is rejected. -/
theorem notAdmittedIsSequenceError : Obligations.NotAdmittedIsSequenceError := by
  intro s
  refine ⟨fun hp => ?_, fun hp => ?_, fun hp => ?_, fun k hk => ?_, fun hf => ?_, rfl, rfl, fun hp => ?_,
    fun hi he => ?_, fun he => ?_, fun hp hm => ?_, fun hp hm hn => ?_⟩
  · exact exec_notAdmitted fun ha => hp ((admitted_header_iff s).1 ha)
  · have hrow (c : TableClass) : ¬ admitted (fdctqInstr c) s = true := by
      rw [admitted_fdctqInstr_iff]
      tauto
    exact ⟨exec_notAdmitted (hrow .luma), exec_notAdmitted (hrow .chroma)⟩
  · exact exec_notAdmitted fun ha => (admitted_zigzag_iff s).1 ha hp
  · have hrow : ¬ blockAdmitted k s = true := by
      rw [blockAdmitted_iff, ← not_le]
      tauto
    exact ⟨exec_notAdmitted (by rwa [admitted_huffInstr]), exec_notAdmitted (by rwa [admitted_encblkInstr])⟩
  · refine exec_notAdmitted ?_
    rw [admitted_finish_iff]
    tauto
  · exact (admitted_header_iff s).2 hp
  · exact ⟨(admitted_fdctqInstr_iff .luma s).2 ⟨hi, he⟩, (admitted_fdctqInstr_iff .chroma s).2 ⟨hi, he⟩⟩
  · exact (admitted_zigzag_iff s).2 he
  · have hrow := (blockAdmitted_iff s.nextComp s).2 ⟨hp, rfl, hm⟩
    exact ⟨by rwa [admitted_huffInstr], by rwa [admitted_encblkInstr]⟩
  · exact (admitted_finish_iff s).2 ⟨hp, hm, hn⟩

/-! ### What a command leaves of the error record, INT_STATUS and BUSY -/

/-- `s` with the error record, INT_STATUS and BUSY of `r`. -/
def withRecord (r s : State) : State :=
  { s with
    errCode := r.errCode, errCmd := r.errCmd, errDetail := r.errDetail, intStatus := r.intStatus, busy := r.busy }

theorem blockCodes_withRecord (r : State) (k : Comp) (zz : Block (BitVec 16)) (s : State) :
    blockCodes k zz (predOf k (withRecord r s)) = blockCodes k zz (predOf k s) := by cases k <;> rfl

theorem codeBlock_withRecord (r : State) {k : Comp} {zz : Block (BitVec 16)} {s u : State}
    (h : codeBlock k zz s = .ok u) : codeBlock k zz (withRecord r s) = .ok (withRecord r u) := by
  obtain ⟨cs, hc, hroom, rfl⟩ := codeBlock_eq_ok h
  refine (codeBlock_ok ((blockCodes_withRecord r k zz s).trans hc) hroom).trans ?_
  cases k <;> rfl

theorem huffBody_withRecord (r : State) {k : Comp} {s u : State} (h : huffBody k s = .ok u) :
    huffBody k (withRecord r s) = .ok (withRecord r u) := by
  obtain ⟨zz, hz, hu⟩ := huffBody_ok h
  exact (huffBody_written (s := withRecord r s) hz).trans (codeBlock_withRecord r hu)

/-- ENCBLK k with SAMPLE written stores COEF and ZZ where its block is coded (rule R331). -/
theorem encblkBody_commits {k : Comp} {s v : State} {x : Block Byte}
    (hx : ∀ i : Fin 64, bufRead s.sample i.val = some x[i])
    (hv : codeBlock k (zigzagBlock (fdctqResult x (fsOf (classOf k) s))) s = .ok v) :
    encblkBody k s = .ok { v with
      coef := bufFill (fdctqResult x (fsOf (classOf k) s))
      zz := bufFill (zigzagBlock (fdctqResult x (fsOf (classOf k) s))) } := by
  simp only [encblkBody, (bufReadAll_eq_ok _ _).2 hx, hv]

theorem encblkBody_withRecord (r : State) {k : Comp} {s u : State} (h : encblkBody k s = .ok u) :
    encblkBody k (withRecord r s) = .ok (withRecord r u) := by
  obtain ⟨x, v, hx, hv, rfl⟩ := encblkBody_ok h
  exact encblkBody_commits (s := withRecord r s) hx (codeBlock_withRecord r hv)

/-- No command but INIT reads the error record, INT_STATUS or BUSY, or commits anything to them. -/
theorem bodyOf_withRecord (r : State) {i : Instr} {s u : State} (hi : i ≠ .init) (h : bodyOf i s = .ok u) :
    bodyOf i (withRecord r s) = .ok (withRecord r u) := by
  cases i with
  | nop =>
    obtain rfl := Except.ok.inj h
    rfl
  | init => exact absurd rfl hi
  | header =>
    obtain ⟨hw, hh, hroom, rfl⟩ := headerBody_ok h
    rw [headerBytes_length] at hroom
    exact headerBody_commits (s := withRecord r s) hw hh hroom
  | fdctq0 | fdctq1 =>
    obtain ⟨x, hx, rfl⟩ := fdctqBody_ok h
    exact fdctqBody_written (s := withRecord r s) hx
  | zigzag =>
    obtain ⟨x, hx, rfl⟩ := zigzagBody_ok h
    exact zigzagBody_written (s := withRecord r s) hx
  | huffY | huffCb | huffCr => exact huffBody_withRecord r h
  | encblkY | encblkCb | encblkCr => exact encblkBody_withRecord r h
  | finish =>
    obtain ⟨hroom, rfl⟩ := finishBody_ok h
    exact if_pos ((fits_iff _ (withRecord r s)).2 hroom)

/-- No rule commits anything to INT_STATUS: the completion sets DONE. -/
theorem bodyOf_ok_intStatus {i : Instr} {s u : State} (h : bodyOf i s = .ok u) : u.intStatus = s.intStatus := by
  by_cases hi : i = .init
  · subst hi
    obtain rfl := Except.ok.inj h
    rfl
  · have hsame : bodyOf i s = .ok (withRecord s u) := bodyOf_withRecord s hi h
    rw [Except.ok.inj (h.symm.trans hsame)]
    rfl

/-! ### The transitions of STATE (rule R327; 60_exceptions.md rule R410) -/

theorem entersError_eq_false_iff (e : CmdError) : e.entersError = false ↔ e.code = .outOverflow := by
  cases e <;> simp [CmdError.entersError, CmdError.code]

/-- STATE after a rejection, by the error recorded. -/
theorem reject_phase_of_code (e : CmdError) (s : State) :
    (reject e s).phase = if s.phase = .error ∨ e.code = .outOverflow then s.phase else .error := by
  simp only [reject_phase, ← entersError_eq_false_iff]
  cases e.entersError with
  | false => simp
  | true => by_cases hp : s.phase = .error <;> simp [hp]

theorem codeBlock_ok_phase {k : Comp} {zz : Block (BitVec 16)} {s u : State} (h : codeBlock k zz s = .ok u) :
    u.phase = .scanning := by
  obtain ⟨cs, _, _, rfl⟩ := codeBlock_eq_ok h
  exact advance_phase ..

theorem huffBody_ok_phase {k : Comp} {s u : State} (h : huffBody k s = .ok u) : u.phase = .scanning := by
  obtain ⟨zz, _, hu⟩ := huffBody_ok h
  exact codeBlock_ok_phase hu

theorem encblkBody_ok_phase {k : Comp} {s u : State} (h : encblkBody k s = .ok u) : u.phase = .scanning := by
  obtain ⟨x, v, _, hv, rfl⟩ := encblkBody_ok h
  exact (codeBlock_ok_phase hv : v.phase = .scanning)

/-- Settles O53: a next state comes from a rejection or from a commit, whose transition is its command's. -/
theorem stateTransitions : Obligations.StateTransitions := by
  intro i s t h
  rcases exec_next h with ⟨e, rfl⟩ | ⟨ha, u, hu, rfl⟩
  · exact .inl ⟨e, rfl, reject_phase_of_code e s⟩
  · refine .inr ⟨congrArg (· ||| intDone) (bodyOf_ok_intStatus hu), ?_⟩
    cases i with
    | nop => exact (congrArg State.phase (Except.ok.inj hu)).symm
    | init =>
      obtain rfl := Except.ok.inj hu
      rfl
    | header =>
      obtain ⟨_, _, _, rfl⟩ := headerBody_ok hu
      exact ⟨(admitted_header_iff s).1 ha, rfl⟩
    | fdctq0 | fdctq1 =>
      obtain ⟨x, _, rfl⟩ := fdctqBody_ok hu
      rfl
    | zigzag =>
      obtain ⟨x, _, rfl⟩ := zigzagBody_ok hu
      rfl
    | huffY | huffCb | huffCr =>
      exact ⟨((blockAdmitted_iff _ s).1 ha).1, (huffBody_ok_phase hu : u.phase = .scanning)⟩
    | encblkY | encblkCb | encblkCr =>
      exact ⟨((blockAdmitted_iff _ s).1 ha).1, (encblkBody_ok_phase hu : u.phase = .scanning)⟩
    | finish =>
      obtain ⟨_, rfl⟩ := finishBody_ok hu
      exact ⟨((admitted_finish_iff s).1 ha).1, rfl⟩

end Sys2Proof.Machine
end

section
/-! PROOFS. ENCBLK as a command and as its three stages (46_sequencing.md rules R322, R323, R326, R331). -/

namespace Sys2Proof.Machine

/-! ### ENCBLK completes -/

/-- ENCBLK k of any component, admitted, with SAMPLE written, codes for its block and room for what the bit writer then
holds, completes (rule R331). -/
theorem exec_encblk {k : Comp} {s : State} {x : Block Byte} {coef zz : Block (BitVec 16)} {cs : List Code}
    {w : BitWriter} (hw : emitAll (writerOf s) cs = w) (ha : blockAdmitted k s = true)
    (hx : ∀ i : Fin 64, bufRead s.sample i.val = some x[i]) (hcoef : coef = fdctqResult x (fsOf (classOf k) s))
    (hzz : zz = zigzagBlock coef) (hc : blockCodes k zz (predOf k s) = .ok cs)
    (hr : outLevel s + w.pending.length ≤ Config.outDepth) :
    exec (encblkInstr k) s = .next (complete { advance k (setPred k zz[0] (commitWriter w s)) with
      coef := bufFill coef, zz := bufFill zz }) := by
  subst hw hzz hcoef
  refine exec_commit (by rwa [admitted_encblkInstr]) ?_
  rw [bodyOf_encblkInstr]
  exact encblkBody_commits hx (codeBlock_ok hc hr)

/-- Settles O50: each component is a case of ENCBLK's commit. -/
theorem encblkCompletes : Obligations.EncblkCompletes := by
  intro s x cs hx hp hm
  generalize hw : emitAll _ cs = w
  intro _ hr
  have ha (k : Comp) (hk : s.nextComp = k) : blockAdmitted k s = true :=
    (blockAdmitted_iff k s).2 ⟨hp, hk.symm, hm⟩
  refine ⟨fun coef zz hcoef hzz hk hc => ?_, fun coef zz hcoef hzz hk hc => ?_, fun coef zz hcoef hzz hk hc => ?_⟩
  all_goals
    have h := exec_encblk hw (ha _ hk) hx hcoef hzz hc hr
    dsimp only [complete, advance, setPred, commitWriter, pushBytes] at h
    exact h

/-! ### The three stages -/

/-- No command clears INT_STATUS.ERR (10_state.md rule R42), so ERR = 0 after a command says that none was rejected. -/
theorem exec_commits_of_err_clear {i : Instr} {s t : State} (h : exec i s = .next t) (ht : t.intStatus.getLsbD 1 = false) :
    s.intStatus.getLsbD 1 = false ∧ admitted i s = true ∧ ∃ u, bodyOf i s = .ok u ∧ t = complete u := by
  rcases exec_next h with ⟨e, rfl⟩ | ⟨ha, u, hu, rfl⟩
  · simp [intErr] at ht
  · rw [complete_intStatus, bodyOf_ok_intStatus hu, BitVec.getLsbD_or, Bool.or_eq_false_iff] at ht
    exact ⟨ht.1, ha, u, hu, rfl⟩

/-- The state after FDCTQ and ZIGZAG: COEF and ZZ stored, two completions. -/
def stagedState (coef zz : Block (BitVec 16)) (s : State) : State :=
  { complete s with coef := bufFill coef, zz := bufFill zz }

/-- FDCTQ class(k) and ZIGZAG, both committed, leave what ENCBLK k computes on copies. -/
theorem exec_fdctq_zigzag {k : Comp} {s s1 s2 : State} (h1 : exec (fdctqInstr (classOf k)) s = .next s1)
    (h2 : exec .zigzag s1 = .next s2) (herr : s2.intStatus.getLsbD 1 = false) :
    ∃ x coef, (∀ i : Fin 64, bufRead s.sample i.val = some x[i]) ∧ coef = fdctqResult x (fsOf (classOf k) s) ∧
      s2 = stagedState coef (zigzagBlock coef) s := by
  obtain ⟨herr1, ha, -⟩ := exec_commits_of_err_clear h2 herr
  obtain ⟨-, -, u, hu, rfl⟩ := exec_commits_of_err_clear h1 herr1
  rw [bodyOf_fdctqInstr] at hu
  obtain ⟨x, hx, rfl⟩ := fdctqBody_ok hu
  generalize hcoef : fdctqResult x (fsOf (classOf k) s) = coef at h2 ha
  have hz := exec_zigzag (bufRead_bufFill coef) ((admitted_zigzag_iff _).1 ha)
  have hs2 := Host.Outcome.next.inj (h2.symm.trans hz)
  refine ⟨x, coef, hx, hcoef.symm, hs2.trans ?_⟩
  simp [complete, stagedState, BitVec.or_assoc]

/-- Coding the block after the two stages is coding it before them, COEF and ZZ apart. -/
theorem complete_codedState_stagedState (k : Comp) (dc : BitVec 16) (cs : List Code) (coef zz : Block (BitVec 16))
    (s : State) : complete (codedState k dc cs (bufFill coef) (bufFill zz) (stagedState coef zz s)) =
      complete (codedState k dc cs (bufFill coef) (bufFill zz) s) := by
  cases k <;> simp [complete, codedState, stagedState, advance, setPred, commitWriter, pushBytes, writerOf,
    BitVec.or_assoc]

/-- Settles O51: with ERR 0 at the end each stage committed. HUFF codes the block that ENCBLK makes of SAMPLE, from the
counters as they were. -/
theorem encblkIsTheThreeStages : Obligations.EncblkIsTheThreeStages := by
  intro k s s1 s2 s3 h1 h2 h3 herr
  obtain ⟨herr2, ha, u, hu, rfl⟩ := exec_commits_of_err_clear h3 herr
  obtain ⟨x, coef, hx, hcoef, rfl⟩ := exec_fdctq_zigzag h1 h2 herr2
  rw [bodyOf_huffInstr, huffBody_written (bufRead_bufFill (zigzagBlock coef))] at hu
  obtain ⟨cs, hc, hroom, rfl⟩ := codeBlock_eq_ok hu
  rw [admitted_huffInstr] at ha
  have hpred : predOf k (stagedState coef (zigzagBlock coef) s) = predOf k s := by cases k <;> rfl
  rw [hpred] at hc
  refine (exec_encblk (s := s) rfl ha hx hcoef rfl hc hroom).trans (congrArg Host.Outcome.next ?_)
  exact (complete_codedState_stagedState ..).symm.trans (congrArg complete (codedState_keeping_buffers ..))

end Sys2Proof.Machine
end

section
/-! PROOFS. OUT_OVERFLOW and the retry of the command with room (46_sequencing.md rules R331, R332; 60_exceptions.md rules
R400, R410; 45_container.md rules R290, R295). -/

namespace Sys2Proof.Machine

/-! ### The retry of any command -/

/-- `s` retried after a rejection that left `r`, with the bytes `f` in the FIFO. -/
def retryState (r : State) (f : List Byte) (s : State) : State := withRecord r { s with fifo := f }

/-- OUT_OVERFLOW changes nothing but the record, INT_STATUS and BUSY, wherever it is raised (60_exceptions.md rule R410). -/
theorem reject_outOverflow_withFifo (n : Nat) (f : List Byte) (s : State) :
    { reject (.outOverflow n) s with fifo := f } = retryState (reject (.outOverflow n) s) f s := by
  have hp : (reject (.outOverflow n) s).phase = s.phase := by simp [reject_phase, CmdError.entersError]
  simp [retryState, withRecord, hp]

/-- The legality table looks at nothing that a rejection with OUT_OVERFLOW or the host's draining of the FIFO changes. -/
theorem admitted_retryState (i : Instr) (r : State) (f : List Byte) (s : State) :
    admitted i (retryState r f s) = admitted i s := by cases i <;> rfl

/-- A command whose rule overflows, and on any FIFO with room commits the bytes, is rejected and retried as rule R332
says: the retry differs from a first run only in what `withRecord` sets. -/
theorem rejectedThenRetried_of_bodyOf {i : Instr} {s : State} {bytes : List Byte} (hi : i ≠ .init)
    (ha : admitted i s = true) (hfull : bodyOf i s = .error (.reject (.outOverflow bytes.length)))
    (hroom : ∀ f : List Byte, f.length + bytes.length ≤ Config.outDepth →
      ∃ u, bodyOf i { s with fifo := f } = .ok u ∧ u.fifo = f ++ bytes) : rejectedThenRetried i s bytes := by
  refine ⟨exec_reject ha hfull, by simp [reject_phase, CmdError.entersError], fun f hf => ?_⟩
  obtain ⟨u, hu, hpushed⟩ := hroom f hf
  have ha' : admitted i { s with fifo := f } = true := (admitted_retryState i s f s).trans ha
  refine ⟨complete u, exec_commit ha' hu, hpushed, ?_⟩
  generalize hr : reject (.outOverflow bytes.length) s = r
  have hdone : r.intStatus ||| intDone = r.intStatus := by simp [← hr, BitVec.or_assoc]
  rw [← hr, reject_outOverflow_withFifo, hr,
    exec_commit ((admitted_retryState i r f s).trans ha) (bodyOf_withRecord r hi hu)]
  simp only [complete, withRecord, hdone]

theorem not_fits {n : Nat} {s : State} (h : Config.outDepth < outLevel s + n) : ¬ fits n s = true := by
  rw [fits_iff]
  omega

/-! ### HUFF and ENCBLK -/

/-- What a coded block commits of the bit writer, the predictor and STATE (rules R223, R265, R326). -/
theorem codedState_fields (k : Comp) (dc : BitVec 16) (cs : List Code) (coef zz : Buffer 16) (s : State) :
    let w := emitAll (writerOf s) cs
    let u := codedState k dc cs coef zz s
    u.fifo = s.fifo ++ w.pending ∧ u.acc = w.acc ∧ u.count = w.count ∧ predOf k u = dc ∧ u.phase = .scanning ∧
      u.outTotal = s.outTotal + BitVec.ofNat 32 w.pending.length := by
  refine ⟨codedState_fifo .., ?_, ?_, by cases k <;> rfl, ?_, ?_⟩ <;> simp [codedState]

/-- HUFF k and ENCBLK k of a coded block with room commit its codes. -/
theorem bodyOf_codesBlock_commits {i : Instr} {k : Comp} {s : State} {zz : Block (BitVec 16)} {cs : List Code}
    (h : codesBlock i k s zz) (hc : blockCodes k zz (predOf k s) = .ok cs)
    (hr : outLevel s + (emitAll (writerOf s) cs).pending.length ≤ Config.outDepth) :
    ∃ coef' zz', bodyOf i s = .ok (codedState k zz[0] cs coef' zz' s) := by
  rcases h with ⟨rfl, hz⟩ | ⟨rfl, x, hx, rfl⟩
  · refine ⟨s.coef, s.zz, ?_⟩
    rw [bodyOf_huffInstr, huffBody_written hz, codeBlock_ok hc hr, codedState_keeping_buffers]
  · rw [bodyOf_encblkInstr]
    exact ⟨_, _, encblkBody_commits hx (codeBlock_ok hc hr)⟩

theorem encblkBody_stops {k : Comp} {s : State} {x : Block Byte} {e : Stop}
    (hx : ∀ i : Fin 64, bufRead s.sample i.val = some x[i])
    (he : codeBlock k (zigzagBlock (fdctqResult x (fsOf (classOf k) s))) s = .error e) :
    encblkBody k s = .error e := by
  simp only [encblkBody, (bufReadAll_eq_ok _ _).2 hx, he]

theorem codeBlock_overflows {k : Comp} {zz : Block (BitVec 16)} {s : State} {cs : List Code}
    (hc : blockCodes k zz (predOf k s) = .ok cs)
    (hfull : Config.outDepth < outLevel s + (emitAll (writerOf s) cs).pending.length) :
    codeBlock k zz s = .error (.reject (.outOverflow (emitAll (writerOf s) cs).pending.length)) := by
  simp only [codeBlock, hc, if_neg (not_fits hfull)]

/-- Without room they raise OUT_OVERFLOW with the number of bytes. -/
theorem bodyOf_codesBlock_overflows {i : Instr} {k : Comp} {s : State} {zz : Block (BitVec 16)} {cs : List Code}
    (h : codesBlock i k s zz) (hc : blockCodes k zz (predOf k s) = .ok cs)
    (hfull : Config.outDepth < outLevel s + (emitAll (writerOf s) cs).pending.length) :
    bodyOf i s = .error (.reject (.outOverflow (emitAll (writerOf s) cs).pending.length)) := by
  rcases h with ⟨rfl, hz⟩ | ⟨rfl, x, hx, rfl⟩
  · rw [bodyOf_huffInstr, huffBody_written hz, codeBlock_overflows hc hfull]
  · rw [bodyOf_encblkInstr]
    exact encblkBody_stops hx (codeBlock_overflows hc hfull)

/-- The block to code, its codes and the bits before it are no part of the record or the FIFO. -/
theorem codesBlock_retryState {i : Instr} {k : Comp} {s : State} {zz : Block (BitVec 16)} (r : State) (f : List Byte)
    (h : codesBlock i k s zz) : codesBlock i k (retryState r f s) zz := h

theorem predOf_retryState (k : Comp) (r : State) (f : List Byte) (s : State) :
    predOf k (retryState r f s) = predOf k s := by cases k <;> rfl

/-- HUFF k and ENCBLK k on a FIFO with room, whatever the record: they commit the codes. -/
theorem bodyOf_codesBlock_retryState {i : Instr} {k : Comp} {s : State} {zz : Block (BitVec 16)} {cs : List Code}
    (h : codesBlock i k s zz) (hc : blockCodes k zz (predOf k s) = .ok cs) (r : State) {f : List Byte}
    (hr : f.length + (emitAll (writerOf s) cs).pending.length ≤ Config.outDepth) :
    ∃ coef' zz', bodyOf i (retryState r f s) = .ok (codedState k zz[0] cs coef' zz' (retryState r f s)) :=
  bodyOf_codesBlock_commits (codesBlock_retryState r f h) (by rwa [predOf_retryState]) hr

/-- HUFF k and ENCBLK k without room: the rejection, and the retry with room (rule R332). -/
theorem codesBlock_overflow_retries {i : Instr} {k : Comp} {s : State} {zz : Block (BitVec 16)} {cs : List Code}
    (h : codesBlock i k s zz) (ha : admitted i s = true) (hc : blockCodes k zz (predOf k s) = .ok cs)
    (hfull : Config.outDepth < outLevel s + (emitAll (writerOf s) cs).pending.length) :
    rejectedThenRetried i s (emitAll (writerOf s) cs).pending := by
  have hi : i ≠ .init := by rcases h with ⟨rfl, _⟩ | ⟨rfl, _⟩ <;> cases k <;> decide
  refine rejectedThenRetried_of_bodyOf hi ha (bodyOf_codesBlock_overflows h hc hfull) fun f hf => ?_
  obtain ⟨coef', zz', hu⟩ := bodyOf_codesBlock_retryState h hc s hf
  exact ⟨_, hu, codedState_fifo ..⟩

/-! ### HEADER and FINISH -/

theorem header_overflow_retries {s : State} (hp : s.phase = .initialized) (hw : s.width ≠ 0) (hh : s.height ≠ 0)
    (hfull : Config.outDepth < outLevel s + 607) :
    rejectedThenRetried .header s (headerBytes s.qt0 s.qt1 s.width s.height) := by
  refine rejectedThenRetried_of_bodyOf (by decide) ((admitted_header_iff s).2 hp) ?_ fun f hf => ?_
  · have hlen := headerBytes_length s.qt0 s.qt1 s.width s.height
    exact (if_neg (not_or.2 ⟨hw, hh⟩)).trans (if_neg (not_fits (by rwa [hlen])))
  · rw [headerBytes_length] at hf
    exact ⟨_, headerBody_commits (s := { s with fifo := f }) hw hh hf, rfl⟩

theorem finish_overflow_retries {s : State} (hp : s.phase = .scanning) (hm : s.mcuDone = s.mcuTotal)
    (hn : s.nextComp = .y) (hfull : Config.outDepth < outLevel s + (finishWriter s).pending.length) :
    rejectedThenRetried .finish s (finishWriter s).pending := by
  refine rejectedThenRetried_of_bodyOf (by decide) ((admitted_finish_iff s).2 ⟨hp, hm, hn⟩) ?_ fun f hf => ?_
  · exact if_neg (not_fits hfull)
  · exact ⟨_, if_pos ((fits_iff _ { s with fifo := f }).2 hf), rfl⟩

theorem finishPadding_length_le (s : State) : (finishPadding s).length ≤ 2 := by
  unfold finishPadding completed
  split
  · simp
  · split <;> simp

/-- Settles O43: each command's rule overflows without room and commits its bytes with it, and the coders' commit is that
of the codes. -/
theorem overflowKeepsTheStateAndRetries : Obligations.OverflowKeepsTheStateAndRetries := by
  refine ⟨fun i k s zz cs h ha hc => ?_, fun s hp hw hh hfull => ?_, fun s pad hacc hp hm hn hpad hfull => ?_⟩
  · intro w hfull
    refine ⟨codesBlock_overflow_retries h ha hc hfull, fun f hf => ?_⟩
    rw [reject_outOverflow_withFifo]
    obtain ⟨coef', zz', hu⟩ := bodyOf_codesBlock_retryState h hc (reject (.outOverflow w.pending.length) s) hf
    refine ⟨_, exec_commit ((admitted_retryState i _ f s).trans ha) hu, ?_⟩
    -- completing the command touches none of the fields it commits
    exact codedState_fields k zz[0] cs coef' zz' (retryState _ f s)
  · exact ⟨headerBytes_length .., header_overflow_retries hp hw hh hfull⟩
  · replace hpad : finishPadding s = pad := hpad.symm
    have hbytes : (finishWriter s).pending = pad ++ [0xFF, 0xD9] := by rw [finishWriter_eq hacc, hpad]; rfl
    refine ⟨hpad ▸ finishPadding_length_le s, hbytes ▸ finish_overflow_retries hp hm hn ?_⟩
    rw [hbytes, List.length_append]
    exact hfull

end Sys2Proof.Machine
end

section
/-! PROOFS. What the host contract relies on: the raster walk's length, the colour transform's ranges and the bound on the
bytes of one block (47_host_contract.md rules R353, R356, R361). -/

namespace Sys2Proof.Machine

/-! ### The raster walk (rule R356) -/

theorem steps8_succ (n : Nat) : steps8 (n + 1) = steps8 n ++ if n % 8 = 0 then [n] else [] := by
  simp [steps8, List.range_succ, List.filter_singleton]

/-- There are ceil(n / 8) multiples of 8 below n. -/
theorem steps8_length (n : Nat) : (steps8 n).length = (n + 7) / 8 := by
  induction n with
  | zero => rfl
  | succ n ih =>
    rw [steps8_succ, List.length_append, ih]
    split
    · rw [List.length_singleton]
      omega
    · rw [List.length_nil]
      omega

theorem mcuOrigins_length (width height : Nat) :
    (mcuOrigins width height).length = ((width + 7) / 8) * ((height + 7) / 8) := by
  simp [mcuOrigins, List.length_flatMap, steps8_length, Nat.mul_comm]

/-- Settles O27: the walk has one row of ceil(w / 8) origins for each of ceil(h / 8) heights, each factor at most 2^13. -/
theorem mcuTotalCountsTheRaster : Obligations.McuTotalCountsTheRaster := by
  intro w h
  have hw : (w.toNat + 7) / 8 ≤ 2 ^ 13 := by have := w.isLt; omega
  have hh : (h.toNat + 7) / 8 ≤ 2 ^ 13 := by have := h.isLt; omega
  refine ⟨(mcuOrigins_length _ _).trans (mcuCount_eq w h).symm, mcuCount_eq w h, ?_⟩
  calc mcuCount w h = ((w.toNat + 7) / 8) * ((h.toNat + 7) / 8) := mcuCount_eq w h
    _ ≤ 2 ^ 13 * 2 ^ 13 := Nat.mul_le_mul hw hh
    _ = 2 ^ 26 := rfl

/-! ### The colour transform (rule R353) -/

/-- A numerator in [0, 2^24) is a natural number, and dividing it by 2^16 shifts it right by 16. -/
theorem numerator_shift {n : Int} (h0 : 0 ≤ n) (h1 : n < 2 ^ 24) :
    ∃ m : Nat, (m : Int) = n ∧ n / 65536 - 128 = ((m >>> 16 : Nat) : Int) - 128 ∧ m < 2 ^ 24 := by
  lift n to Nat using h0
  exact ⟨n, rfl, by omega, by omega⟩

/-- Settles O60: the extreme bytes bound each numerator in [0, 2^24), so the shift by 16 gives a byte and the offset an
int8. -/
theorem colourTransformIsInRange : Obligations.ColourTransformIsInRange := by
  intro r g b p
  have hr := r.isLt
  have hg := g.isLt
  have hb := b.isLt
  refine ⟨numerator_shift ?_ ?_, numerator_shift ?_ ?_, numerator_shift ?_ ?_, ?int8⟩
  case int8 =>
    simp only [p, ycc]
    omega
  all_goals omega

/-! ### The bits of a block's codes (rule R361) -/

/-- How many bits some codes emit. -/
def bitCount (cs : List Code) : Nat := (cs.map Code.len).sum

theorem codeBits_length (code n : Nat) : (codeBits code n).length = n := by
  induction n with
  | zero => rfl
  | succ n ih => rw [codeBits, List.length_cons, ih]

theorem codesBits_length (cs : List Code) : (codesBits cs).length = bitCount cs := by
  simp [codesBits, bitCount, List.length_flatMap, codeBits_length]

@[simp] theorem bitCount_nil : bitCount [] = 0 := rfl

@[simp] theorem bitCount_cons (c : Code) (cs : List Code) : bitCount (c :: cs) = c.len + bitCount cs := rfl

@[simp] theorem bitCount_append (cs ds : List Code) : bitCount (cs ++ ds) = bitCount cs + bitCount ds := by
  simp [bitCount]

@[simp] theorem bitCount_replicate (n : Nat) (c : Code) : bitCount (List.replicate n c) = n * c.len := by
  simp [bitCount]

/-- A bound on the lengths a table lists bounds every code looked up in it. -/
theorem codeOf_len_le {t : List (Nat × Code)} {n : Nat} (h : ∀ p ∈ t, p.2.len ≤ n) (sym : Nat) :
    (codeOf t sym).len ≤ n := by
  unfold codeOf
  cases hl : t.lookup sym with
  | none => exact Nat.zero_le n
  | some c =>
    obtain ⟨before, after, ht, _⟩ := List.lookup_eq_some_iff.1 hl
    exact h (sym, c) (by simp [ht])

/-- DC codes have at most 11 bits (rules R387, R388). -/
theorem htDc_len_le (c : TableClass) (sym : Nat) : (codeOf (htDc c) sym).len ≤ 11 :=
  codeOf_len_le (by cases c <;> decide +kernel) sym

/-- AC codes have at most 16 bits (rules R389, R390). -/
theorem htAc_len_le (c : TableClass) (sym : Nat) : (codeOf (htAc c) sym).len ≤ 16 :=
  codeOf_len_le (by cases c <;> decide +kernel) sym

theorem bitCount_dcDifferenceCodes_le (k : Comp) {d : Int} (hd : cat d ≤ 11) :
    bitCount (dcDifferenceCodes k d) ≤ 22 := by
  unfold dcDifferenceCodes
  split
  · have hzero := htDc_len_le (classOf k) 0
    simp only [bitCount_cons, bitCount_nil]
    omega
  · have hsym := htDc_len_le (classOf k) (cat d)
    simp only [bitCount_cons, bitCount_nil]
    omega

/-- A nonzero entry and the r zeros before it: a ZRL of at most 16 bits per 16 zeros, a symbol of at most 16 and at most 10
magnitude bits, so at most 26 bits a position. -/
theorem bitCount_entryCodes_le (k : Comp) (r : Nat) {v : BitVec 16} (hv : v ≠ 0) (hcat : cat v.toInt ≤ 10) :
    bitCount (entryCodes k r v) ≤ 26 * (r + 1) := by
  have hzrl := Nat.mul_le_mul_left (r / 16) (htAc_len_le (classOf k) 0xF0)
  have hsym := htAc_len_le (classOf k) (16 * (r % 16) + cat v.toInt)
  rw [entryCodes, if_neg hv]
  simp only [bitCount_append, bitCount_replicate, bitCount_cons, bitCount_nil]
  omega

/-- Every position pays for at most 26 bits, the zeros at the end for none: the zeros that end `p` are still to be paid when
the walk over `vs` begins, those that end `p ++ vs` are left when it stops. -/
theorem bitCount_runLengthCodes_le (k : Comp) (p vs : List (BitVec 16)) (hcat : ∀ v ∈ vs, cat v.toInt ≤ 10) :
    bitCount (runLengthCodes k p vs) + 26 * trailingZeros (p ++ vs) ≤ 26 * (trailingZeros p + vs.length) := by
  induction vs generalizing p with
  | nil => simp [runLengthCodes_nil]
  | cons v vs ih =>
    obtain ⟨hv10, hvs⟩ := List.forall_mem_cons.1 hcat
    have hrest := ih (p ++ [v]) hvs
    rw [List.append_assoc, List.singleton_append] at hrest
    rw [runLengthCodes_cons, bitCount_append, List.length_cons]
    by_cases hv : v = 0
    · subst hv
      rw [trailingZeros_append_zero] at hrest
      rw [entryCodes_zero, bitCount_nil]
      omega
    · have hentry := bitCount_entryCodes_le k (trailingZeros p) hv hv10
      rw [trailingZeros_append_nonzero p hv] at hrest
      omega

theorem trailingZeros_pos {p : List (BitVec 16)} {n : Nat} (hl : p.length = n + 1) (hlast : p.getD n 0 = 0) :
    0 < trailingZeros p := by
  rcases p.eq_nil_or_concat with rfl | ⟨q, v, rfl⟩
  · cases hl
  · obtain rfl : q.length = n := by simpa using hl
    obtain rfl : v = 0 := by simpa using hlast
    rw [List.concat_eq_append, trailingZeros_append_zero]
    exact Nat.succ_pos _

/-- EOB is emitted only where the last entry is 0, and takes no more than the 26 bits that entry did not use. -/
theorem bitCount_eobCodes_le (k : Comp) {ac : List (BitVec 16)} (hl : ac.length = 63) :
    bitCount (eobCodes k (ac.getD 62 0)) ≤ 26 * trailingZeros ac := by
  unfold eobCodes
  split
  · have hpos := trailingZeros_pos hl ‹_›
    have heob := htAc_len_le (classOf k) 0x00
    simp only [bitCount_cons, bitCount_nil]
    omega
  · exact Nat.zero_le _

/-- A block's codes emit at most 22 bits for DC and 26 for each of the 63 AC positions. -/
theorem bitCount_blockCodes_le {k : Comp} {zz : Block (BitVec 16)} {pred : BitVec 16} {cs : List Code}
    (h : blockCodes k zz pred = .ok cs) : bitCount cs ≤ 22 + 26 * 63 := by
  obtain ⟨dc, hdc, ac, hac, rfl⟩ := (blockCodes_eq_ok_iff k zz pred cs).1 h
  obtain ⟨hdcat, rfl⟩ := (dcCodes_eq_ok_iff k zz[0] pred dc).1 hdc
  obtain ⟨hcat, rfl⟩ := (acCodes_eq_ok_iff k (length_drop_one zz) ac).1 hac
  have hdiff := bitCount_dcDifferenceCodes_le k hdcat
  have hwalk := bitCount_runLengthCodes_le k [] _ hcat
  have heob := bitCount_eobCodes_le k (length_drop_one zz)
  rw [List.nil_append, trailingZeros_nil, length_drop_one] at hwalk
  rw [bitCount_append, bitCount_append]
  omega

/-- Settles O42: with at most 7 bits carried, 1660 bits complete at most 208 bytes, and stuffing at most doubles them. -/
theorem blockPushesAtMost416Bytes : Obligations.BlockPushesAtMost416Bytes := by
  intro k zz pred acc count cs h
  obtain ⟨_, hbytes, hpushed⟩ := bitCountOfACommand acc count cs
  have hbits := bitCount_blockCodes_le h
  have hcarried := count.isLt
  have hstuffed := List.count_le_length (a := (0xFF : Byte)) (l := unstuff (emitAll ⟨acc, count, []⟩ cs).pending)
  rw [codesBits_length] at hbytes hpushed
  omega

end Sys2Proof.Machine
end

section
/-! PROOFS. The three buffers: their canonical form from step to step, and the faults at unwritten entries
(10_state.md rules R60 to R62; 70_reset_and_hazards.md rule R441). -/

namespace Sys2Proof.Machine

/-! ### What each command commits to the buffers -/

theorem memoryInv_of_sameBuffers {s t : State} (h : t.sample = s.sample ∧ t.coef = s.coef ∧ t.zz = s.zz)
    (hs : memoryInv s) : memoryInv t := by
  obtain ⟨hsample, hcoef, hzz⟩ := h
  rwa [memoryInv, hsample, hcoef, hzz]

theorem reject_keeps_memoryInv (e : CmdError) {s : State} (hs : memoryInv s) : memoryInv (reject e s) :=
  memoryInv_of_sameBuffers ⟨reject_sample e s, reject_coef e s, reject_zz e s⟩ hs

/-- The coding of a block touches none of the buffers. -/
theorem codeBlock_ok_keeps_memoryInv {k : Comp} {zz : Block (BitVec 16)} {s u : State} (h : codeBlock k zz s = .ok u)
    (hs : memoryInv s) : memoryInv u := by
  obtain ⟨cs, _, _, rfl⟩ := codeBlock_eq_ok h
  exact memoryInv_of_sameBuffers (by simp) hs

theorem huffBody_ok_keeps_memoryInv {k : Comp} {s u : State} (h : huffBody k s = .ok u) (hs : memoryInv s) :
    memoryInv u := by
  obtain ⟨zz, _, hu⟩ := huffBody_ok h
  exact codeBlock_ok_keeps_memoryInv hu hs

theorem encblkBody_ok_keeps_memoryInv {k : Comp} {s u : State} (h : encblkBody k s = .ok u) (hs : memoryInv s) :
    memoryInv u := by
  obtain ⟨x, v, _, hv, rfl⟩ := encblkBody_ok h
  obtain ⟨hsample, _, _⟩ := codeBlock_ok_keeps_memoryInv hv hs
  exact ⟨hsample, Memory.wf_bufFill _, Memory.wf_bufFill _⟩

/-- A command leaves a buffer as it is or fills all its 64 entries. -/
theorem bodyOf_ok_keeps_memoryInv {i : Instr} {s u : State} (h : bodyOf i s = .ok u) (hs : memoryInv s) :
    memoryInv u := by
  cases i with
  | nop =>
    obtain rfl := Except.ok.inj h
    exact hs
  | init =>
    obtain rfl := Except.ok.inj h
    exact hs
  | header =>
    obtain ⟨_, _, _, rfl⟩ := headerBody_ok h
    exact hs
  | fdctq0 | fdctq1 =>
    obtain ⟨x, _, rfl⟩ := fdctqBody_ok h
    obtain ⟨hsample, _, hzz⟩ := hs
    exact ⟨hsample, Memory.wf_bufFill _, hzz⟩
  | zigzag =>
    obtain ⟨x, _, rfl⟩ := zigzagBody_ok h
    obtain ⟨hsample, hcoef, _⟩ := hs
    exact ⟨hsample, hcoef, Memory.wf_bufFill _⟩
  | huffY | huffCb | huffCr => exact huffBody_ok_keeps_memoryInv h hs
  | encblkY | encblkCb | encblkCr => exact encblkBody_ok_keeps_memoryInv h hs
  | finish =>
    obtain ⟨_, rfl⟩ := finishBody_ok h
    exact hs

theorem coreStep_keeps_memoryInv {s t : State} (h : coreStep s = .next t) (hs : memoryInv s) : memoryInv t := by
  rcases coreStep_next h with ⟨e, rfl⟩ | ⟨i, _, _, u, hu, rfl⟩
  · exact reject_keeps_memoryInv e hs
  · -- completing sets DONE and clears BUSY, and no buffer is changed
    exact (bodyOf_ok_keeps_memoryInv hu hs : memoryInv u)

/-! ### What a host access does to the buffers -/

/-- A register of the window is no buffer entry. -/
theorem writeReg_keeps_memoryInv (r : Reg) (v : Word) {s : State} (hs : memoryInv s) : memoryInv (writeReg r v s) := by
  have guarded {t : State} (ht : memoryInv t) : memoryInv (guardedWrite s t) := by
    unfold guardedWrite
    split
    · exact hs
    · exact ht
  cases r with
  | cmd | quality | width | height => exact guarded hs
  | _ => exact hs

/-- The window's map names only entries below 64, and writing one of those keeps the canonical form. -/
theorem writeLoc_locate_keeps_memoryInv (off : Nat) (v : Word) {s : State} (hs : memoryInv s) :
    memoryInv (writeLoc (locate off) v s) := by
  cases hb : s.busy with
  | true =>
    rw [writeLoc_busy hb]
    exact hs
  | false =>
    have ⟨hsample, hcoef, hzz⟩ := hs
    rcases locate_index off with ⟨r, hl⟩ | ⟨i, hi, hl | hl | hl⟩ | ⟨c, k, hl⟩ | hl
    all_goals rw [hl]
    · exact writeReg_keeps_memoryInv r v hs
    · rw [writeLoc, guardedWrite_idle _ hb]
      exact ⟨Memory.wf_bufWrite _ i _ hi hsample, hcoef, hzz⟩
    · rw [writeLoc, guardedWrite_idle _ hb]
      exact ⟨hsample, Memory.wf_bufWrite _ i _ hi hcoef, hzz⟩
    · rw [writeLoc, guardedWrite_idle _ hb]
      exact ⟨hsample, hcoef, Memory.wf_bufWrite _ i _ hi hzz⟩
    · exact hs
    · exact hs

theorem hostAccess_keeps_memoryInv {a : HostAccess} {s t : State} (h : hostAccess a s = .next t) (hs : memoryInv s) :
    memoryInv t := by
  rcases hostAccess_next h with ⟨off, _, _, hr⟩ | ⟨off, v, _, _, rfl⟩
  · rcases readLoc_next hr with ⟨w, n, rfl⟩ | ⟨_, b, rest, _, rfl⟩
    · exact hs
    · exact hs
  · exact writeLoc_locate_keeps_memoryInv off v hs

/-- Settles O57: each way a step can go (host access, core step, wait, reset) keeps the form: a host write puts one entry
below 64, a command fills whole buffers, a reset empties them. -/
theorem stepKeepsMemoryCanonical : Obligations.StepKeepsMemoryCanonical := by
  intro s t hs h
  -- taking the turn off the agenda changes no buffer
  have hu : memoryInv { s with agenda := s.agenda.tail } := hs
  rcases step_cases h with ⟨a, rest, _, ha⟩ | ⟨_, hc⟩ | ⟨_, rfl⟩ | ⟨rest, _, rfl⟩
  · exact hostAccess_keeps_memoryInv ha hu
  · exact coreStep_keeps_memoryInv hc hu
  · exact hu
  · exact ⟨Memory.wf_nil, Memory.wf_nil, Memory.wf_nil⟩

/-! ### Unwritten entries -/

/-- The converse of `bufReadAll_eq_error`: the first unwritten entry is where reading a whole buffer fails. -/
theorem bufReadAll_of_firstUnwritten {w : Nat} {b : Buffer w} {i : Nat} (hi : i < 64) (hu : bufRead b i = none)
    (hw : ∀ j < i, bufRead b j ≠ none) : bufReadAll b = .error i := by
  cases hr : bufReadAll b with
  | ok v =>
    have hwritten := (bufReadAll_eq_ok b v).1 hr ⟨i, hi⟩
    simp [hu] at hwritten
  | error k =>
    obtain ⟨_, hk, hbefore⟩ := bufReadAll_eq_error b k hr
    rcases Nat.lt_trichotomy i k with h | rfl | h
    · exact absurd hu (hbefore i h)
    · rfl
    · exact absurd hk (hw k h)

theorem readEntry_unwritten {w i : Nat} {b : Buffer w} (name : BufName) (s : State) (h : bufRead b i = none) :
    readEntry name b i s = .fault (.hostReadUnwritten name i) := by
  simp only [readEntry, h]

theorem hostRead_sample_unwritten {i : Nat} (hi : i < 64) {s : State} (h : bufRead s.sample i = none) :
    hostAccess (.read (0x100 + 4 * i) 4) s = .fault (.hostReadUnwritten .sample i) := by
  rw [hostAccess_read s (inInterface_aligned (by omega) (by omega)) (locate_sample hi)]
  exact readEntry_unwritten .sample s h

theorem hostRead_coef_unwritten {i : Nat} (hi : i < 64) {s : State} (hb : s.busy = false)
    (h : bufRead s.coef i = none) :
    hostAccess (.read (0x200 + 4 * i) 4) s = .fault (.hostReadUnwritten .coef i) := by
  rw [hostAccess_read s (inInterface_aligned (by omega) (by omega)) (locate_coef hi)]
  simp [readLoc, hb, readEntry_unwritten .coef s h]

theorem hostRead_zz_unwritten {i : Nat} (hi : i < 64) {s : State} (hb : s.busy = false) (h : bufRead s.zz i = none) :
    hostAccess (.read (0x300 + 4 * i) 4) s = .fault (.hostReadUnwritten .zz i) := by
  rw [hostAccess_read s (inInterface_aligned (by omega) (by omega)) (locate_zz hi)]
  simp [readLoc, hb, readEntry_unwritten .zz s h]

/-- An admitted command whose rule faults stops there. -/
theorem exec_fault {i : Instr} {s : State} {f : Fault} (ha : admitted i s = true)
    (h : bodyOf i s = .error (.fault f)) : exec i s = .fault f := by
  rw [exec_eq_run, h, runCommand, if_pos ha, settle]

theorem bodyOf_fdctqInstr_unwritten {i : Nat} {s : State} (c : TableClass) (h : bufReadAll s.sample = .error i) :
    bodyOf (fdctqInstr c) s = .error (.fault (.commandReadUnwritten .sample i)) := by
  simp only [bodyOf_fdctqInstr, fdctqBody, h]

theorem bodyOf_encblkInstr_unwritten {i : Nat} {s : State} (k : Comp) (h : bufReadAll s.sample = .error i) :
    bodyOf (encblkInstr k) s = .error (.fault (.commandReadUnwritten .sample i)) := by
  simp only [bodyOf_encblkInstr, encblkBody, h]

theorem bodyOf_zigzag_unwritten {i : Nat} {s : State} (h : bufReadAll s.coef = .error i) :
    bodyOf .zigzag s = .error (.fault (.commandReadUnwritten .coef i)) := by
  simp only [bodyOf, zigzagBody, h]

theorem bodyOf_huffInstr_unwritten {i : Nat} {s : State} (k : Comp) (h : bufReadAll s.zz = .error i) :
    bodyOf (huffInstr k) s = .error (.fault (.commandReadUnwritten .zz i)) := by
  simp only [bodyOf_huffInstr, huffBody, h]

/-- Settles O19: a host read looks the entry up, an admitted command reads its whole buffer before anything else, and a
command that is not admitted reads nothing. -/
theorem unwrittenEntriesFault : Obligations.UnwrittenEntriesFault := by
  refine ⟨fun s i hi => ⟨hostRead_sample_unwritten hi, hostRead_coef_unwritten hi, hostRead_zz_unwritten hi⟩,
    fun s i hi hu hw => ?_, fun s i hi hu hw ha => ?_, fun s i hi hu hw k ha => ?_, fun s i ha => ?_⟩
  · have hr := bufReadAll_of_firstUnwritten hi hu hw
    exact ⟨fun c ha => exec_fault ha (bodyOf_fdctqInstr_unwritten c hr),
      fun k ha => exec_fault ha (bodyOf_encblkInstr_unwritten k hr)⟩
  · exact exec_fault ha (bodyOf_zigzag_unwritten (bufReadAll_of_firstUnwritten hi hu hw))
  · exact exec_fault ha (bodyOf_huffInstr_unwritten k (bufReadAll_of_firstUnwritten hi hu hw))
  · exact exec_notAdmitted (Bool.eq_false_iff.1 ha)

end Sys2Proof.Machine
end

section
/-! PROOFS. Host accesses while BUSY = 1: the dropped writes, and what each read returns (70_reset_and_hazards.md rules R450,
R452). -/

namespace Sys2Proof.Machine

/-! ### Dropped writes (rule R450) -/

/-- The registers that are a command's input: CMD, QUALITY, WIDTH, HEIGHT. -/
def inputRegs : List Reg := [.cmd, .quality, .width, .height]

theorem writeReg_input_busy {r : Reg} (h : r ∈ inputRegs) (v : Word) {s : State} (hb : s.busy = true) :
    writeReg r v s = setWovr s := by
  cases r with
  | cmd | quality | width | height => exact guardedWrite_busy _ hb
  | _ => exact absurd h (by decide)

theorem hostWrite_input_busy {off : Nat} (h : off ∈ inputRegs.map regOffset) (v : Word) {s : State}
    (hb : s.busy = true) : hostAccess (.write off 4 v) s = .next (setWovr s) := by
  obtain ⟨r, hr, rfl⟩ := List.mem_map.1 h
  rw [hostWrite_reg, writeReg_input_busy hr v hb]

theorem hostWrite_buffer_busy {off : Nat} (h1 : 0x100 ≤ off) (h2 : off < 0x400) (h4 : off % 4 = 0) (v : Word)
    {s : State} (hb : s.busy = true) : hostAccess (.write off 4 v) s = .next (setWovr s) := by
  have hi := inInterface_aligned h4 (by omega)
  obtain ⟨i, _, ⟨_, hl⟩ | ⟨_, hl⟩ | ⟨_, hl⟩⟩ := locate_buffer h1 h2 h4
  all_goals rw [hostAccess_write v s hi hl, writeLoc, guardedWrite_busy _ hb]

/-- Settles O12: the offsets are those of the input registers, or a buffer entry's, and either write is guarded by BUSY. -/
theorem droppedWritesSetWovr : Obligations.DroppedWritesSetWovr := by
  intro s off v hb h
  rcases h with hreg | ⟨h1, h2, h4⟩
  · exact hostWrite_input_busy hreg v hb
  · exact hostWrite_buffer_busy h1 h2 h4 v hb

/-! ### Reads (rule R452) -/

/-- The word a read of what stands at `l` returns while BUSY = 1, SAMPLE apart, whose entries read as they are. -/
def busyWord (s : State) : Loc → Word
  | .reg r => busyRegValue s (nextDraw s) r
  | .coef _ | .zz _ => ((nextDraw s).setWidth 16).signExtend 32
  | .qt _ _ => ((nextDraw s).setWidth 8).setWidth 32
  | .sample _ | .reserved => 0

/-- A read while BUSY = 1 outside SAMPLE returns that word and changes nothing else but, perhaps, the draw counter. -/
theorem readLoc_busy {l : Loc} {s : State} (hb : s.busy = true) (hl : ∀ i, l ≠ .sample i) :
    ∃ n, readLoc l s = .next { s with replies := busyWord s l :: s.replies, draws := n } := by
  cases l with
  | reg r =>
    cases hd : drawsWhenBusy r with
    | true => exact ⟨s.draws + 1, by simp [readLoc, readReg, hb, hd, drawn, reply, busyWord]⟩
    | false => exact ⟨s.draws, by simp [readLoc, readReg, hb, hd, reply, busyWord]⟩
  | sample i => exact absurd rfl (hl i)
  | coef i | zz i | qt c k => exact ⟨s.draws + 1, if_pos hb⟩
  | reserved => exact ⟨s.draws, rfl⟩

/-- SAMPLE's entries stand at 0x100 to 0x1FC (10_state.md rule R33). -/
theorem locate_ne_sample {off : Nat} (h : ¬(0x100 ≤ off ∧ off < 0x200)) (i : Nat) : locate off ≠ .sample i := by
  have hpage : off / 4 / 64 ≠ 1 := by omega
  unfold locate
  dsimp only
  split
  · split <;> simp
  · exact absurd ‹_› hpage
  all_goals simp

theorem toNat_setWidth_lt {n : Nat} (h : n ≤ 32) (x : BitVec n) : (x.setWidth 32).toNat < 2 ^ n := by
  rw [BitVec.toNat_setWidth_of_le h]
  exact x.isLt

theorem toInt_signExtend_range (x : BitVec 16) : -2 ^ 15 ≤ (x.signExtend 32).toInt ∧ (x.signExtend 32).toInt < 2 ^ 15 := by
  rw [BitVec.toInt_signExtend_of_le (by decide)]
  exact ⟨BitVec.le_toInt x, BitVec.toInt_lt⟩

/-- The predictors, COEF and ZZ read sign-extended (10_state.md rules R46, R61, R62). -/
theorem busyWord_int16 {off : Nat} (s : State) (h4 : off % 4 = 0)
    (h : off = 0x030 ∨ off = 0x034 ∨ off = 0x038 ∨ (0x200 ≤ off ∧ off < 0x400)) :
    ∃ x : BitVec 16, busyWord s (locate off) = x.signExtend 32 := by
  rcases h with rfl | rfl | rfl | ⟨h1, h2⟩
  · exact ⟨_, rfl⟩
  · exact ⟨_, rfl⟩
  · exact ⟨_, rfl⟩
  · obtain ⟨i, hi, ⟨hoff, _⟩ | ⟨_, hl⟩ | ⟨_, hl⟩⟩ := locate_buffer (by omega) h2 h4
    · omega
    · exact ⟨_, congrArg (busyWord s) hl⟩
    · exact ⟨_, congrArg (busyWord s) hl⟩

/-- QT's entries read with their upper bits 0 (10_state.md rule R63). -/
theorem busyWord_byte {off : Nat} (s : State) (h : 0x400 ≤ off ∧ off < 0x600) :
    ∃ x : Byte, busyWord s (locate off) = x.setWidth 32 := by
  obtain ⟨c, k, hl⟩ := locate_qt h.1 h.2
  exact ⟨_, congrArg (busyWord s) hl⟩

/-- Settles O18: the word returned is `busyWord` of what stands at the offset, which at each offset named is a value or a
draw in the form the statement gives. -/
theorem busyReadsChangeNothing : Obligations.BusyReadsChangeNothing := by
  refine ⟨fun s off hb h4 hle hsample => ?_, fun s i x _ hi hx => hostRead_sample hi hx⟩
  obtain ⟨n, hn⟩ := readLoc_busy hb (locate_ne_sample hsample)
  have reads {o m : Nat} (x : BitVec m) (hm : m ≤ 32) (hw : busyWord s (locate o) = x.setWidth 32) (ho : off = o) :
      (busyWord s (locate off)).toNat = x.toNat := by
    rw [ho, hw, BitVec.toNat_setWidth_of_le hm]
  refine ⟨busyWord s (locate off), n, (hostAccess_read s (inInterface_aligned h4 hle) rfl).trans hn, ?_,
    reads s.quality (by decide) rfl, reads s.width (by decide) rfl, reads s.height (by decide) rfl,
    reads s.intStatus (by decide) rfl, reads s.intEnable (by decide) rfl, ?_, ?_, ?_, ?_, fun h => ?_, fun h => ?_⟩
  · rintro rfl
    exact (by simp : (nextDraw s ||| 1).getLsbD 0 = true)
  · rintro (rfl | rfl) <;> rfl
  · rintro rfl
    exact outDepth_toNat
  · rintro rfl
    exact toNat_setWidth_lt (by decide) ((nextDraw s).setWidth 13)
  · rintro rfl
    exact toNat_setWidth_lt (by decide) ((nextDraw s).setWidth 11)
  · obtain ⟨x, hx⟩ := busyWord_byte s h
    rw [hx]
    exact toNat_setWidth_lt (by decide) x
  · obtain ⟨x, hx⟩ := busyWord_int16 s h4 h
    rw [hx]
    exact toInt_signExtend_range x

end Sys2Proof.Machine
end

section
/-! PROOFS. The IRQ level, the effect of a rejection, ERRDETAIL, and how ERROR is entered and left (60_exceptions.md rules
R410 to R413, R420; 46_sequencing.md rule R327). -/

namespace Sys2Proof.Machine

/-- Settles O20: a word is nonzero exactly when one of its bits is 1. -/
theorem irqIsTheEnabledSources : Obligations.IrqIsTheEnabledSources := by
  intro s
  have hbits (n : Nat) : (s.intStatus &&& s.intEnable).getLsbD n = true ↔
      s.intStatus.getLsbD n = true ∧ s.intEnable.getLsbD n = true := by simp
  simp only [irq, bne_iff_ne, ← hbits]
  constructor
  · intro hne
    by_contra hnone
    refine hne (BitVec.eq_of_getLsbD_eq fun n hn => ?_)
    simpa using fun hbit => hnone ⟨n, hn, hbit⟩
  · rintro ⟨n, _, hbit⟩ hzero
    simp [hzero] at hbit

/-! ### The effect of a rejection (rule R410) -/

theorem reject_errCmd (e : CmdError) (s : State) :
    (reject e s).errCmd = if s.phase = .error then s.errCmd else s.cmdLatch := by
  unfold reject
  split <;> rfl

theorem reject_errDetail (e : CmdError) (s : State) :
    (reject e s).errDetail = if s.phase = .error then s.errDetail else e.detail := by
  unfold reject
  split <;> rfl

/-- Settles O44: the fields a rejection may write, each by its lemma, outside ERROR and in it. -/
theorem rejectionEffect : Obligations.RejectionEffect := by
  refine fun e s => ⟨fun hp => ?_, fun hp => ?_⟩
  all_goals
    rw [reject_frame, reject_phase_of_code, reject_errCode, reject_errCmd, reject_errDetail, reject_intStatus_bits]
    simp [hp]

/-! ### ERRDETAIL (rule R412) -/

/-- The word of FATAL_INVARIANT as a number, and the ranges of its fields. -/
theorem fatalInvariant_detail_toNat {pos cat : Nat} (k : Comp) (hpos : pos < 64) (hcat : cat ≤ 16) :
    (CmdError.fatalInvariant pos cat k).detail.toNat = pos + 256 * cat + 65536 * compCode k ∧ compCode k < 4 := by
  have hk : compCode k < 4 := by cases k <;> decide
  refine ⟨?_, hk⟩
  rw [CmdError.detail, BitVec.toNat_ofNat]
  omega

theorem fatalInvariant_detail_fields {pos cat : Nat} (k : Comp) (hpos : pos < 64) (hcat : cat ≤ 16) :
    let d := (CmdError.fatalInvariant pos cat k).detail
    (d.extractLsb' 0 6).toNat = pos ∧ (d.extractLsb' 8 5).toNat = cat ∧ (d.extractLsb' 16 2).toNat = compCode k ∧
    d.extractLsb' 6 2 = 0 ∧ d.extractLsb' 13 3 = 0 ∧ d.extractLsb' 18 14 = 0 := by
  obtain ⟨hd, hk⟩ := fatalInvariant_detail_toNat k hpos hcat
  refine ⟨?_, ?_, ?_, BitVec.eq_of_toNat_eq ?_, BitVec.eq_of_toNat_eq ?_, BitVec.eq_of_toNat_eq ?_⟩
  all_goals
    simp only [BitVec.extractLsb'_toNat, hd, Nat.shiftRight_eq_div_pow, BitVec.ofNat_eq_ofNat, BitVec.toNat_ofNat]
    omega

theorem outOverflow_detail_fields {n : Nat} (hn : n ≤ 607) :
    let d := (CmdError.outOverflow n).detail
    (d.extractLsb' 0 16).toNat = n ∧ d.extractLsb' 16 16 = 0 := by
  refine ⟨?_, BitVec.eq_of_toNat_eq ?_⟩
  all_goals
    simp only [CmdError.detail, BitVec.extractLsb'_toNat, Nat.shiftRight_eq_div_pow, BitVec.ofNat_eq_ofNat,
      BitVec.toNat_ofNat]
    omega

/-- Settles O45: INVALID_INPUT by its four words, the other two layouts by the numbers their words hold. -/
theorem errorDetailLayout : Obligations.ErrorDetailLayout :=
  ⟨by decide, fun _ _ k => fatalInvariant_detail_fields k, fun _ => outOverflow_detail_fields, rfl, rfl⟩

/-! ### Entering ERROR (rule R413; 46_sequencing.md rule R328) -/

theorem reject_sameCounters (e : CmdError) (s : State) : sameCounters s (reject e s) := by
  refine ⟨?_, by simp⟩
  rw [reject_phase]
  split <;> simp

theorem hostAccess_sameCounters {a : HostAccess} {s t : State} (h : hostAccess a s = .next t) : sameCounters s t := by
  rcases hostAccess_next h with ⟨off, _, _, hr⟩ | ⟨off, v, _, _, rfl⟩
  · rcases readLoc_next hr with ⟨w, n, rfl⟩ | ⟨_, b, rest, hf, rfl⟩
    · simp [sameCounters]
    · have hpopped : rest <:+ s.fifo := hf ▸ List.suffix_cons b rest
      exact ⟨.inl rfl, hpopped, by simp⟩
  · rw [writeLoc_frame]
    simp [sameCounters]

/-- A command that commits does not end in ERROR but where it leaves STATE, with the counters, as it was. -/
theorem bodyOf_ok_sameCounters {i : Instr} {s u : State} (h : bodyOf i s = .ok u) (hp : u.phase = .error) :
    sameCounters s u := by
  cases i with
  | nop =>
    obtain rfl := Except.ok.inj h
    simp [sameCounters]
  | init =>
    obtain rfl := Except.ok.inj h
    cases hp
  | header =>
    obtain ⟨_, _, _, rfl⟩ := headerBody_ok h
    cases hp
  | fdctq0 | fdctq1 =>
    obtain ⟨x, _, rfl⟩ := fdctqBody_ok h
    simp [sameCounters]
  | zigzag =>
    obtain ⟨x, _, rfl⟩ := zigzagBody_ok h
    simp [sameCounters]
  | huffY | huffCb | huffCr => cases (huffBody_ok_phase h).symm.trans hp
  | encblkY | encblkCb | encblkCr => cases (encblkBody_ok_phase h).symm.trans hp
  | finish =>
    obtain ⟨_, rfl⟩ := finishBody_ok h
    cases hp

/-- A step that ends in ERROR, wherever it began, keeps the counters. -/
theorem step_sameCounters_of_error {s t : State} (h : step s = .next t) (hp : t.phase = .error) : sameCounters s t := by
  -- taking the turn off the agenda touches none of the counters
  suffices hu : sameCounters { s with agenda := s.agenda.tail } t from hu
  rcases step_cases h with ⟨a, rest, _, ha⟩ | ⟨_, hc⟩ | ⟨_, rfl⟩ | ⟨rest, _, rfl⟩
  · exact hostAccess_sameCounters ha
  · rcases coreStep_next hc with ⟨e, rfl⟩ | ⟨i, _, _, u, hu, rfl⟩
    · exact reject_sameCounters e _
    · -- nor does completing the command
      have hcommit := bodyOf_ok_sameCounters hu hp
      exact hcommit
  · simp [sameCounters]
  · cases hp

/-! ### Leaving ERROR (rule R413; 46_sequencing.md rules R322, R327) -/

/-- `t` is in ERROR with the record of `s`. -/
def keepsError (s t : State) : Prop :=
  t.phase = .error ∧ t.errCode = s.errCode ∧ t.errCmd = s.errCmd ∧ t.errDetail = s.errDetail

theorem reject_keepsError (e : CmdError) {s : State} (hp : s.phase = .error) : keepsError s (reject e s) := by
  simp [keepsError, reject_phase_of_code, reject_errCode, reject_errCmd, reject_errDetail, hp]

theorem hostAccess_keepsError {a : HostAccess} {s t : State} (h : hostAccess a s = .next t) (hp : s.phase = .error) :
    keepsError s t := by
  rcases hostAccess_next h with ⟨off, _, _, hr⟩ | ⟨off, v, _, _, rfl⟩
  · rcases readLoc_next hr with ⟨w, n, rfl⟩ | ⟨_, b, rest, _, rfl⟩
    · exact ⟨hp, rfl, rfl, rfl⟩
    · exact ⟨hp, rfl, rfl, rfl⟩
  · rw [writeLoc_frame]
    exact ⟨hp, rfl, rfl, rfl⟩

/-- ERROR admits NOP and INIT alone (46_sequencing.md rule R322). -/
theorem admitted_in_error {i : Instr} {s : State} (hp : s.phase = .error) (ha : admitted i s = true) :
    i = .nop ∨ i = .init := by
  cases i with
  | nop => exact .inl rfl
  | init => exact .inr rfl
  | _ => simp [admitted, blockAdmitted, hp] at ha

theorem coreStep_in_error {s t : State} (h : coreStep s = .next t) (hp : s.phase = .error) :
    keepsError s t ∨ (decode s.cmdLatch = .ok .init ∧ t.phase = .initialized ∧ t.errCode = .none) := by
  rcases coreStep_next h with ⟨e, rfl⟩ | ⟨i, hd, ha, u, hu, rfl⟩
  · exact .inl (reject_keepsError e hp)
  · rcases admitted_in_error hp ha with rfl | rfl
    · obtain rfl := Except.ok.inj hu
      exact .inl ⟨hp, rfl, rfl, rfl⟩
    · obtain rfl := Except.ok.inj hu
      exact .inr ⟨hd, rfl, rfl⟩

/-- Settles O54: a host access or a rejection in ERROR keeps the record, and the commands ERROR admits are NOP and INIT. -/
theorem errorIsLeftOnlyByInitOrReset : Obligations.ErrorIsLeftOnlyByInitOrReset := by
  refine ⟨fun s t h hp => ?_, fun s t hp h => ?_⟩
  · obtain ⟨_, _, htotal, hdone, hnext, hacc, hcount, hy, hcb, hcr, hout⟩ := step_sameCounters_of_error h hp
    exact ⟨htotal, hdone, hnext, hout, hacc, hcount, hy, hcb, hcr⟩
  · rcases step_cases h with ⟨a, rest, _, ha⟩ | ⟨hb, hc⟩ | ⟨_, rfl⟩ | ⟨rest, hr, rfl⟩
    · have hkept := hostAccess_keepsError ha hp
      exact .inl hkept
    · rcases coreStep_in_error hc hp with hkept | ⟨hd, hinit, hnone⟩
      · exact .inl hkept
      · exact .inr (.inl ⟨hb, hd, hinit, hnone⟩)
    · exact .inl ⟨hp, rfl, rfl, rfl⟩
    · exact .inr (.inr ⟨⟨rest, hr⟩, rfl⟩)

end Sys2Proof.Machine
end

section
/-! PROOFS. FATAL_INVARIANT: the first coefficient without a code (60_exceptions.md rules R402, R403; 43_entropy.md rules R222,
R225). -/

namespace Sys2Proof.Machine

/-- A DC difference whose category has no code stops the block at position 0 (rule R222). -/
theorem dcCodes_eq_error {k : Comp} {zz0 pred : BitVec 16} (h : 11 < cat (zz0.toInt - pred.toInt)) :
    dcCodes k zz0 pred = .error (.fatalInvariant 0 (cat (zz0.toInt - pred.toInt)) k) := by
  have hd : zz0.toInt - pred.toInt ≠ 0 := fun h0 => by simp [h0] at h
  simp only [dcCodes, if_neg hd, if_pos h]

/-- The walk from position j stops at the first entry whose category has no code (rule R225). -/
theorem acWalk_eq_error {k : Comp} {vs : List (BitVec 16)} {n : Nat} (j run : Nat)
    (hbefore : ∀ m < n, cat (vs.getD m 0).toInt ≤ 10) (hn : 10 < cat (vs.getD n 0).toInt) :
    acWalk k j run vs = .error (.fatalInvariant (j + n) (cat (vs.getD n 0).toInt) k) := by
  induction vs generalizing j run n with
  | nil => simp at hn
  | cons v vs ih =>
    cases n with
    | zero =>
      have hv : v ≠ 0 := fun h0 => by simp [h0] at hn
      simp only [List.getD_cons_zero] at hn ⊢
      rcases acWalk_nonzero k j run vs hv with ⟨_, hw⟩ | ⟨hcat, _⟩ | ⟨hcat, _⟩
      · exact hw
      · omega
      · omega
    | succ n =>
      simp only [List.getD_cons_succ] at hn ⊢
      have hv10 : cat v.toInt ≤ 10 := hbefore 0 (by omega)
      have hrest (run : Nat) := ih (j + 1) run (fun m hm => hbefore (m + 1) (by omega)) hn
      rw [show j + (n + 1) = j + 1 + n by omega]
      by_cases hv : v = 0
      · rw [hv, acWalk_zero, hrest]
      · rcases acWalk_nonzero k j run vs hv with ⟨hcat, _⟩ | ⟨_, e, he, hw⟩ | ⟨_, cs, hc, _⟩
        · omega
        · rw [hw, ← he, hrest]
        · cases (hrest 0).symm.trans hc

theorem acCodes_eq_error {k : Comp} {ac : List (BitVec 16)} {e : CmdError} (h : acWalk k 1 0 ac = .error e) :
    acCodes k ac = .error e := by
  simp only [acCodes, acWalk_take_endPos, h]

theorem blockCodes_eq_error_of_dc {k : Comp} {zz : Block (BitVec 16)} {pred : BitVec 16} {e : CmdError}
    (h : dcCodes k zz[0] pred = .error e) : blockCodes k zz pred = .error e := by
  simp only [blockCodes, h]

theorem blockCodes_eq_error_of_ac {k : Comp} {zz : Block (BitVec 16)} {pred : BitVec 16} {e : CmdError}
    (hdc : cat (zz[0].toInt - pred.toInt) ≤ 11) (h : acCodes k (zz.toList.drop 1) = .error e) :
    blockCodes k zz pred = .error e := by
  have hok := (dcCodes_eq_ok_iff k zz[0] pred _).2 ⟨hdc, rfl⟩
  simp only [blockCodes, hok, h]

/-- The AC entries stop at the first position of the block whose category has no code. -/
theorem acCodes_block_eq_error {k : Comp} {zz : Block (BitVec 16)} {j : Fin 64} (hj : j ≠ 0)
    (hcat : 10 < cat zz[j].toInt) (hbefore : ∀ m : Fin 64, m ≠ 0 → m < j → cat zz[m].toInt ≤ 10) :
    acCodes k (zz.toList.drop 1) = .error (.fatalInvariant j.val (cat zz[j].toInt) k) := by
  obtain ⟨i, rfl⟩ : ∃ i : Fin 63, i.succ = j := Fin.exists_succ_eq.2 hj
  rw [← getElem_drop_one] at hcat ⊢
  rw [Fin.val_succ, Nat.add_comm]
  refine acCodes_eq_error (acWalk_eq_error 1 0 (fun m hm => ?_) hcat)
  have hentry := getElem_drop_one zz ⟨m, by omega⟩
  rw [hentry]
  exact hbefore _ (Fin.succ_ne_zero _) (Fin.succ_lt_succ_iff.2 hm)

/-- HUFF k and ENCBLK k of a block with no codes are rejected for it, before any room in the FIFO is asked for. -/
theorem exec_codesBlock_rejects {i : Instr} {k : Comp} {s : State} {zz : Block (BitVec 16)} {e : CmdError}
    (h : codesBlock i k s zz) (ha : admitted i s = true) (he : blockCodes k zz (predOf k s) = .error e) :
    exec i s = .next (reject e s) := by
  have hstop : codeBlock k zz s = .error (.reject e) := by simp only [codeBlock, he]
  refine exec_reject ha ?_
  rcases h with ⟨rfl, hz⟩ | ⟨rfl, x, hx, rfl⟩
  · rw [bodyOf_huffInstr, huffBody_written hz, hstop]
  · rw [bodyOf_encblkInstr]
    exact encblkBody_stops hx hstop

/-- Settles O38: the DC difference is coded first, then the walk goes through the AC entries in order. -/
theorem fatalInvariantNamesTheFirstOffender : Obligations.FatalInvariantNamesTheFirstOffender := by
  intro i k s zz h ha
  refine ⟨fun hdc => ?_, fun hdc j hj hcat hbefore => ?_⟩
  · exact exec_codesBlock_rejects h ha (blockCodes_eq_error_of_dc (dcCodes_eq_error hdc))
  · exact exec_codesBlock_rejects h ha (blockCodes_eq_error_of_ac hdc (acCodes_block_eq_error hj hcat hbefore))

end Sys2Proof.Machine
end

section
/-! PROOFS. The code tables: which symbols a specification gives codes, and how the canonical codes fit their lengths
(40_tables.md rule R152; 48_rom_tables.md rules R386 to R390). -/

namespace Sys2Proof.Machine

/-! ### Symbols -/

/-- The assignment gives codes to the symbols in listed order, as many as the counts say. -/
theorem assignCodes_symbols (len code : Nat) (bits vals : List Nat) :
    (assignCodes len code bits vals).map Prod.fst = vals.take bits.sum := by
  induction bits generalizing len code vals with
  | nil => simp [assignCodes]
  | cons n bits ih =>
    have hlevel (l : List Nat) (f : Nat → Code) : (l.zipIdx.map fun p => (p.1, f p.2)).map Prod.fst = l := by
      rw [List.map_map]
      exact List.zipIdx_map_fst 0 l
    rw [assignCodes, List.map_append, hlevel _ fun i => ⟨code + i, len⟩, ih, List.sum_cons, List.take_add]

theorem isSome_lookup_iff (t : List (Nat × Code)) (sym : Nat) :
    (t.lookup sym).isSome = true ↔ sym ∈ t.map Prod.fst := by
  rw [Option.isSome_iff_ne_none, ne_eq, List.lookup_eq_none_iff]
  simp

/-- A specification whose counts add up to its symbols gives a code to each of them and to no other. -/
theorem isSome_lookup_codeTable {h : HuffSpec} (hsum : h.bits.sum = h.vals.length) (sym : Nat) :
    ((codeTable h).lookup sym).isSome = decide (sym ∈ h.vals) := by
  rw [Bool.eq_iff_iff, isSome_lookup_iff, codeTable, assignCodes_symbols, hsum, List.take_length, decide_eq_true_iff]

/-! ### Lengths -/

/-- The codes of each length, from `len` on with the running code `code`, stay below all ones. -/
def codesFit : (len code : Nat) → (bits : List Nat) → Prop
  | _, _, [] => True
  | len, code, n :: bits => code + n < 2 ^ len ∧ codesFit (len + 1) (2 * (code + n)) bits

theorem assignCodes_fit {len code : Nat} {bits : List Nat} (h : codesFit len code bits) (vals : List Nat) :
    ∀ p ∈ assignCodes len code bits vals,
      len ≤ p.2.len ∧ p.2.len < len + bits.length ∧ p.2.code + 1 < 2 ^ p.2.len := by
  induction bits generalizing len code vals with
  | nil => simp [assignCodes]
  | cons n bits ih =>
    obtain ⟨hfit, hrest⟩ := h
    intro p hp
    rw [assignCodes, List.mem_append] at hp
    rcases hp with hp | hp
    · obtain ⟨⟨sym, i⟩, hq, rfl⟩ := List.mem_map.1 hp
      have hi := (List.mem_zipIdx' hq).1
      simp only [List.length_take, List.length_cons] at hi ⊢
      omega
    · obtain ⟨hlo, hhi, hcode⟩ := ih hrest _ p hp
      rw [List.length_cons]
      omega

/-- The codes of a specification with 16 counts that fit. -/
theorem codeTable_fit {h : HuffSpec} (hfit : codesFit 1 0 h.bits) (hlen : h.bits.length = 16) :
    ∀ p ∈ codeTable h, 1 ≤ p.2.len ∧ p.2.len ≤ 16 ∧ p.2.code + 1 < 2 ^ p.2.len := by
  intro p hp
  obtain ⟨hlo, hhi, hcode⟩ := assignCodes_fit hfit h.vals p hp
  exact ⟨hlo, by omega, hcode⟩

/-! ### The four tables -/

/-- The symbols the coder looks up in an AC table: EOB, ZRL, and a run with a category of 1 to 10 (rule R386). -/
def isAcSymbol (sym : Nat) : Bool := decide (sym = 0 ∨ sym = 0xF0 ∨ (1 ≤ sym % 16 ∧ sym % 16 ≤ 10))

theorem mem_dcSpec_vals (c : TableClass) (sym : Nat) : sym ∈ (dcSpec c).vals ↔ sym < 12 := by
  have hrange : (dcSpec c).vals = List.range 12 := by cases c <;> rfl
  rw [hrange, List.mem_range]

theorem mem_acSpec_vals (c : TableClass) : ∀ sym : Fin 256, decide (sym.val ∈ (acSpec c).vals) = isAcSymbol sym.val := by
  cases c <;> decide +kernel

theorem isSome_lookup_htDc (c : TableClass) (sym : Nat) : ((htDc c).lookup sym).isSome = decide (sym < 12) := by
  rw [htDc, isSome_lookup_codeTable (by cases c <;> rfl), decide_eq_decide, mem_dcSpec_vals]

theorem isSome_lookup_htAc (c : TableClass) (sym : Fin 256) :
    ((htAc c).lookup sym.val).isSome = isAcSymbol sym.val := by
  rw [htAc, isSome_lookup_codeTable (by cases c <;> decide +kernel), mem_acSpec_vals]

theorem htDc_fit (c : TableClass) : ∀ p ∈ htDc c, 1 ≤ p.2.len ∧ p.2.len ≤ 16 ∧ p.2.code + 1 < 2 ^ p.2.len :=
  codeTable_fit (by cases c <;> simp [codesFit, dcSpec, dcLumaSpec, dcChromaSpec]) (by cases c <;> rfl)

theorem htAc_fit (c : TableClass) : ∀ p ∈ htAc c, 1 ≤ p.2.len ∧ p.2.len ≤ 16 ∧ p.2.code + 1 < 2 ^ p.2.len :=
  codeTable_fit (by cases c <;> simp [codesFit, acSpec, acLumaSpec, acChromaSpec]) (by cases c <;> rfl)

/-- Settles O35: the codes are given to the listed symbols, and the running code stays below all ones at each length. -/
theorem codeTablesHaveTheCodersSymbols : Obligations.CodeTablesHaveTheCodersSymbols := by
  refine ⟨fun sym => ⟨isSome_lookup_htDc .luma _, isSome_lookup_htDc .chroma _⟩,
    fun sym => ⟨isSome_lookup_htAc .luma sym, isSome_lookup_htAc .chroma sym⟩, ?_⟩
  simp only [List.forall_mem_cons, List.not_mem_nil, false_implies, implies_true, and_true]
  exact ⟨htDc_fit .luma, htAc_fit .luma, htDc_fit .chroma, htAc_fit .chroma⟩

end Sys2Proof.Machine
end

section
/-! PROOFS. The reset state (70_reset_and_hazards.md rules R441, R442). -/

namespace Sys2Proof.Machine

theorem reset_qt (k : Fin 64) : State.reset.qt0[k] = 0 ∧ State.reset.qt1[k] = 0 := by simp [State.reset]

/-- Settles O6: the fields are those of `State.reset`, and ID, VERSION and OUT_DEPTH read their values at any time. -/
theorem resetLeavesTheStatedValues : Obligations.ResetLeavesTheStatedValues := by
  have reads (r : Reg) (hr : r ≠ .outData) (hd : drawsWhenBusy r = false) := hostRead_reg_anytime State.reset hr hd
  refine ⟨rfl, rfl, rfl, rfl, rfl, rfl, rfl, rfl, rfl, rfl, rfl, rfl, rfl, rfl, rfl, rfl, rfl, rfl, rfl, rfl, rfl, rfl,
    rfl, reset_qt, fun i => ⟨rfl, rfl, rfl⟩, rfl, rfl, reads .id (by decide) rfl, reads .version (by decide) rfl,
    BitVec.ofNat 32 Config.outDepth, outDepth_toNat, ?_, reads .outDepth (by decide) rfl⟩
  rw [outDepth_toNat]
  exact outDepth_ge

end Sys2Proof.Machine
end
